-- ==== Sys2Proof/Word.lean ====
section
/-! DEFINITION. The words of WSB: bytes, the 32-bit words of SHA-1, and the host port's location numbers and values
(spec 00_scope.md R8 to R10, R12). -/

namespace Sys2Proof

/-- R9: a byte is 8 bits, bit 0 the least significant (R8). -/
abbrev Byte := BitVec 8

/-- R10: the 32-bit words of the SHA-1 rules. -/
abbrev Word32 := BitVec 32

/-- R12: a location number of the host port, 0x000 to 0xFFF. -/
abbrev Location := BitVec 12

/-- R12: the value of a host transaction, up to 64 bits. -/
abbrev PortWord := BitVec 64

end Sys2Proof
end

