-- ==== Sys2Proof/Config.lean ====
section
/-! DEFINITION. What an implementation fixes: the sizes of spec 00_scope.md R6, and the FREE VALUES, which the spec leaves
open. A free value is a constant with no body: nothing can evaluate it, so a statement holds whatever it is. -/

namespace Sys2Proof.Config

/-- R6: `BUF_BYTES`. -/
abbrev bufBytes : Nat := 1024

/-- R6: `OBUF_BYTES`, equal to `BUF_BYTES`. -/
abbrev obufBytes : Nat := 1024

/-- R6, R158: `KEY_MAX = 2^61 - 37`, the longest token in bytes. -/
abbrev keyMax : Nat := 2 ^ 61 - 37

/-- FREE (R45, R64, R300, R301; log entry 3): the byte a buffer location holds after the reset input was asserted.
First argument: the draw (one for each reset); second: the host location. -/
opaque resetByte : Nat → Nat → Byte

/-- FREE (R35, R45; log entry 3): byte `i` of the hidden `BLK` after the reset input was asserted. -/
opaque resetBlk : Nat → Nat → Byte

/-- FREE (R35, R161 "BLK is left unspecified"; log entry 4): byte `i` of `BLK` after an ACCEPT or a KFINAL. -/
opaque finishBlk : Nat → Nat → Byte

/-- FREE (R131 "an unspecified value (any value, possibly different on each read)"; log entry 5): what a read of a
location other than `STATUS` returns while `STATUS.BUSY = 1`. -/
opaque busyRead : Nat → PortWord

/-- FREE (R6 `CMD_LATENCY`, R138, R325; log entry 6): how many steps of the host pass between the start of a command
and its completion, where the state's own schedule of latencies names none. -/
opaque cmdLatency : Nat → Nat

end Sys2Proof.Config
end

