-- ==== Sys2Proof/Syntax.lean ====
section
/-! DEFINITION. The instructions: one constructor for each row of spec/opcode_table.json (30_encoding.md R91, R92, R100,
R103, R112). The table has three formats, read in three different places: command codes (the low byte of a write to `CMD`),
frame header layouts (the first bytes of a window) and frame opcodes (four bits of a header's byte 0). -/

namespace Sys2Proof

/-- R112: the three groups of the table's rows, "told apart by format". -/
inductive Format where
  /-- `CMD8`: an 8-bit command code (R90). -/
  | cmd8
  /-- `FRAME_HDR16`: a frame header, selected by the value `data[0] * 256 + data[1]` (R103). -/
  | frameHdr16
  /-- `FRAME_OPCODE4`: the 4-bit frame opcode (R100). -/
  | frameOpcode4
deriving DecidableEq, Repr

/-- R96: the fields of a frame header's byte 0. -/
structure Lead where
  fin : Bool
  rsv1 : Bool
  rsv2 : Bool
  rsv3 : Bool
  opcode : BitVec 4
deriving DecidableEq, Repr

/-- The rows of the opcode table. A header layout carries every field of its header (R103): byte 0, the length in the
width the layout gives it, and the masking key packed big-endian where there is one. -/
inductive Instr where
  /-- `ACCEPT` (R170). -/
  | accept
  /-- `KINIT` (R171). -/
  | kinit
  /-- `KUPDATE` (R172). -/
  | kupdate
  /-- `KFINAL` (R173). -/
  | kfinal
  /-- `DECODE` (R200). -/
  | decode
  /-- `UNMASK` (R230). -/
  | unmask
  /-- `ILLEGAL`: the codes 0x00 and 0x07 to 0xFF (R92). -/
  | illegal (code : Byte)
  /-- `HDR16`: no key, 16-bit length. -/
  | hdr16 (lead : Lead) (len : BitVec 16)
  /-- `HDR16M`: key, 16-bit length. -/
  | hdr16m (lead : Lead) (len : BitVec 16) (key : BitVec 32)
  /-- `HDR64`: no key, 64-bit length. -/
  | hdr64 (lead : Lead) (len : BitVec 64)
  /-- `HDR64M`: key, 64-bit length. -/
  | hdr64m (lead : Lead) (len : BitVec 64) (key : BitVec 32)
  /-- `HDR7`: no key, length in byte 1. -/
  | hdr7 (lead : Lead) (len : BitVec 7)
  /-- `HDR7M`: key, length in byte 1. -/
  | hdr7m (lead : Lead) (len : BitVec 7) (key : BitVec 32)
  /-- `FR_CONT`: frame opcode 0x0. -/
  | frCont
  /-- `FR_TEXT`: frame opcode 0x1. -/
  | frText
  /-- `FR_BIN`: frame opcode 0x2. -/
  | frBin
  /-- `FR_CLOSE`: frame opcode 0x8. -/
  | frClose
  /-- `FR_PING`: frame opcode 0x9. -/
  | frPing
  /-- `FR_PONG`: frame opcode 0xA. -/
  | frPong
  /-- `FR_RSVD_DATA`: a reserved frame opcode, 0x3 to 0x7. -/
  | frRsvdData (opcode : BitVec 4)
  /-- `FR_RSVD_CTRL`: a reserved frame opcode, 0xB to 0xF. -/
  | frRsvdCtrl (opcode : BitVec 4)
deriving DecidableEq, Repr

/-- The group of the table a constructor's row belongs to (R112). -/
def Instr.format : Instr → Format
  | .accept | .kinit | .kupdate | .kfinal | .decode | .unmask | .illegal _ => .cmd8
  | .hdr16 _ _ | .hdr16m _ _ _ | .hdr64 _ _ | .hdr64m _ _ _ | .hdr7 _ _ | .hdr7m _ _ _ => .frameHdr16
  | .frCont | .frText | .frBin | .frClose | .frPing | .frPong | .frRsvdData _ | .frRsvdCtrl _ => .frameOpcode4

end Sys2Proof
end

