-- ==== Sys2Proof/WellFormed.lean ====
section
/-! DEFINITION. Which instructions the encoding tables can write: an illegal code is none of the six command codes (R92), a
short layout's length is at most 125 (R103), a reserved opcode lies in its group (R100). -/

namespace Sys2Proof

/-- The operand values the tables of 30_encoding.md admit. -/
def Instr.wf : Instr → Bool
  | .illegal code => code.toNat == 0 || 7 ≤ code.toNat
  | .hdr7 _ len => len.toNat ≤ 125
  | .hdr7m _ len _ => len.toNat ≤ 125
  | .frRsvdData op => 3 ≤ op.toNat && op.toNat ≤ 7
  | .frRsvdCtrl op => 0xB ≤ op.toNat
  | .accept | .kinit | .kupdate | .kfinal | .decode | .unmask => true
  | .hdr16 _ _ | .hdr16m _ _ _ | .hdr64 _ _ | .hdr64m _ _ _ => true
  | .frCont | .frText | .frBin | .frClose | .frPing | .frPong => true

end Sys2Proof
end

