-- ==== Sys2Proof/Decode.lean ====
section
/-! DEFINITION. Byte order, the decoder and the encoder (spec 20_memory.md R66; 30_encoding.md R90 to R105). The decoder is
total on every byte list and rejects by name; the encoder is written from the same tables. -/

namespace Sys2Proof

/-- R9: `be(s)`, the big-endian value of a byte sequence. -/
def be (s : List Byte) : Nat := s.foldl (fun acc b => acc * 256 + b.toNat) 0

/-- R9: `bytes_be(v, n)`, the `n`-byte sequence whose big-endian value is `v` (modulo `256^n`). -/
def bytesBE (v n : Nat) : List Byte :=
  (List.range n).map fun i => BitVec.ofNat 8 (v / 256 ^ (n - 1 - i))

/-- R96: byte 0 of a header. -/
def Lead.toByte (l : Lead) : Byte :=
  BitVec.ofBool l.fin ++ BitVec.ofBool l.rsv1 ++ BitVec.ofBool l.rsv2 ++ BitVec.ofBool l.rsv3 ++ l.opcode

/-- R96, R202: bit 7 is `fin`, bits 6, 5, 4 are `rsv1` to `rsv3`, bits 3 to 0 are `opcode`. -/
def Lead.ofByte (b : Byte) : Lead :=
  { fin := b.getLsbD 7, rsv1 := b.getLsbD 6, rsv2 := b.getLsbD 5, rsv3 := b.getLsbD 4, opcode := b.extractLsb' 0 4 }

/-- R97: byte 1 of a header, `mask` in bit 7 and `L` in bits 6 to 0. -/
def lengthByte (mask : Bool) (L : BitVec 7) : Byte := BitVec.ofBool mask ++ L

/-- R97, R202: bit 7 of byte 1. -/
def maskOf (b1 : Byte) : Bool := b1.getLsbD 7

/-- R97, R202: bits 6 to 0 of byte 1. -/
def lengthOf (b1 : Byte) : BitVec 7 := b1.extractLsb' 0 7

/-- R90, R91, R92: the command of an 8-bit code. Every code has one: a code of no command is `ILLEGAL`. -/
def decodeCommand (code : Byte) : Instr :=
  if code = 0x01 then .accept
  else if code = 0x02 then .kinit
  else if code = 0x03 then .kupdate
  else if code = 0x04 then .kfinal
  else if code = 0x05 then .decode
  else if code = 0x06 then .unmask
  else .illegal code

/-- R100, R112: the six named opcodes first, then the two reserved groups (bit 3 clear, bit 3 set). -/
def decodeOpcode (op : BitVec 4) : Instr :=
  if op = 0x0 then .frCont
  else if op = 0x1 then .frText
  else if op = 0x2 then .frBin
  else if op = 0x8 then .frClose
  else if op = 0x9 then .frPing
  else if op = 0xA then .frPong
  else if op &&& 0x8 = 0x0 then .frRsvdData op
  else .frRsvdCtrl op

/-- R103, R112: the six header layouts. -/
inductive Layout where
  | hdr7
  | hdr7m
  | hdr16
  | hdr16m
  | hdr64
  | hdr64m
deriving DecidableEq, Repr

/-- R103, R112: "the layout is selected by byte 1 alone"; the four extended rows (priority 1) are tried first. -/
def layoutOf (b1 : Byte) : Layout :=
  if b1 = 0x7E then .hdr16
  else if b1 = 0xFE then .hdr16m
  else if b1 = 0x7F then .hdr64
  else if b1 = 0xFF then .hdr64m
  else if b1 &&& 0x80 = 0x00 then .hdr7
  else .hdr7m

/-- Why a byte list is no instruction of a format. -/
inductive Reject where
  /-- `CMD8` or `FRAME_OPCODE4`: there is no byte at all. -/
  | empty
  /-- R201: fewer than the two bytes that select a layout. -/
  | frameTooShort
  /-- R204: the extended length is not wholly there. -/
  | extendedLengthTruncated
  /-- R208: the masking key is not wholly there. -/
  | maskingKeyTruncated
  /-- R100: the value does not fit the four bits of a frame opcode. -/
  | opcodeTooWide
deriving DecidableEq, Repr

/-- The first `n` bytes as a big-endian number, with the bytes after them; nothing where there are fewer. -/
def takeBE (n : Nat) (s : List Byte) : Option (Nat × List Byte) :=
  if s.length < n then none else some (be (s.take n), s.drop n)

/-- R95, R103: a frame header, by its layout, with the bytes that follow it. -/
def decodeHeaderBytes : List Byte → Except Reject (Instr × List Byte)
  | b0 :: b1 :: s =>
    match layoutOf b1 with
    | .hdr7 => .ok (.hdr7 (Lead.ofByte b0) (lengthOf b1), s)
    | .hdr7m =>
      match takeBE 4 s with
      | some (k, r) => .ok (.hdr7m (Lead.ofByte b0) (lengthOf b1) (BitVec.ofNat 32 k), r)
      | none => .error .maskingKeyTruncated
    | .hdr16 =>
      match takeBE 2 s with
      | some (p, r) => .ok (.hdr16 (Lead.ofByte b0) (BitVec.ofNat 16 p), r)
      | none => .error .extendedLengthTruncated
    | .hdr16m =>
      match takeBE 2 s with
      | some (p, s') =>
        match takeBE 4 s' with
        | some (k, r) => .ok (.hdr16m (Lead.ofByte b0) (BitVec.ofNat 16 p) (BitVec.ofNat 32 k), r)
        | none => .error .maskingKeyTruncated
      | none => .error .extendedLengthTruncated
    | .hdr64 =>
      match takeBE 8 s with
      | some (p, r) => .ok (.hdr64 (Lead.ofByte b0) (BitVec.ofNat 64 p), r)
      | none => .error .extendedLengthTruncated
    | .hdr64m =>
      match takeBE 8 s with
      | some (p, s') =>
        match takeBE 4 s' with
        | some (k, r) => .ok (.hdr64m (Lead.ofByte b0) (BitVec.ofNat 64 p) (BitVec.ofNat 32 k), r)
        | none => .error .maskingKeyTruncated
      | none => .error .extendedLengthTruncated
  | _ => .error .frameTooShort

/-- The decoder: the instruction at the head of a byte list, read in the format given, with the bytes after it. -/
def decode : Format → List Byte → Except Reject (Instr × List Byte)
  | .cmd8, b :: s => .ok (decodeCommand b, s)
  | .cmd8, [] => .error .empty
  | .frameHdr16, s => decodeHeaderBytes s
  | .frameOpcode4, b :: s => if b.toNat < 16 then .ok (decodeOpcode (b.extractLsb' 0 4), s) else .error .opcodeTooWide
  | .frameOpcode4, [] => .error .empty

/-- The command code of an instruction: its own for a command (R91, R92), that of DECODE for the rows of the two frame
formats, which DECODE alone reads (R112, R200). -/
def Instr.code : Instr → Byte
  | .accept => 0x01
  | .kinit => 0x02
  | .kupdate => 0x03
  | .kfinal => 0x04
  | .decode => 0x05
  | .unmask => 0x06
  | .illegal code => code
  | .hdr16 _ _ | .hdr16m _ _ _ | .hdr64 _ _ | .hdr64m _ _ _ | .hdr7 _ _ | .hdr7m _ _ _ => 0x05
  | .frCont | .frText | .frBin | .frClose | .frPing | .frPong | .frRsvdData _ | .frRsvdCtrl _ => 0x05

/-- The encoder: the bytes of an instruction (R91, R100, R103). -/
def encode : Instr → List Byte
  | .accept => [0x01]
  | .kinit => [0x02]
  | .kupdate => [0x03]
  | .kfinal => [0x04]
  | .decode => [0x05]
  | .unmask => [0x06]
  | .illegal code => [code]
  | .hdr16 lead len => lead.toByte :: 0x7E :: bytesBE len.toNat 2
  | .hdr16m lead len key => lead.toByte :: 0xFE :: (bytesBE len.toNat 2 ++ bytesBE key.toNat 4)
  | .hdr64 lead len => lead.toByte :: 0x7F :: bytesBE len.toNat 8
  | .hdr64m lead len key => lead.toByte :: 0xFF :: (bytesBE len.toNat 8 ++ bytesBE key.toNat 4)
  | .hdr7 lead len => [lead.toByte, lengthByte false len]
  | .hdr7m lead len key => lead.toByte :: lengthByte true len :: bytesBE key.toNat 4
  | .frCont => [0x00]
  | .frText => [0x01]
  | .frBin => [0x02]
  | .frClose => [0x08]
  | .frPing => [0x09]
  | .frPong => [0x0A]
  | .frRsvdData op => [op.setWidth 8]
  | .frRsvdCtrl op => [op.setWidth 8]

/-- The fourteen bytes of the seven 16-bit words of `w`, the first word the least significant 16 bits (the table numbers a
header row over `data[0] * 256 + data[1]`, R112). -/
def headerBytesOfWord (w : Nat) : List Byte :=
  (List.range 7).flatMap fun k => bytesBE (w / 65536 ^ k % 65536) 2

/-- The format of a table word by its width (log entry 9): the three groups are told apart by their format alone (R112), and
their widths are 4, 8 and, from 16 up, the header with its length and key words. -/
def formatOfWidth (nbits : Nat) : Option Format :=
  if nbits ≤ 4 then some .frameOpcode4
  else if nbits ≤ 8 then some .cmd8
  else if nbits ≤ 112 then some .frameHdr16
  else none

/-- The bytes of a table word of a format. -/
def bytesOfTableWord : Format → Nat → List Byte
  | .cmd8, w => [BitVec.ofNat 8 w]
  | .frameHdr16, w => headerBytesOfWord w
  | .frameOpcode4, w => [BitVec.ofNat 8 w]

/-- The instruction the decoder reads from a word of `nbits` bits, numbered as spec/opcode_table.json numbers them. -/
def decodeTableWord (nbits w : Nat) : Option Instr :=
  match formatOfWidth nbits with
  | none => none
  | some f =>
    match decode f (bytesOfTableWord f w) with
    | .ok (i, _) => some i
    | .error _ => none

end Sys2Proof
end

