-- ==== Sys2Proof/Machine/State.lean ====
section
/-! DEFINITION. The state of one WSB (spec 10_state.md R20), the host that drives it (00_scope.md R12, R14), and the state
after reset (R45). Plain data throughout. -/

namespace Sys2Proof.Machine

/-- No reason: WSB has no trap and no fatal state, every command completes and every access to a location is defined
(R71, R138, R272; 93_implementation_defined.md "Nothing in WSB is `stuck`"), so no step of the model faults. -/
inductive Fault where
deriving DecidableEq, Repr

/-- Why an instruction has no meaning. -/
inductive Refusal where
  /-- Raised by an arm of `exec` whose instruction has no meaning yet; safe. No arm does: every row has its meaning. -/
  | notModelled (mnemonic : String)
deriving DecidableEq, Repr

/-- R61, R62, R70: the two byte buffers, as pairs of host location and byte, locations strictly rising and no byte listed
that an unlisted location reads as. `BUF[i]` is location `i`, `OBUF[i]` is location `0x400 + i`. -/
abbrev Memory := List Host.Cell

/-- R31: the four bits of `STATUS`. -/
structure Status where
  busy : Bool
  err : Bool
  hv : Bool
  kopen : Bool
deriving DecidableEq, Repr

/-- R32: the fields of `ERR` (its bits 7 to 4 are always 0). -/
structure ErrReg where
  code : BitVec 4
  need : Byte
  cmd : Byte
deriving DecidableEq, Repr

/-- R33: the SHA-1 chaining value `H[0]` to `H[4]`. -/
structure Chain where
  h0 : Word32
  h1 : Word32
  h2 : Word32
  h3 : Word32
  h4 : Word32
deriving DecidableEq, Repr

/-- R33 to R35: the key context, `H`, `MLEN` and the hidden `BLK`. -/
structure KeyCtx where
  h : Chain
  mlen : BitVec 64
  blk : Vector Byte 64
deriving DecidableEq, Repr

/-- R243, R245: why the host closed the connection. -/
inductive HostError where
  /-- R243: the `STATUS` read after DECODE has bit 1 (`ERR`) set. -/
  | decodeError
  /-- R245: the frame is not wholly in the bytes read. -/
  | frameExceedsBuffer
deriving DecidableEq, Repr

/-- R243: what a streaming iteration reads a value for, `n` the number of bytes of the stream it has placed. -/
inductive HostUse where
  /-- `RD STATUS`, to test bit 1. -/
  | status (n : Nat)
  /-- `RD HSIZE`, to have `hs`. -/
  | hsize (n : Nat)
  /-- `RD PLEN`, to have `pl` and to check `hs + pl <= n` (R245). -/
  | plen (n hs : Nat)
  /-- One byte of `READ 0, pl`, the message content. -/
  | content (i : Nat)
deriving DecidableEq, Repr

/-- R240, R243: the connection the host serves, while `STREAMING` and once `CLOSED`. -/
structure Connection where
  /-- Why it is `CLOSED`; none while it is `STREAMING`. -/
  closed : Option HostError
  /-- The message contents delivered, one for each iteration, the newest first; the newest grows while it is read. -/
  messages : List (List Byte)
deriving DecidableEq, Repr

/-- R12, R111, R300: what the host does next. -/
inductive HostOp where
  /-- `HostWrite(a, v)`. -/
  | write (a : Location) (v : PortWord)
  /-- `HostRead(a)`. -/
  | read (a : Location)
  /-- `WAIT`: `HostRead(STATUS)` again and again until the value read has bit 0 (`BUSY`) clear. -/
  | wait
  /-- R243: a read whose value decides how the host goes on. -/
  | readFor (use : HostUse)
  /-- The reset input is asserted and released. -/
  | reset
deriving DecidableEq, Repr

/-- The state. The fields down to `cmdl` are R20's; the others are the model's own (log entries 5 to 8, 12, 16). -/
structure State where
  /-- `BUF` and `OBUF` (R61, R62). -/
  mem : Memory
  /-- `STATUS` (R31). -/
  status : Status
  /-- `ERR` (R32). -/
  err : ErrReg
  /-- `OFF` (R22). -/
  off : BitVec 16
  /-- `LEN` (R23). -/
  len : BitVec 16
  /-- `MKEY` (R24). -/
  mkey : BitVec 32
  /-- `HFLAGS` (R25). -/
  hflags : BitVec 9
  /-- `PLEN` (R26). -/
  plen : BitVec 64
  /-- `HSIZE` (R27). -/
  hsize : BitVec 4
  /-- `OLEN` (R28). -/
  olen : BitVec 16
  /-- `H`, `MLEN`, `BLK` (R33 to R35). -/
  key : KeyCtx
  /-- `CMDL`, the latched command code; meaningful only while `STATUS.BUSY = 1` (R37). -/
  cmdl : Byte
  /-- Model: which of the table's formats the running command is read in (always `cmd8` after a write to `CMD`). -/
  format : Format
  /-- Model: how many more steps of the host pass before the running command completes (`CMD_LATENCY`, R6). -/
  remaining : Nat
  /-- Model: the latencies of the commands to come; where it is empty the latency is a free value. -/
  latencies : List Nat
  /-- Model: how many free values have been drawn. -/
  draws : Nat
  /-- Model: the transactions the host still has to make, in its program order (R12, R75). -/
  host : List HostOp
  /-- Model: the value the host's last `HostRead` returned (R12). -/
  rdata : PortWord
  /-- Model: the connection the host's streaming iterations serve (R240, R243). -/
  conn : Connection
deriving DecidableEq, Repr

/-- R45: every register 0, for any contents of the buffers and of `BLK` (R64: "A model takes the initial content of `BUF`
and `OBUF` as an arbitrary parameter of the start state"). -/
def State.resetWith (mem : Memory) (blk : Vector Byte 64) : State where
  mem := mem
  status := { busy := false, err := false, hv := false, kopen := false }
  err := { code := 0, need := 0, cmd := 0 }
  off := 0
  len := 0
  mkey := 0
  hflags := 0
  plen := 0
  hsize := 0
  olen := 0
  key := { h := { h0 := 0, h1 := 0, h2 := 0, h3 := 0, h4 := 0 }, mlen := 0, blk := blk }
  cmdl := 0
  format := .cmd8
  remaining := 0
  latencies := []
  draws := 0
  host := []
  rdata := 0
  conn := { closed := none, messages := [] }

/-- R45 with nothing listed in the buffers and `BLK` zero, one of the contents the spec leaves open (log entries 1, 2). -/
def State.reset : State := State.resetWith [] (Vector.replicate 64 0)

end Sys2Proof.Machine
end

