-- ==== Sys2Proof/Machine/Flags.lean ====
section
/-! DEFINITION. The command errors (spec 60_exceptions.md R261) and the packed words of `STATUS`, `ERR` and `HFLAGS`
(10_state.md R25, R31, R32). WSB has no arithmetic flag (R41). -/

namespace Sys2Proof.Machine

/-- R261: the complete list of command errors. -/
inductive CmdError where
  | frameTooShort
  | extendedLengthTruncated
  | maskingKeyTruncated
  | illegalCommand
  | rangeError
  | sequenceError
  | lengthOverflow
deriving DecidableEq, Repr

/-- R261: `ERR.CODE`. -/
def CmdError.code : CmdError → BitVec 4
  | .frameTooShort => 1
  | .extendedLengthTruncated => 2
  | .maskingKeyTruncated => 3
  | .illegalCommand => 4
  | .rangeError => 5
  | .sequenceError => 6
  | .lengthOverflow => 7

/-- R31: `STATUS` as the host reads it, `KOPEN HV ERR BUSY` from bit 3 down. -/
def Status.word (s : Status) : BitVec 4 :=
  BitVec.ofBool s.kopen ++ BitVec.ofBool s.hv ++ BitVec.ofBool s.err ++ BitVec.ofBool s.busy

/-- R32: `ERR` as the host reads it, `CMD` in bits 23 to 16, `NEED` in 15 to 8, zeros in 7 to 4, `CODE` in 3 to 0. -/
def ErrReg.word (e : ErrReg) : BitVec 24 := e.cmd ++ e.need ++ (0 : BitVec 4) ++ e.code

/-- R25: `HFLAGS = mask ++ data[0]`. -/
def hflagsWord (mask : Bool) (lead : Lead) : BitVec 9 := BitVec.ofBool mask ++ lead.toByte

/-- R25: `HFLAGS.MASK`. -/
def hflagsMask (f : BitVec 9) : Bool := f.getLsbD 8

/-- R25: `HFLAGS.FIN`, `RSV1` to `RSV3` and `OPCODE`, as byte 0 of the wire holds them. -/
def hflagsLead (f : BitVec 9) : Lead := Lead.ofByte (f.extractLsb' 0 8)

/-- R25: `HFLAGS.OPCODE`. -/
def hflagsOpcode (f : BitVec 9) : BitVec 4 := f.extractLsb' 0 4

/-- R25, R100: `HFLAGS` with its `OPCODE` field written, the five flag bits kept. -/
def withOpcode (f : BitVec 9) (op : BitVec 4) : BitVec 9 := f.extractLsb' 4 5 ++ op

end Sys2Proof.Machine
end

