-- ==== Sys2Proof/Machine/Ops.lean ====
section
/-! DEFINITION. The named operations over memory and registers: the byte buffers (spec 20_memory.md R60 to R64), the
completion of a command (40_command_common.md R137) and the raising of an error (60_exceptions.md R270), which is WSB's
whole exception entry. There is no return from an error (R272). -/

namespace Sys2Proof.Machine

/-- What a location of the buffers that is not listed holds (R64; log entry 1). -/
def Memory.unlisted : Byte := 0

/-- R68: the byte at a location. -/
def Memory.read : Memory → Nat → Byte
  | [], _ => Memory.unlisted
  | (k, x) :: m, a => if k = a then x else Memory.read m a

/-- A cell put in its place by location. -/
def Memory.insert : Memory → Nat → Byte → Memory
  | [], a, v => [(a, v)]
  | (k, x) :: m, a, v => if a < k then (a, v) :: (k, x) :: m else (k, x) :: Memory.insert m a v

/-- R42, R68: one byte stored. A byte that an unlisted location holds leaves no cell. -/
def Memory.write (m : Memory) (a : Nat) (v : Byte) : Memory :=
  if v = Memory.unlisted then m.filter (fun c => c.1 != a) else Memory.insert (m.filter (fun c => c.1 != a)) a v

/-- Bytes stored at rising locations. -/
def Memory.writeBytes : Memory → Nat → List Byte → Memory
  | m, _, [] => m
  | m, a, b :: bs => Memory.writeBytes (Memory.write m a b) (a + 1) bs

/-- The canonical form of the buffers: locations strictly rising and below 0x800 (R70), no byte that an unlisted location
holds. -/
abbrev Memory.wf (m : Memory) : Prop :=
  m.Pairwise (fun c d => c.1 < d.1) ∧ ∀ c ∈ m, c.2 ≠ Memory.unlisted ∧ c.1 < 0x800

/-- The buffers whose byte at each location below `n` is the one given. -/
def Memory.tabulate (f : Nat → Byte) : Nat → Memory
  | 0 => []
  | n + 1 => Memory.tabulate f n ++ (if f n = Memory.unlisted then [] else [(n, f n)])

/-- R60: `BUF[i]` is host location `i`. -/
def bufAt (i : Nat) : Nat := i

/-- R60: `OBUF[i]` is host location `0x400 + i`. -/
def obufAt (i : Nat) : Nat := 0x400 + i

/-- R60: byte `i` of the input buffer. -/
def readBuf (s : State) (i : Nat) : Byte := s.mem.read (bufAt i)

/-- R60: byte `i` of the output buffer. -/
def readObuf (s : State) (i : Nat) : Byte := s.mem.read (obufAt i)

/-- R62: `OBUF[0 : len(bs)] <- bs` and `OLEN <- len(bs)` (R28). -/
def output (bs : List Byte) (s : State) : State :=
  { s with mem := Memory.writeBytes s.mem (obufAt 0) bs, olen := BitVec.ofNat 16 bs.length }

/-- R137: the completion of a command that succeeded. -/
def succeed (code : Byte) (s : State) : State :=
  { s with status := { s.status with busy := false, err := false }, err := { code := 0, need := 0, cmd := code } }

/-- R137, R270: `raise E(need)`, the completion of a command that failed. Nothing is saved, nothing else changes and control
goes nowhere. -/
def raise (e : CmdError) (need : Byte) (code : Byte) (s : State) : State :=
  { s with status := { s.status with busy := false, err := true }, err := { code := e.code, need := need, cmd := code } }

/-- R45 `BLK`: the 64 bytes of a function of the index. -/
def blkOf (f : Nat → Byte) : Vector Byte 64 := Vector.ofFn fun i => f i.val

/-- R300, R301: the reset input. Every register takes its reset value, a running command is abandoned, and the buffers and
`BLK` hold bytes the spec does not fix (free values). What belongs to the host stays. -/
def applyReset (s : State) : State :=
  { State.resetWith (Memory.tabulate (Config.resetByte s.draws) 0x800) (blkOf (Config.resetBlk s.draws)) with
    latencies := s.latencies, draws := s.draws + 1, host := s.host, rdata := s.rdata, conn := s.conn }

end Sys2Proof.Machine
end

