-- ==== Sys2Proof/Machine/Operands.lean ====
section
/-! DEFINITION. The operands of the commands (spec 40_command_common.md R133, R134, R140; 43_payload_unmask.md R230): the
window and its range check, the key bytes of `MKEY`. WSB has one addressing mode and no other operand form (R93, R140). -/

namespace Sys2Proof.Machine

/-- R134: the range check, on natural numbers, without wrap-around. -/
def inRange (s : State) : Bool := s.off.toNat + s.len.toNat ≤ Config.bufBytes

/-- R133: the window `data = BUF[OFF : OFF+LEN]`. -/
def window (s : State) : List Byte := (List.range s.len.toNat).map fun i => readBuf s (s.off.toNat + i)

/-- R24, R230: `key = bytes_be(MKEY, 4)`. -/
def keyBytes (s : State) : List Byte := bytesBE s.mkey.toNat 4

/-- R134, R142: a command on the window; out of range it fails with `RangeError` and is otherwise empty. -/
def onWindow (code : Byte) (run : State → State) (s : State) : State :=
  if inRange s then run s else raise .rangeError 0 code s

end Sys2Proof.Machine
end

