-- ==== Sys2Proof/Machine/Sha1.lean ====
section
/-! DEFINITION. SHA-1 (spec 41_accept_key.md R152 to R157) and the streaming primitives of the key context (R160, R161). -/

namespace Sys2Proof.Machine

/-- R10: `ROTL(x, n) = ((x * 2^n) mod 2^32) + (x div 2^(32-n))`, for `0 < n < 32`. -/
def rotl (x : Word32) (n : Nat) : Word32 := x <<< n + x >>> (32 - n)

/-- R152: the initial value. -/
def sha1IV : Chain :=
  { h0 := 0x67452301, h1 := 0xEFCDAB89, h2 := 0x98BADCFE, h3 := 0x10325476, h4 := 0xC3D2E1F0 }

/-- R154: `W[t] = be(B[4t : 4t+4])` for `t` from 0 to 15. -/
def blockWords (B : List Byte) : List Word32 :=
  (List.range 16).map fun t => BitVec.ofNat 32 (be ((B.drop (4 * t)).take 4))

/-- R154: `W[t]` from the words before it, the newest first: `W[t-3]`, `W[t-8]`, `W[t-14]`, `W[t-16]`. -/
def nextWord (rev : List Word32) : Word32 :=
  rotl (rev.getD 2 0 ^^^ rev.getD 7 0 ^^^ rev.getD 13 0 ^^^ rev.getD 15 0) 1

/-- R154: `n` more words of the schedule, the newest first. -/
def extendSchedule : Nat → List Word32 → List Word32
  | 0, rev => rev
  | n + 1, rev => extendSchedule n (nextWord rev :: rev)

/-- R154: the message schedule `W[0]` to `W[79]` of a block. -/
def schedule (B : List Byte) : List Word32 := (extendSchedule 64 (blockWords B).reverse).reverse

/-- R155: the round function. -/
def roundF (t : Nat) (b c d : Word32) : Word32 :=
  if t ≤ 19 then (b &&& c) ||| (~~~b &&& d)
  else if t ≤ 39 then b ^^^ c ^^^ d
  else if t ≤ 59 then (b &&& c) ||| (b &&& d) ||| (c &&& d)
  else b ^^^ c ^^^ d

/-- R155: the round constant. -/
def roundK (t : Nat) : Word32 :=
  if t ≤ 19 then 0x5A827999 else if t ≤ 39 then 0x6ED9EBA1 else if t ≤ 59 then 0x8F1BBCDC else 0xCA62C1D6

/-- R156: one round on the working variables `(a, b, c, d, e)`, a simultaneous update. -/
def sha1Round (t : Nat) (w : Word32) (x : Chain) : Chain :=
  { h0 := rotl x.h0 5 + roundF t x.h1 x.h2 x.h3 + x.h4 + roundK t + w
    h1 := x.h0
    h2 := rotl x.h1 30
    h3 := x.h2
    h4 := x.h3 }

/-- R156: the rounds from index `t` on, one for each word of the schedule. -/
def sha1Rounds : Nat → List Word32 → Chain → Chain
  | _, [], x => x
  | t, w :: ws, x => sha1Rounds (t + 1) ws (sha1Round t w x)

/-- R156: word by word addition modulo 2^32. -/
def Chain.add (x y : Chain) : Chain :=
  { h0 := x.h0 + y.h0, h1 := x.h1 + y.h1, h2 := x.h2 + y.h2, h3 := x.h3 + y.h3, h4 := x.h4 + y.h4 }

/-- R156: compression of one 64-byte block into a chaining value. -/
def compress (h : Chain) (B : List Byte) : Chain := h.add (sha1Rounds 0 (schedule B) h)

/-- R157: the first `n` consecutive 64-byte blocks. -/
def blocks64 : Nat → List Byte → List (List Byte)
  | 0, _ => []
  | n + 1, m => m.take 64 :: blocks64 n (m.drop 64)

/-- R157: every complete 64-byte block of `m` compressed, in order. -/
def compressAll (h : Chain) (m : List Byte) : Chain := (blocks64 (m.length / 64) m).foldl compress h

/-- R153: how many zero bytes: the least `z` with `(T + 1 + z) mod 64 = 56`. -/
def padZeros (T : Nat) : Nat := (119 - T % 64) % 64

/-- R153: what padding appends to a message of `T` bytes: 0x80, zeros, the bit length in 8 bytes. -/
def padTail (T : Nat) : List Byte := 0x80 :: (List.replicate (padZeros T) 0x00 ++ bytesBE (8 * T) 8)

/-- R153: the padded message. -/
def pad (m : List Byte) : List Byte := m ++ padTail m.length

/-- R157: the chaining value after every block of the padded message. -/
def sha1 (m : List Byte) : Chain := compressAll sha1IV (pad m)

/-- R33, R157: the 20 digest bytes. -/
def digestBytes (h : Chain) : List Byte :=
  bytesBE h.h0.toNat 4 ++ bytesBE h.h1.toNat 4 ++ bytesBE h.h2.toNat 4 ++ bytesBE h.h3.toNat 4 ++ bytesBE h.h4.toNat 4

/-- R171: `H <- IV`, `MLEN <- 0`; `BLK` is not cleared. -/
def KeyCtx.init (k : KeyCtx) : KeyCtx := { k with h := sha1IV, mlen := 0 }

/-- R35, R141: the fill pointer, `MLEN mod 64`. -/
def KeyCtx.fill (k : KeyCtx) : Nat := k.mlen.toNat % 64

/-- R35: the fill pointer names a byte of `BLK`. -/
theorem KeyCtx.fill_lt (k : KeyCtx) : k.fill < 64 := Nat.mod_lt _ (by decide)

/-- R160: one byte absorbed. -/
def KeyCtx.absorbByte (k : KeyCtx) (x : Byte) : KeyCtx :=
  let blk := k.blk.set k.fill x k.fill_lt
  let mlen := k.mlen + 1
  { h := if mlen.toNat % 64 = 0 then compress k.h blk.toList else k.h, mlen := mlen, blk := blk }

/-- R160: `absorb(s)`. -/
def KeyCtx.absorb (k : KeyCtx) (s : List Byte) : KeyCtx := s.foldl KeyCtx.absorbByte k

/-- R151: the protocol GUID, the 36 ASCII bytes of 258EAFA5-E914-47DA-95CA-C5AB0DC85B11. -/
def guid : List Byte :=
  [0x32, 0x35, 0x38, 0x45, 0x41, 0x46, 0x41, 0x35, 0x2D, 0x45, 0x39, 0x31, 0x34, 0x2D, 0x34, 0x37, 0x44, 0x41,
   0x2D, 0x39, 0x35, 0x43, 0x41, 0x2D, 0x43, 0x35, 0x41, 0x42, 0x30, 0x44, 0x43, 0x38, 0x35, 0x42, 0x31, 0x31]

/-- R161: `finish()`: the GUID, then the padding of what `BLK` holds. `MLEN` is not changed by the padding; what `BLK` holds
afterwards is the argument `after`. -/
def KeyCtx.finish (k : KeyCtx) (after : Vector Byte 64) : KeyCtx :=
  let g := k.absorb guid
  { h := compressAll g.h (g.blk.toList.take g.fill ++ padTail g.mlen.toNat), mlen := g.mlen, blk := after }

end Sys2Proof.Machine
end

