-- ==== Sys2Proof/Machine/Base64.lean ====
section
/-! DEFINITION. Base64 of a 20-byte digest (spec 41_accept_key.md R165, R166) and the Accept-Key function (R150). -/

namespace Sys2Proof.Machine

/-- R165: the alphabet, `A` to `Z`, `a` to `z`, `0` to `9`, `+`, `/`. -/
def b64Char (v : Nat) : Byte :=
  if v < 26 then BitVec.ofNat 8 (0x41 + v)
  else if v < 52 then BitVec.ofNat 8 (0x61 + (v - 26))
  else if v < 62 then BitVec.ofNat 8 (0x30 + (v - 52))
  else if v = 62 then 0x2B
  else 0x2F

/-- R165: the pad character. -/
def b64Pad : Byte := 0x3D

/-- R166: the four characters of three bytes, the most significant six bits first. -/
def b64Group (b0 b1 b2 : Byte) : List Byte :=
  let x := b0.toNat * 65536 + b1.toNat * 256 + b2.toNat
  [b64Char (x / 2 ^ 18 % 64), b64Char (x / 2 ^ 12 % 64), b64Char (x / 2 ^ 6 % 64), b64Char (x % 64)]

/-- R166: the last two bytes, four characters with one pad. -/
def b64Last (b0 b1 : Byte) : List Byte :=
  let y := b0.toNat * 256 + b1.toNat
  [b64Char (y / 2 ^ 10 % 64), b64Char (y / 2 ^ 4 % 64), b64Char (y % 16 * 4), b64Pad]

/-- R166: `base64_20(D)`: six full groups, then the last two bytes. -/
def base64_20 (D : List Byte) : List Byte :=
  ((List.range 6).flatMap fun g => b64Group (D.getD (3 * g) 0) (D.getD (3 * g + 1) 0) (D.getD (3 * g + 2) 0))
    ++ b64Last (D.getD 18 0) (D.getD 19 0)

/-- R150: `acceptKey(token) = base64_20(SHA1(token ++ GUID))`. -/
def acceptKey (token : List Byte) : List Byte := base64_20 (digestBytes (sha1 (token ++ guid)))

end Sys2Proof.Machine
end

