-- ==== Sys2Proof/Machine/AcceptKey.lean ====
section
/-! DEFINITION. Unit AK: ACCEPT, KINIT, KUPDATE, KFINAL (spec 41_accept_key.md R170 to R173), and the write of a code that
is no command (30_encoding.md R92). -/

namespace Sys2Proof.Machine

/-- R170, R173: `finish()`, the digest encoded into `OBUF[0:28]`, `OLEN <- 28`, `STATUS.KOPEN <- 0`. `BLK` is left holding
free bytes. -/
def finishKey (s : State) : State :=
  let k := s.key.finish (blkOf (Config.finishBlk s.draws))
  output (base64_20 (digestBytes k.h))
    { s with key := k, draws := s.draws + 1, status := { s.status with kopen := false } }

/-- R160: `absorb(data)` on the state. -/
def absorbWindow (s : State) : State := { s with key := s.key.absorb (window s) }

/-- R170: ACCEPT, code 0x01. -/
def execAccept (s : State) : Host.Outcome State Fault Refusal :=
  .next (onWindow 0x01 (fun s => succeed 0x01 (finishKey (absorbWindow { s with key := s.key.init }))) s)

/-- R171: KINIT, code 0x02. -/
def execKinit (s : State) : Host.Outcome State Fault Refusal :=
  .next (succeed 0x02 { s with key := s.key.init, status := { s.status with kopen := true } })

/-- R172: KUPDATE, code 0x03; the checks in the order RangeError, SequenceError, LengthOverflow (R135). -/
def execKupdate (s : State) : Host.Outcome State Fault Refusal :=
  .next (onWindow 0x03
    (fun s =>
      if s.status.kopen then
        if s.key.mlen.toNat + s.len.toNat ≤ Config.keyMax then succeed 0x03 (absorbWindow s)
        else raise .lengthOverflow 0 0x03 s
      else raise .sequenceError 0 0x03 s) s)

/-- R173: KFINAL, code 0x04. -/
def execKfinal (s : State) : Host.Outcome State Fault Refusal :=
  .next (if s.status.kopen then succeed 0x04 (finishKey s) else raise .sequenceError 0 0x04 s)

/-- R92, R132, R265: a code that selects no command fails with `IllegalCommand`; `ERR.CMD` is the written code. -/
def execIllegal (code : Byte) (s : State) : Host.Outcome State Fault Refusal :=
  .next (raise .illegalCommand 0 code s)

end Sys2Proof.Machine
end

