-- ==== Sys2Proof/Machine/FrameOpcode.lean ====
section
/-! DEFINITION. The frame opcodes (spec 30_encoding.md R100, R101). WSB gives none of them a behaviour: what DECODE does with
the four bits is to copy them into `HFLAGS.OPCODE`, the same for all 16 values and with no error. -/

namespace Sys2Proof.Machine

/-- R100: the four bits exposed in `HFLAGS.OPCODE`, and the completion of the command that reads them (R137; log entry 8). -/
def exposeOpcode (op : BitVec 4) (s : State) : State := succeed 0x05 { s with hflags := withOpcode s.hflags op }

/-- R100: continuation, 0x0. -/
def execFrCont (s : State) : Host.Outcome State Fault Refusal := .next (exposeOpcode 0x0 s)

/-- R100: text, 0x1. -/
def execFrText (s : State) : Host.Outcome State Fault Refusal := .next (exposeOpcode 0x1 s)

/-- R100: binary, 0x2. -/
def execFrBin (s : State) : Host.Outcome State Fault Refusal := .next (exposeOpcode 0x2 s)

/-- R100: close, 0x8. -/
def execFrClose (s : State) : Host.Outcome State Fault Refusal := .next (exposeOpcode 0x8 s)

/-- R100: ping, 0x9. -/
def execFrPing (s : State) : Host.Outcome State Fault Refusal := .next (exposeOpcode 0x9 s)

/-- R100: pong, 0xA. -/
def execFrPong (s : State) : Host.Outcome State Fault Refusal := .next (exposeOpcode 0xA s)

/-- R100, R101: reserved, 0x3 to 0x7, decoded without error. -/
def execFrRsvdData (op : BitVec 4) (s : State) : Host.Outcome State Fault Refusal := .next (exposeOpcode op s)

/-- R100, R101: reserved, 0xB to 0xF, decoded without error. -/
def execFrRsvdCtrl (op : BitVec 4) (s : State) : Host.Outcome State Fault Refusal := .next (exposeOpcode op s)

end Sys2Proof.Machine
end

