-- ==== Sys2Proof/Machine/HeaderDecoder.lean ====
section
/-! DEFINITION. Unit HD: the pure function `decodeHeader` (spec 42_frame_header_decode.md R215), DECODE (R200), and the six
header layouts of the opcode table (30_encoding.md R103). -/

namespace Sys2Proof.Machine

/-- R209: what a decode returns: the header and `headerSize`. The key is there only when `mask` is true. -/
structure Header where
  lead : Lead
  mask : Bool
  payloadLength : Nat
  key : Option (BitVec 32)
  headerSize : Nat
deriving DecidableEq, Repr

/-- R215: `Err(E, need)`, with `E` one of the three truncation errors. -/
structure HeaderError where
  error : CmdError
  need : Nat
deriving DecidableEq, Repr

/-- R9: `s[a:b]`. -/
def slice (s : List Byte) (a b : Nat) : List Byte := (s.drop a).take (b - a)

/-- R203, R204: length resolution, `payloadLength` and the `headerSize` after it. -/
def resolveLength (data : List Byte) (L : Nat) : Except HeaderError (Nat × Nat) :=
  if L ≤ 125 then .ok (L, 2)
  else if L = 126 then
    if data.length < 4 then .error { error := .extendedLengthTruncated, need := 4 }
    else .ok ((data.getD 2 0).toNat * 256 + (data.getD 3 0).toNat, 4)
  else if data.length < 10 then .error { error := .extendedLengthTruncated, need := 10 }
  else .ok (be (slice data 2 10), 10)

/-- R208: the masking key, directly after the length, and the `headerSize` after it. -/
def resolveKey (data : List Byte) (mask : Bool) (hs : Nat) : Except HeaderError (Option (BitVec 32) × Nat) :=
  if mask then
    if data.length < hs + 4 then .error { error := .maskingKeyTruncated, need := hs + 4 }
    else .ok (some (BitVec.ofNat 32 (be (slice data hs (hs + 4)))), hs + 4)
  else .ok (none, hs)

/-- R215: `decodeHeader(data)`. -/
def decodeHeader (data : List Byte) : Except HeaderError Header :=
  if data.length < 2 then .error { error := .frameTooShort, need := 2 }
  else
    let b0 := data.getD 0 0
    let b1 := data.getD 1 0
    match resolveLength data (lengthOf b1).toNat with
    | .error e => .error e
    | .ok (pl, hs) =>
      match resolveKey data (maskOf b1) hs with
      | .error e => .error e
      | .ok (key, hs') =>
        .ok { lead := Lead.ofByte b0, mask := maskOf b1, payloadLength := pl, key := key, headerSize := hs' }

/-- R211: the registers after success; `MKEY <- 0` where there is no key. -/
def commitHeader (h : Header) (s : State) : State :=
  { s with
    hflags := hflagsWord h.mask h.lead
    plen := BitVec.ofNat 64 h.payloadLength
    mkey := h.key.getD 0
    hsize := BitVec.ofNat 4 h.headerSize
    status := { s.status with hv := true } }

/-- R212: the registers after a decode error. -/
def clearHeader (s : State) : State :=
  { s with hflags := 0, plen := 0, mkey := 0, hsize := 0, status := { s.status with hv := false } }

/-- R200: DECODE, code 0x05. -/
def execDecode (s : State) : Host.Outcome State Fault Refusal :=
  .next (onWindow 0x05
    (fun s =>
      match decodeHeader (window s) with
      | .ok h => succeed 0x05 (commitHeader h s)
      | .error e => raise e.error (BitVec.ofNat 8 e.need) 0x05 (clearHeader s)) s)

/-- R103 `HDR16`: 4 bytes, no key, `payloadLength = be(data[2:4])`. -/
def execHdr16 (lead : Lead) (len : BitVec 16) (s : State) : Host.Outcome State Fault Refusal :=
  .next (succeed 0x05
    (commitHeader { lead := lead, mask := false, payloadLength := len.toNat, key := none, headerSize := 4 } s))

/-- R103 `HDR16M`: 8 bytes, `key = data[4:8]`. -/
def execHdr16m (lead : Lead) (len : BitVec 16) (key : BitVec 32) (s : State) : Host.Outcome State Fault Refusal :=
  .next (succeed 0x05
    (commitHeader { lead := lead, mask := true, payloadLength := len.toNat, key := some key, headerSize := 8 } s))

/-- R103 `HDR64`: 10 bytes, no key, `payloadLength = be(data[2:10])`. -/
def execHdr64 (lead : Lead) (len : BitVec 64) (s : State) : Host.Outcome State Fault Refusal :=
  .next (succeed 0x05
    (commitHeader { lead := lead, mask := false, payloadLength := len.toNat, key := none, headerSize := 10 } s))

/-- R103 `HDR64M`: 14 bytes, `key = data[10:14]`. -/
def execHdr64m (lead : Lead) (len : BitVec 64) (key : BitVec 32) (s : State) : Host.Outcome State Fault Refusal :=
  .next (succeed 0x05
    (commitHeader { lead := lead, mask := true, payloadLength := len.toNat, key := some key, headerSize := 14 } s))

/-- R103 `HDR7`: 2 bytes, no key, `payloadLength = L`. -/
def execHdr7 (lead : Lead) (len : BitVec 7) (s : State) : Host.Outcome State Fault Refusal :=
  .next (succeed 0x05
    (commitHeader { lead := lead, mask := false, payloadLength := len.toNat, key := none, headerSize := 2 } s))

/-- R103 `HDR7M`: 6 bytes, `key = data[2:6]`. -/
def execHdr7m (lead : Lead) (len : BitVec 7) (key : BitVec 32) (s : State) : Host.Outcome State Fault Refusal :=
  .next (succeed 0x05
    (commitHeader { lead := lead, mask := true, payloadLength := len.toNat, key := some key, headerSize := 6 } s))

end Sys2Proof.Machine
end

