-- ==== Sys2Proof/Machine/Unmask.lean ====
section
/-! DEFINITION. Unit UM: UNMASK (spec 43_payload_unmask.md R230, R231). -/

namespace Sys2Proof.Machine

/-- R231: `unmask(data, key)`, byte `i` is `data[i] XOR key[i mod 4]`. -/
def unmask (data key : List Byte) : List Byte := data.mapIdx fun i b => b ^^^ key.getD (i % 4) 0

/-- R230: UNMASK, code 0x06. -/
def execUnmask (s : State) : Host.Outcome State Fault Refusal :=
  .next (onWindow 0x06 (fun s => succeed 0x06 (output (unmask (window s) (keyBytes s)) s)) s)

end Sys2Proof.Machine
end

