-- ==== Sys2Proof/Machine/Dispatch.lean ====
section
/-! DEFINITION. One arm for each instruction: its whole effect, from the checks to the completion (spec 40_command_common.md
R132 to R137). -/

namespace Sys2Proof.Machine

def exec (i : Instr) (s : State) : Host.Outcome State Fault Refusal :=
  match i with
  | .accept => Sys2Proof.Machine.execAccept s
  | .kinit => Sys2Proof.Machine.execKinit s
  | .kupdate => Sys2Proof.Machine.execKupdate s
  | .kfinal => Sys2Proof.Machine.execKfinal s
  | .decode => Sys2Proof.Machine.execDecode s
  | .unmask => Sys2Proof.Machine.execUnmask s
  | .illegal code => Sys2Proof.Machine.execIllegal code s
  | .hdr16 lead len => Sys2Proof.Machine.execHdr16 lead len s
  | .hdr16m lead len key => Sys2Proof.Machine.execHdr16m lead len key s
  | .hdr64 lead len => Sys2Proof.Machine.execHdr64 lead len s
  | .hdr64m lead len key => Sys2Proof.Machine.execHdr64m lead len key s
  | .hdr7 lead len => Sys2Proof.Machine.execHdr7 lead len s
  | .hdr7m lead len key => Sys2Proof.Machine.execHdr7m lead len key s
  | .frCont => Sys2Proof.Machine.execFrCont s
  | .frText => Sys2Proof.Machine.execFrText s
  | .frBin => Sys2Proof.Machine.execFrBin s
  | .frClose => Sys2Proof.Machine.execFrClose s
  | .frPing => Sys2Proof.Machine.execFrPing s
  | .frPong => Sys2Proof.Machine.execFrPong s
  | .frRsvdData op => Sys2Proof.Machine.execFrRsvdData op s
  | .frRsvdCtrl op => Sys2Proof.Machine.execFrRsvdCtrl op s

end Sys2Proof.Machine
end

