-- ==== Sys2Proof/Machine/HostNotation.lean ====
section
/-! DEFINITION. Host notation (spec 30_encoding.md R110, R111) and the host's sequences (44_host_sequences.md R242, R243,
R245, R246): the transactions to put into a state's `host` field to drive WSB as the spec's programs do, and how a streaming
iteration goes on by the values it reads. -/

namespace Sys2Proof.Machine

/-- R243: where the value is read. -/
def HostUse.location : HostUse → Location
  | .status _ => 0x801
  | .hsize _ => 0x808
  | .plen _ _ => 0x807
  | .content i => BitVec.ofNat 12 (obufAt i)

/-- R243: an iteration that passed both tests has a message, its content still to be read. -/
def Connection.beginMessage (c : Connection) : Connection := { c with messages := [] :: c.messages }

/-- R243: one byte more of the newest message. -/
def Connection.addByte (b : Byte) (c : Connection) : Connection :=
  { c with messages := match c.messages with
      | m :: ms => (m ++ [b]) :: ms
      | [] => [[b]] }

namespace HostProgram

/-- R111: `WIN off, len`. -/
def win (off len : Nat) : List HostOp := [.write 0x803 (BitVec.ofNat 64 off), .write 0x804 (BitVec.ofNat 64 len)]

/-- R111: a command mnemonic, `WR CMD, code` then `WAIT`. -/
def command (code : Byte) : List HostOp := [.write 0x800 (code.setWidth 64), .wait]

/-- R111: `LOAD i, b0 b1 … bk`. -/
def load (i : Nat) (bs : List Byte) : List HostOp :=
  bs.mapIdx fun j b => .write (BitVec.ofNat 12 (i + j)) (b.setWidth 64)

/-- R111: `LOADS i, text`, the ASCII codes of the characters. -/
def loads (i : Nat) (text : String) : List HostOp := load i (text.toList.map fun c => BitVec.ofNat 8 c.toNat)

/-- R111: `READ i, n`, the bytes `OBUF[i : i+n]`. -/
def readOut (i n : Nat) : List HostOp := (List.range n).map fun j => .read (BitVec.ofNat 12 (obufAt (i + j)))

/-- R242: the handshake of a token of at most 1024 bytes. -/
def handshake (token : List Byte) : List HostOp :=
  load 0 token ++ win 0 token.length ++ command 0x01 ++ [.read 0x801] ++ readOut 0 28

/-- R242: the KUPDATEs of a longer token, piece by piece. -/
def updates (pieces : List (List Byte)) : List HostOp :=
  pieces.flatMap fun p => load 0 p ++ win 0 p.length ++ command 0x03

/-- R242: the handshake of a token handed over in pieces of at most 1024 bytes. -/
def handshakePieces (pieces : List (List Byte)) : List HostOp :=
  command 0x02 ++ updates pieces ++ command 0x04 ++ readOut 0 28

/-- R243: a streaming iteration over the bytes of one successful read, down to `RD STATUS`; what comes after it is decided by
the values read (`goOn`). -/
def streamIteration (bytes : List Byte) : List HostOp :=
  load 0 bytes ++ win 0 bytes.length ++ command 0x05 ++ [.readFor (.status bytes.length)]

/-- R240, R243: the iterations of successive reads; a closed connection makes no further one. -/
def streaming (reads : List (List Byte)) : List HostOp := reads.flatMap streamIteration

/-- R243: UNMASK of the payload, and the read of the message content. -/
def unmaskPayload (hs pl : Nat) : List HostOp :=
  win hs pl ++ command 0x06 ++ (List.range pl).map fun i => .readFor (.content i)

/-- R245: the host's check, without wrap-around: the frame is wholly in the `n` bytes read. -/
def frameFits (hs pl n : Nat) : Bool := hs + pl ≤ n

/-- R240, R243, R245: the host goes to `CLOSED` and makes no further transaction. -/
def close (e : HostError) (s : State) : State := { s with host := [], conn := { s.conn with closed := some e } }

/-- R243, R245: how a streaming iteration goes on with the value `v` it has read. -/
def goOn (use : HostUse) (v : PortWord) (s : State) : State :=
  match use with
  | .status n => if v.getLsbD 1 then close .decodeError s else { s with host := .readFor (.hsize n) :: s.host }
  | .hsize n => { s with host := .readFor (.plen n v.toNat) :: s.host }
  | .plen n hs =>
    if frameFits hs v.toNat n then
      { s with host := unmaskPayload hs v.toNat ++ s.host, conn := s.conn.beginMessage }
    else close .frameExceedsBuffer s
  | .content _ => { s with conn := s.conn.addByte (v.setWidth 8) }

/-- R105, R246: where the next frame of the buffer starts. -/
def nextFrame (off hs pl : Nat) : Nat := off + hs + pl

end HostProgram

end Sys2Proof.Machine
end

