-- ==== Sys2Proof/Machine/HostPort.lean ====
section
/-! DEFINITION. The host port: `HostRead`, `HostWrite` and the reset input (spec 00_scope.md R12; 10_state.md R42;
20_memory.md R68, R70, R71; 40_command_common.md R130, R131; 70_reset_and_hazards.md R300, R301). -/

namespace Sys2Proof.Machine

/-- R42, R68, R70: what a read returns while no command runs: the object's value zero-extended; 0 where there is nothing to
read. -/
def readIdle (a : Location) (s : State) : PortWord :=
  let n := a.toNat
  if n < 0x800 then (s.mem.read n).setWidth 64
  else if n = 0x801 then s.status.word.setWidth 64
  else if n = 0x802 then s.err.word.setWidth 64
  else if n = 0x803 then s.off.setWidth 64
  else if n = 0x804 then s.len.setWidth 64
  else if n = 0x805 then s.mkey.setWidth 64
  else if n = 0x806 then s.hflags.setWidth 64
  else if n = 0x807 then s.plen
  else if n = 0x808 then s.hsize.setWidth 64
  else if n = 0x809 then s.olen.setWidth 64
  else if n = 0x80A then s.key.h.h0.setWidth 64
  else if n = 0x80B then s.key.h.h1.setWidth 64
  else if n = 0x80C then s.key.h.h2.setWidth 64
  else if n = 0x80D then s.key.h.h3.setWidth 64
  else if n = 0x80E then s.key.h.h4.setWidth 64
  else if n = 0x80F then s.key.mlen
  else 0

/-- R131: while a command runs only `STATUS` is read; any other location gives a free value. -/
def hostRead (a : Location) (s : State) : PortWord :=
  if s.status.busy then
    if a = 0x801 then s.status.word.setWidth 64 else Config.busyRead s.draws
  else readIdle a s

/-- The free values a read uses: one for a read of another location than `STATUS` while a command runs. -/
def readDraws (a : Location) (s : State) : Nat := if s.status.busy && a != 0x801 then 1 else 0

/-- R6, R138: the latency of the command that starts now: the next of the schedule, a free value where there is none. -/
def drawLatency (s : State) : State :=
  match s.latencies with
  | k :: ks => { s with remaining := k, latencies := ks }
  | [] => { s with remaining := Config.cmdLatency s.draws, draws := s.draws + 1 }

/-- R130: the start of a command: `CMDL <- v[7:0]`, `STATUS.BUSY <- 1`, and nothing else. -/
def startCommand (code : Byte) (s : State) : State :=
  drawLatency { s with cmdl := code, format := .cmd8, status := { s.status with busy := true } }

/-- R42, R70: a write while no command runs. A value wider than the object loses its high bits; a write where nothing can
be written changes nothing. -/
def writeIdle (a : Location) (v : PortWord) (s : State) : State :=
  let n := a.toNat
  if n < 0x400 then { s with mem := s.mem.write n (v.setWidth 8) }
  else if n = 0x800 then startCommand (v.setWidth 8) s
  else if n = 0x803 then { s with off := v.setWidth 16 }
  else if n = 0x804 then { s with len := v.setWidth 16 }
  else if n = 0x805 then { s with mkey := v.setWidth 32 }
  else s

/-- R131: while a command runs every write is ignored. -/
def hostWrite (a : Location) (v : PortWord) (s : State) : State := if s.status.busy then s else writeIdle a v s

/-- R12: `HostRead(a)`. -/
def readInto (a : Location) (s : State) : State :=
  { s with rdata := hostRead a s, draws := s.draws + readDraws a s }

/-- R12: one transaction of the host. `WAIT` stays at the head of the host's queue while the `STATUS` it reads has `BUSY`
set (R111). A host that decides by what it reads goes on by that value (R243). The queue handed in is the one after this
transaction. -/
def performOp (op : HostOp) (s : State) : State :=
  match op with
  | .write a v => hostWrite a v s
  | .read a => readInto a s
  | .wait => { s with rdata := s.status.word.setWidth 64, host := if s.status.busy then .wait :: s.host else s.host }
  | .readFor use => HostProgram.goOn use (hostRead use.location s) (readInto use.location s)
  | .reset => applyReset s

/-- R12, R14, R302: the host's next transaction; where it makes none, nothing happens. -/
def hostStep (s : State) : State :=
  match s.host with
  | [] => s
  | op :: rest => performOp op { s with host := rest }

end Sys2Proof.Machine
end

