-- ==== Sys2Proof/Machine/Fetch.lean ====
section
/-! DEFINITION. What the running command is (spec 40_command_common.md R132; log entry 8), and how a table word is placed
where the next step reads it. -/

namespace Sys2Proof.Machine

/-- R202: the frame opcode of byte 0 of the window. Where there is no such byte, DECODE itself reports it. -/
def opcodeAtWindow (s : State) : Instr :=
  if inRange s then
    match window s with
    | b :: _ => decodeOpcode (Lead.ofByte b).opcode
    | [] => .decode
  else .decode

/-- R103: the header layout at the start of the window. A window that leaves `BUF` or does not hold the whole header has
none: that is what DECODE itself reports. -/
def headerAtWindow (s : State) : Instr :=
  if inRange s then
    match decode .frameHdr16 (window s) with
    | .ok (i, _) => i
    | .error _ => .decode
  else .decode

/-- R132: the instruction the running command is. A write to `CMD` always sets the format `cmd8`, so that it is the command
of the latched code; the two frame formats are read at the window DECODE reads. -/
def fetch (s : State) : Instr :=
  match s.format with
  | .cmd8 => decodeCommand s.cmdl
  | .frameHdr16 => headerAtWindow s
  | .frameOpcode4 => opcodeAtWindow s

/-- A command latched and due at the next step. -/
def latch (f : Format) (code : Byte) (s : State) : State :=
  { s with format := f, cmdl := code, remaining := 0, status := { s.status with busy := true } }

/-- The window `BUF[0 : len(bs)]` holding `bs`. -/
def loadWindow (bs : List Byte) (s : State) : State :=
  { s with mem := Memory.writeBytes s.mem (bufAt 0) bs, off := 0, len := BitVec.ofNat 16 bs.length }

/-- A table word placed where the next step reads it: a command code in `CMDL`, with `BUSY` set as the write to `CMD` sets
it; a header or an opcode at the start of the window, with DECODE's code in `CMDL`. -/
def placeWord (f : Format) (w : Nat) (s : State) : State :=
  match f with
  | .cmd8 => latch .cmd8 (BitVec.ofNat 8 w) s
  | .frameHdr16 => latch .frameHdr16 0x05 (loadWindow (headerBytesOfWord w) s)
  | .frameOpcode4 => latch .frameOpcode4 0x05 (loadWindow [BitVec.ofNat 8 w] s)

end Sys2Proof.Machine
end

