-- ==== Sys2Proof/Machine/Step.lean ====
section
/-! DEFINITION. One step of WSB and its host (spec 00_scope.md R14; 40_command_common.md R130 to R138). While no command
runs the host takes the step. While one runs, the host takes as many steps as the command's latency, and then the command
completes, in one indivisible change (R136, R137). -/

namespace Sys2Proof.Machine

/-- One step. -/
def step (s : State) : Host.Outcome State Fault Refusal :=
  if s.status.busy then
    match s.remaining with
    | 0 => exec (fetch s) s
    | k + 1 => .next (hostStep { s with remaining := k })
  else .next (hostStep s)

/-- `s` with a table word of `nbits` bits stored where the next step reads its instruction. -/
def State.withFetchWord (s : State) (nbits w : Nat) : State :=
  match formatOfWidth nbits with
  | some f => placeWord f w s
  | none => s

end Sys2Proof.Machine
end

