-- ==== Sys2Proof/Safety.lean ====
section
/-! DEFINITION. What counts as a safe run, and the terms the statements use: the invariants of the registers and of the key
context (spec 10_state.md R26 to R36), the host's duty while a command runs (70_reset_and_hazards.md R311), and what two
states have in common. -/

namespace Sys2Proof.Machine

/-- A run of `n` steps that neither faults nor is refused. -/
def SafeFor (n : Nat) (s : State) : Prop := ∃ t, Host.Core.run core n s = .next t

/-- R311: while a command runs the host's next transaction is a read of `STATUS`. -/
def ObeysBusyRule (s : State) : Prop :=
  s.status.busy = true → ∀ op ∈ s.host.head?, op = .read 0x801 ∨ op = .wait ∨ ∃ n, op = .readFor (.status n)

/-- R36: the key context has absorbed the message `m`: `MLEN` is its length, `H` its complete blocks compressed, and the
first `MLEN mod 64` bytes of `BLK` the bytes after them. -/
def KeyCtx.Holds (k : KeyCtx) (m : List Byte) : Prop :=
  k.mlen.toNat = m.length ∧ k.h = compressAll sha1IV m ∧
    k.blk.toList.take (m.length % 64) = m.drop (64 * (m.length / 64))

/-- R36, R158: an open key context has absorbed some message, of at most `KEY_MAX` bytes. -/
def State.KeyInv (s : State) : Prop :=
  s.status.kopen = true → ∃ m : List Byte, m.length ≤ Config.keyMax ∧ s.key.Holds m

/-- R32, R261: `ERR.NEED` is the least window length the failed check asks for, 0 for every other code. -/
def ErrReg.needFits (e : ErrReg) : Prop :=
  (e.code = 1 → e.need = 2) ∧ (e.code = 2 → e.need = 4 ∨ e.need = 10) ∧
    (e.code = 3 → e.need = 6 ∨ e.need = 8 ∨ e.need = 14) ∧
    (e.code ≠ 1 → e.code ≠ 2 → e.code ≠ 3 → e.need = 0)

/-- R27, R98, R205: the shape of a valid header: `HSIZE` is 2, 4 or 10, and 4 more where `MASK` is set, and `PLEN` fits the
length field of that size. -/
def State.headerShape (s : State) : Prop :=
  let base := s.hsize.toNat - (if hflagsMask s.hflags then 4 else 0)
  (hflagsMask s.hflags = true → 6 ≤ s.hsize.toNat) ∧
    ((base = 2 ∧ s.plen.toNat ≤ 125) ∨ (base = 4 ∧ s.plen.toNat < 65536) ∨ base = 10)

/-- The register invariant of every state a host can bring about from reset. -/
structure State.Inv (s : State) : Prop where
  /-- R64, R70: the buffers are in canonical form. -/
  mem : s.mem.wf
  /-- R112: commands are read as command codes. -/
  format : s.format = .cmd8
  /-- R32: "`ERR.CODE != 0` exactly when `STATUS.ERR = 1`". -/
  errBit : s.status.err = true ↔ s.err.code ≠ 0
  /-- R261: codes 8 to 15 are never produced. -/
  errCode : s.err.code.toNat ≤ 7
  /-- R32: `NEED` by `CODE`. -/
  errNeed : s.err.needFits
  /-- R28: `OLEN` is from 0 to 1024. -/
  olen : s.olen.toNat ≤ Config.obufBytes
  /-- R158, R172: an open context holds at most `KEY_MAX` bytes. -/
  keyMax : s.status.kopen = true → s.key.mlen.toNat ≤ Config.keyMax
  /-- R34: `MLEN` never exceeds `2^61 - 1`. -/
  mlen : s.key.mlen.toNat ≤ 2 ^ 61 - 1
  /-- R29, R31: while `HV = 0` no header is held. -/
  noHeader : s.status.hv = false → s.hflags = 0 ∧ s.plen = 0 ∧ s.hsize = 0
  /-- R27, R205: while `HV = 1` the registers have the shape of a header. -/
  header : s.status.hv = true → s.headerShape

/-- Every byte of both buffers reads as before. -/
def SameBytes (s t : State) : Prop := ∀ a, t.mem.read a = s.mem.read a

/-- The header registers `HFLAGS`, `PLEN`, `MKEY`, `HSIZE` and `STATUS.HV` are as before. -/
def SameHeader (s t : State) : Prop :=
  t.hflags = s.hflags ∧ t.plen = s.plen ∧ t.mkey = s.mkey ∧ t.hsize = s.hsize ∧ t.status.hv = s.status.hv

/-- The key context, `H`, `MLEN`, `BLK` and `STATUS.KOPEN`, is as before. -/
def SameKey (s t : State) : Prop := t.key = s.key ∧ t.status.kopen = s.status.kopen

/-- What no instruction writes is as before: `OFF`, `LEN` (R22, R23), the latched command, and all that belongs to the host
and its schedule. -/
def SameHost (s t : State) : Prop :=
  t.off = s.off ∧ t.len = s.len ∧ t.cmdl = s.cmdl ∧ t.format = s.format ∧ t.remaining = s.remaining ∧
    t.latencies = s.latencies ∧ t.host = s.host ∧ t.rdata = s.rdata ∧ t.conn = s.conn

/-- R137: the command of this code completed without error. -/
def Succeeded (code : Byte) (t : State) : Prop :=
  t.status.busy = false ∧ t.status.err = false ∧ t.err = { code := 0, need := 0, cmd := code }

/-- R137, R142: the state after a command of this code failed a check before its unit ran. -/
def failedWith (e : CmdError) (code : Byte) (s : State) : State :=
  { s with status := { s.status with busy := false, err := true }, err := { code := e.code, need := 0, cmd := code } }

/-- R243: no command runs, and the host is about to run a streaming iteration over the bytes of one read, 1 to 1024 of them,
and then `rest`. -/
def StreamsFrom (s : State) (bytes : List Byte) (rest : List HostOp) : Prop :=
  s.status.busy = false ∧ s.host = HostProgram.streamIteration bytes ++ rest ∧ 1 ≤ bytes.length ∧ bytes.length ≤ 1024

/-- R243, R245: the host has gone to `CLOSED` without an UNMASK: it makes no further transaction, it has delivered nothing,
the window is still the `n` bytes read, and `OBUF`, `OLEN` and the key context are as before the iteration. -/
def ClosedWithout (e : HostError) (n : Nat) (s t : State) : Prop :=
  t.status.busy = false ∧ t.host = [] ∧ t.conn = { s.conn with closed := some e } ∧ t.off = 0 ∧ t.len.toNat = n ∧
    (∀ i, i < 1024 → readObuf t i = readObuf s i) ∧ t.olen = s.olen ∧ SameKey s t

/-- R98, R104: how many bytes the extended length takes. -/
def extBytes (L : BitVec 7) : Nat := if L.toNat ≤ 125 then 0 else if L.toNat = 126 then 2 else 8

/-- R104, R205: `headerSize = 2 + ext(L) + 4 * mask`. -/
def headerBytes (b1 : Byte) : Nat := 2 + extBytes (lengthOf b1) + (if maskOf b1 then 4 else 0)

/-- R174: a state in which a key context has taken the pieces, one KINIT and one successful KUPDATE for each piece, with any
transactions between the commands that leave the key context alone. -/
inductive Streamed : List (List Byte) → State → Prop where
  | opened (s t : State) (h : exec .kinit s = .next t) : Streamed [] t
  | fed (ps : List (List Byte)) (s u t : State) (hs : Streamed ps s) (hk : SameKey s u)
      (h : exec .kupdate u = .next t) (hok : t.status.err = false) : Streamed (ps ++ [window u]) t

end Sys2Proof.Machine
end

