-- ==== Sys2Proof/Certificates/Slice0/Obligations.lean ====
section
/-! DEFINITION. The statements for the provers, in the order of OBLIGATIONS.json. Each docstring names the rule of spec/ it
formalises. -/

open Sys2Proof Sys2Proof.Machine

/-! ### Reset and the host port -/

/-- R45, for any contents of the buffers and of `BLK`: every register is 0, and so is every location of the register group
as the host reads it. (`State.reset` is this state with nothing listed in the buffers: log entries 1 and 2.) -/
def Obligations.ResetRegistersAreZero : Prop :=
  ∀ (mem : Memory) (blk : Vector Byte 64),
    let s := State.resetWith mem blk
    s.status.word = 0 ∧ s.err.word = 0 ∧ s.off = 0 ∧ s.len = 0 ∧ s.mkey = 0 ∧ s.hflags = 0 ∧ s.plen = 0 ∧ s.hsize = 0 ∧
      s.olen = 0 ∧ s.key.h = ⟨0, 0, 0, 0, 0⟩ ∧ s.key.mlen = 0 ∧ s.mem = mem ∧ s.key.blk = blk ∧
      (∀ a : Location, 0x800 ≤ a.toNat → hostRead a s = 0) ∧ ∃ m b, State.reset = State.resetWith m b

/-- R300, R301: the reset input, while no command runs and while one runs, gives the reset state, with some contents of the
buffers (in canonical form) and of `BLK`. (The model's choice: that those contents are free values, and `CMDL` what
`State.resetWith` names: log entries 2 and 3; that what is the host's, its latencies, `rdata`, its queue and its connection,
stays and `draws` advances: log entry 12; that the step in which a command completes is the command's, not the host's: log
entry 14.) -/
def Obligations.ResetInputGivesResetState : Prop :=
  ∀ (s : State) (rest : List HostOp), s.host = .reset :: rest → (s.status.busy = true → s.remaining ≠ 0) →
    ∃ (mem : Memory) (blk : Vector Byte 64), mem.wf ∧
      step s = .next { State.resetWith mem blk with
        host := rest, rdata := s.rdata, conn := s.conn, latencies := s.latencies, draws := s.draws + 1 }

/-- R14, R292: WSB "never starts anything by itself" and with no command running "holds its state": with no command running and
nothing from the host, nothing happens. R302 says so of the time after reset, until the host writes `CMD`. -/
def Obligations.NothingHappensByItself : Prop :=
  ∀ s : State, s.status.busy = false → s.host = [] → step s = .next s

/-- R306: the six commands run first after reset, on the empty window reset leaves, whatever the buffers and `BLK` hold. -/
def Obligations.FirstCommandsAfterReset : Prop :=
  ∀ (mem : Memory) (blk : Vector Byte 64),
    let s := State.resetWith mem blk
    (∃ t, exec .decode s = .next t ∧ t.status.err = true ∧ t.err = ⟨1, 2, 0x05⟩) ∧
    (∃ t, exec .unmask s = .next t ∧ Succeeded 0x06 t ∧ t.olen = 0) ∧
    (∃ t, exec .accept s = .next t ∧ Succeeded 0x01 t ∧ ∀ i, i < 28 → readObuf t i = (acceptKey []).getD i 0) ∧
    (∃ t, exec .kinit s = .next t ∧ Succeeded 0x02 t) ∧
    (∃ t, exec .kupdate s = .next t ∧ t.status.err = true ∧ t.err = ⟨6, 0, 0x03⟩) ∧
    ∃ t, exec .kfinal s = .next t ∧ t.status.err = true ∧ t.err = ⟨6, 0, 0x04⟩

/-- R70: what the host reads at each location while no command runs. -/
def Obligations.ReadsFollowTheAddressMap : Prop :=
  ∀ s : State, s.status.busy = false →
    (∀ i, i < 1024 → hostRead (BitVec.ofNat 12 i) s = (readBuf s i).setWidth 64 ∧
      hostRead (BitVec.ofNat 12 (0x400 + i)) s = (readObuf s i).setWidth 64) ∧
    hostRead 0x800 s = 0 ∧
    (hostRead 0x801 s).toNat =
      s.status.kopen.toNat * 8 + s.status.hv.toNat * 4 + s.status.err.toNat * 2 + s.status.busy.toNat ∧
    (hostRead 0x802 s).toNat = s.err.cmd.toNat * 65536 + s.err.need.toNat * 256 + s.err.code.toNat ∧
    hostRead 0x803 s = s.off.setWidth 64 ∧ hostRead 0x804 s = s.len.setWidth 64 ∧
    hostRead 0x805 s = s.mkey.setWidth 64 ∧ hostRead 0x806 s = s.hflags.setWidth 64 ∧ hostRead 0x807 s = s.plen ∧
    hostRead 0x808 s = s.hsize.setWidth 64 ∧ hostRead 0x809 s = s.olen.setWidth 64 ∧
    hostRead 0x80A s = s.key.h.h0.setWidth 64 ∧ hostRead 0x80B s = s.key.h.h1.setWidth 64 ∧
    hostRead 0x80C s = s.key.h.h2.setWidth 64 ∧ hostRead 0x80D s = s.key.h.h3.setWidth 64 ∧
    hostRead 0x80E s = s.key.h.h4.setWidth 64 ∧ hostRead 0x80F s = s.key.mlen ∧
    ∀ a : Location, 0x810 ≤ a.toNat → hostRead a s = 0

/-- R42: a write to `BUF`, `OFF`, `LEN` or `MKEY` keeps the low bits the object has, is read back zero-extended and changes
nothing else; writes to read-only and empty locations change no state; reads of `CMD` and of empty locations return 0. Of a
write to `CMD` this says only that `CMDL` takes `v[7:0]`; the rest is WriteToCmdStartsACommand. -/
def Obligations.WritesKeepTheLowBits : Prop :=
  ∀ (s : State) (v : PortWord), s.status.busy = false →
    (∀ a : Location, a.toNat < 0x400 →
      hostRead a (hostWrite a v s) = (v.setWidth 8).setWidth 64 ∧
      (∀ b, b ≠ a.toNat → (hostWrite a v s).mem.read b = s.mem.read b) ∧
      hostWrite a v s = { s with mem := (hostWrite a v s).mem }) ∧
    hostWrite 0x803 v s = { s with off := v.setWidth 16 } ∧
    hostWrite 0x804 v s = { s with len := v.setWidth 16 } ∧
    hostWrite 0x805 v s = { s with mkey := v.setWidth 32 } ∧
    (hostWrite 0x800 v s).cmdl = v.setWidth 8 ∧
    hostRead 0x803 (hostWrite 0x803 v s) = (v.setWidth 16).setWidth 64 ∧
    hostRead 0x804 (hostWrite 0x804 v s) = (v.setWidth 16).setWidth 64 ∧
    hostRead 0x805 (hostWrite 0x805 v s) = (v.setWidth 32).setWidth 64 ∧
    (∀ a : Location, 0x400 ≤ a.toNat → a ≠ 0x800 → a ≠ 0x803 → a ≠ 0x804 → a ≠ 0x805 → hostWrite a v s = s) ∧
    ∀ a : Location, a = 0x800 ∨ 0x810 ≤ a.toNat → hostRead a s = 0

/-- R130: a write to `CMD` while `BUSY = 0` latches the code and sets `BUSY`, and changes nothing else of WSB. -/
def Obligations.WriteToCmdStartsACommand : Prop :=
  ∀ (s : State) (v : PortWord), s.status.busy = false →
    let t := hostWrite 0x800 v s
    t.cmdl = v.setWidth 8 ∧ t.status = { s.status with busy := true } ∧ t.mem = s.mem ∧ t.err = s.err ∧ t.off = s.off ∧
      t.len = s.len ∧ t.mkey = s.mkey ∧ t.hflags = s.hflags ∧ t.plen = s.plen ∧ t.hsize = s.hsize ∧ t.olen = s.olen ∧
      t.key = s.key ∧ t.host = s.host ∧ t.rdata = s.rdata ∧ t.conn = s.conn ∧ fetch t = decodeCommand (v.setWidth 8)

/-- R131: while a command runs every write is ignored, a read of `STATUS` shows `BUSY` set beside the three other bits as
they are, and as they were before the command started; any other read changes nothing of WSB, and no second command
starts. (The model's choice: that a read may draw a free value and leaves it in `rdata`, log entry 5; that the latency is
counted in steps of the host, so that each transaction leaves one fewer, log entry 6.) -/
def Obligations.BusyPort : Prop :=
  (∀ (u : State) (v : PortWord), u.status.busy = false →
    (hostRead 0x801 (hostWrite 0x800 v u)).toNat =
      u.status.kopen.toNat * 8 + u.status.hv.toNat * 4 + u.status.err.toNat * 2 + 1) ∧
  ∀ s : State, s.status.busy = true →
    (∀ a v, hostWrite a v s = s) ∧
    (hostRead 0x801 s).toNat = s.status.kopen.toNat * 8 + s.status.hv.toNat * 4 + s.status.err.toNat * 2 + 1 ∧
    (∀ a, ∃ v n, performOp (.read a) s = { s with rdata := v, draws := n }) ∧
    ∀ k op rest, s.remaining = k + 1 → s.host = op :: rest → op ≠ .reset →
      ∃ t, step s = .next t ∧ t.status = s.status ∧ t.cmdl = s.cmdl ∧ t.mem = s.mem ∧ t.remaining = k

/-- R68: a read has no side effect: nothing of the state changes but the value the host holds and its queue. -/
def Obligations.ReadsHaveNoSideEffect : Prop :=
  ∀ (s : State) (a : Location) (rest : List HostOp), s.status.busy = false → s.host = .read a :: rest →
    step s = .next { s with host := rest, rdata := hostRead a s }

/-! ### Steps -/

/-- R132, R136, R137: a step, while a command runs whose time has come, is `exec` of the instruction decoded from the latched
code; otherwise it is the host's transaction. (The model's choice: the two other formats, read from the window, log entry 8;
that the command's time is counted in steps of the host, `remaining` of them, log entry 6; that the host is a list of
transactions in the state, log entry 7.) -/
def Obligations.StepRunsTheDecodedInstruction : Prop :=
  ∀ s : State,
    (∀ i r, s.status.busy = true → s.remaining = 0 → s.format = .cmd8 → decode .cmd8 [s.cmdl] = .ok (i, r) →
      step s = exec i s) ∧
    (∀ i r, s.status.busy = true → s.remaining = 0 → s.format = .frameHdr16 → inRange s = true →
      decode .frameHdr16 (window s) = .ok (i, r) → step s = exec i s) ∧
    (∀ b r, s.status.busy = true → s.remaining = 0 → s.format = .frameOpcode4 → inRange s = true →
      window s = b :: r → step s = exec (decodeOpcode (b.extractLsb' 0 4)) s) ∧
    (∀ k, s.status.busy = true → s.remaining = k + 1 → step s = .next (hostStep { s with remaining := k })) ∧
    (s.status.busy = false → step s = .next (hostStep s))

/-- The word placed where the next step reads is the instruction it runs: `withFetchWord` and `decodeTableWord` agree. (All of it
is the model's choice: that `withFetchWord` stands for the load of a program, log entry 7; that a header layout or a frame
opcode has a step of its own, log entry 8; that the width of a word picks its format, log entry 9.) -/
def Obligations.PlacedWordIsRun : Prop :=
  ∀ (s : State) (nbits w : Nat) (i : Instr), w < 2 ^ nbits → decodeTableWord nbits w = some i →
    step (s.withFetchWord nbits w) = exec i (s.withFetchWord nbits w)

/-- R138: no step stops, so that every run goes on. -/
def Obligations.EveryRunGoesOn : Prop := ∀ (n : Nat) (s : State), SafeFor n s

/-- R138: every command completes: within one step more than its latency, counted in steps of the host (log entry 6),
`BUSY` is clear. -/
def Obligations.EveryCommandCompletes : Prop :=
  ∀ s : State, s.status.busy = true →
    ∃ n t, n ≤ s.remaining + 1 ∧ Host.Core.run core n s = .next t ∧ t.status.busy = false

/-- R136: a command whose host waits for it is one atomic step, whatever its latency (of the schedule, or free): the host's
`WR CMD, v` and `WAIT` end in the state that `exec` of the decoded command gives, with the final `STATUS` read. (That the latency is
counted in steps of the host is the model's choice: log entry 6.) -/
def Obligations.LatencyIsInvisible : Prop :=
  ∀ (s : State) (v : PortWord) (rest : List HostOp), s.status.busy = false → s.host = .write 0x800 v :: .wait :: rest →
    let b := hostWrite 0x800 v s
    ∃ u, exec (decodeCommand (v.setWidth 8)) { b with host := rest, remaining := 0 } = .next u ∧
      Host.Core.run core (b.remaining + 3) s = .next { u with rdata := u.status.word.setWidth 64 }

/-! ### Encoding -/

/-- R91, R100, R103: decoding an encoded well-formed instruction gives it back, whatever bytes follow. -/
def Obligations.DecodeOfEncode : Prop :=
  ∀ (i : Instr) (rest : List Byte), i.wf = true → decode i.format (encode i ++ rest) = .ok (i, rest)

/-- The other direction: what is decoded is well-formed, of the format asked for, and encodes to the bytes consumed. -/
def Obligations.EncodeOfDecode : Prop :=
  ∀ (f : Format) (bs rest : List Byte) (i : Instr), decode f bs = .ok (i, rest) →
    i.wf = true ∧ i.format = f ∧ encode i ++ rest = bs

/-- R91, R92: the six codes and no other select a command; the code 0x00 and every code from 0x07 are illegal. -/
def Obligations.IllegalCodes : Prop :=
  ∀ c : Byte, (decodeCommand c = .illegal c ↔ c = 0x00 ∨ 7 ≤ c.toNat) ∧ (decodeCommand c).code = c

/-- R104: the header length is known from byte 1, the decoder consumes exactly that many bytes, and it refuses exactly the
windows that are shorter. -/
def Obligations.HeaderLengthFromByteOne : Prop :=
  ∀ (b0 b1 : Byte) (s : List Byte),
    (headerBytes b1 ≤ (b0 :: b1 :: s).length →
      ∃ i, decode .frameHdr16 (b0 :: b1 :: s) = .ok (i, (b0 :: b1 :: s).drop (headerBytes b1))) ∧
    ((b0 :: b1 :: s).length < headerBytes b1 → ∃ e, decode .frameHdr16 (b0 :: b1 :: s) = .error e)

/-- R91, R96 to R103: words written out from the tables of 30_encoding.md decode to the instruction they stand for. (The model's
reading: that the width of a word picks its format, that a header's bytes come two to a 16-bit word, and that bytes the word
does not give are 0: log entry 9.) -/
def Obligations.TableWordsDecode : Prop :=
  decodeTableWord 8 0x01 = some .accept ∧ decodeTableWord 8 0x06 = some .unmask ∧
    decodeTableWord 8 0x07 = some (.illegal 0x07) ∧
    decodeTableWord 16 0x817E = some (.hdr16 ⟨true, false, false, false, 1⟩ 0) ∧
    decodeTableWord 16 0x7FFD = some (.hdr7m ⟨false, true, true, true, 0xF⟩ 125 0) ∧
    decodeTableWord 32 0x007E817E = some (.hdr16 ⟨true, false, false, false, 1⟩ 126) ∧
    decodeTableWord 4 0x9 = some .frPing ∧ decodeTableWord 4 0x7 = some (.frRsvdData 7)

/-! ### Rules common to all commands -/

/-- R265: a code that is no command fails with `IllegalCommand`, and nothing changes but `STATUS.ERR` and `ERR`. -/
def Obligations.IllegalCommandFails : Prop :=
  ∀ (c : Byte) (s : State), (c = 0x00 ∨ 7 ≤ c.toNat) →
    exec (decodeCommand c) s = .next (failedWith .illegalCommand c s) ∧
      exec (.illegal c) s = .next (failedWith .illegalCommand c s)

/-- R134, R266: a window that leaves the buffer, the sum taken without wrap-around, fails with `RangeError`, and nothing
changes but `STATUS.ERR` and `ERR`. -/
def Obligations.RangeErrorFails : Prop :=
  ∀ (i : Instr) (s : State), i = .accept ∨ i = .kupdate ∨ i = .decode ∨ i = .unmask →
    (1024 < s.off.toNat + s.len.toNat → exec i s = .next (failedWith .rangeError i.code s)) ∧
    ∀ t, exec i s = .next t → s.off.toNat + s.len.toNat ≤ 1024 → t.err.code ≠ CmdError.rangeError.code

/-- R142: a command that fails with `IllegalCommand`, `RangeError`, `SequenceError` or `LengthOverflow` changes no state
other than `STATUS.ERR`, `ERR` and `BUSY`. -/
def Obligations.FailedCheckChangesNothing : Prop :=
  ∀ (i : Instr) (s t : State) (e : CmdError), exec i s = .next t → t.status.err = true → t.err.code = e.code →
    (e = .illegalCommand ∨ e = .rangeError ∨ e = .sequenceError ∨ e = .lengthOverflow) → t = failedWith e i.code s

/-- R135, R275: the checks of each command in their fixed order, and the one error reported. -/
def Obligations.OrderOfTheChecks : Prop :=
  ∀ s : State,
    let n := s.len.toNat
    let b1 := readBuf s (s.off.toNat + 1)
    let out : Prop := 1024 < s.off.toNat + n
    (∀ t, exec .accept s = .next t → (out → t.err.code = 5) ∧ (¬out → t.err.code = 0)) ∧
    (∀ t, exec .kinit s = .next t → t.err.code = 0) ∧
    (∀ t, exec .kupdate s = .next t →
      (out → t.err.code = 5) ∧
      (¬out → s.status.kopen = false → t.err.code = 6) ∧
      (¬out → s.status.kopen = true → 2 ^ 61 - 37 < s.key.mlen.toNat + n → t.err.code = 7) ∧
      (¬out → s.status.kopen = true → s.key.mlen.toNat + n ≤ 2 ^ 61 - 37 → t.err.code = 0)) ∧
    (∀ t, exec .kfinal s = .next t →
      (s.status.kopen = false → t.err.code = 6) ∧ (s.status.kopen = true → t.err.code = 0)) ∧
    (∀ t, exec .decode s = .next t →
      (out → t.err.code = 5) ∧
      (¬out → n < 2 → t.err.code = 1) ∧
      (¬out → 2 ≤ n → n < 2 + extBytes (lengthOf b1) → t.err.code = 2) ∧
      (¬out → 2 ≤ n → 2 + extBytes (lengthOf b1) ≤ n → n < headerBytes b1 → t.err.code = 3) ∧
      (¬out → 2 ≤ n → headerBytes b1 ≤ n → t.err.code = 0)) ∧
    (∀ t, exec .unmask s = .next t → (out → t.err.code = 5) ∧ (¬out → t.err.code = 0)) ∧
    ∀ c t, exec (.illegal c) s = .next t → t.err.code = 4

/-- R32, R137: at the completion of every command `BUSY` is clear, `ERR.CMD` is its code, `ERR.CODE` is 0 exactly when
`STATUS.ERR` is 0, and `NEED` fits the code. (That the header layouts and the frame opcodes complete by themselves, with
DECODE's code 0x05, is the model's choice: log entry 8.) -/
def Obligations.CompletionWritesErr : Prop :=
  ∀ (i : Instr) (s t : State), exec i s = .next t →
    t.status.busy = false ∧ t.err.cmd = i.code ∧ (t.status.err = true ↔ t.err.code ≠ 0) ∧ t.err.code.toNat ≤ 7 ∧
      t.err.needFits

/-- R22, R23, R61: no instruction writes `BUF`, `OFF` or `LEN`, or anything that is the host's. -/
def Obligations.NoInstructionWritesTheOperands : Prop :=
  ∀ (i : Instr) (s t : State), exec i s = .next t →
    (∀ j, j < 1024 → readBuf t j = readBuf s j) ∧ SameHost s t

/-- R28, R62: ACCEPT and KFINAL that succeed write `OBUF[0:28]` and `OLEN`, an UNMASK that succeeds `OBUF[0:LEN]` and `OLEN`;
nothing else writes `OBUF` or `OLEN`, and every byte at index `OLEN` and above keeps what it held. -/
def Obligations.WritersOfObuf : Prop :=
  ∀ (i : Instr) (s t : State), exec i s = .next t →
    ((i = .accept ∨ i = .kfinal ∨ i = .unmask) ∧ t.status.err = false →
      t.olen.toNat = (if i = .unmask then s.len.toNat else 28) ∧
        ∀ a, a < 0x400 ∨ 0x400 + t.olen.toNat ≤ a → t.mem.read a = s.mem.read a) ∧
    (¬((i = .accept ∨ i = .kfinal ∨ i = .unmask) ∧ t.status.err = false) → t.olen = s.olen ∧ SameBytes s t)

/-- R31, R139: who changes `STATUS.HV` and `STATUS.KOPEN`. A command that fails its pre-checks changes neither, and only
DECODE (with the header layouts it reads) changes `HV`. -/
def Obligations.ConditionFlags : Prop :=
  ∀ (i : Instr) (s t : State), exec i s = .next t →
    (i.format ≠ .frameHdr16 → i ≠ .decode → t.status.hv = s.status.hv) ∧
    (i = .decode → (t.err.code = 0 → t.status.hv = true) ∧
      (t.err.code.toNat = 1 ∨ t.err.code.toNat = 2 ∨ t.err.code.toNat = 3 → t.status.hv = false) ∧
      (t.err.code = 5 → t.status.hv = s.status.hv)) ∧
    (i = .kinit → t.status.kopen = true) ∧
    (i = .kfinal ∨ i = .accept → t.status.err = false → t.status.kopen = false) ∧
    (i = .kfinal ∨ i = .accept → t.status.err = true → t.status.kopen = s.status.kopen) ∧
    (i ≠ .kinit → i ≠ .kfinal → i ≠ .accept → t.status.kopen = s.status.kopen)

/-- R175, R269: no value of a byte of the buffers, of `MKEY` or of `H` and `BLK` makes a command other than DECODE fail:
two states that agree on `OFF`, `LEN`, `KOPEN` and `MLEN` report the same error. -/
def Obligations.NoFailureOnData : Prop :=
  ∀ (i : Instr) (s s' t t' : State),
    i = .accept ∨ i = .kinit ∨ i = .kupdate ∨ i = .kfinal ∨ i = .unmask →
    s'.off = s.off → s'.len = s.len → s'.status.kopen = s.status.kopen → s'.key.mlen = s.key.mlen →
    exec i s = .next t → exec i s' = .next t' → t'.err = t.err ∧ t'.status.err = t.status.err

/-! ### The Accept-Key unit -/

/-- R171: KINIT completes in every state, with the initial value in `H`, `MLEN = 0` and the context open; `BLK` and
everything else are as before. -/
def Obligations.KinitOpensAFreshContext : Prop :=
  ∀ s : State, ∃ t, exec .kinit s = .next t ∧ Succeeded 0x02 t ∧
    t.key.h = ⟨0x67452301, 0xEFCDAB89, 0x98BADCFE, 0x10325476, 0xC3D2E1F0⟩ ∧ t.key.mlen = 0 ∧ t.status.kopen = true ∧
    t.key.blk = s.key.blk ∧ SameBytes s t ∧ t.olen = s.olen ∧ SameHeader s t ∧ SameHost s t

/-- R172: KUPDATE, in range, with an open context and within `KEY_MAX`, completes: the window is absorbed, `MLEN` grows by
`LEN`, the context stays open, everything else is as before. -/
def Obligations.KupdateAbsorbsTheWindow : Prop :=
  ∀ s : State, s.off.toNat + s.len.toNat ≤ 1024 → s.status.kopen = true →
    s.key.mlen.toNat + s.len.toNat ≤ 2 ^ 61 - 37 →
    ∃ t, exec .kupdate s = .next t ∧ Succeeded 0x03 t ∧ t.key = s.key.absorb (window s) ∧
      t.key.mlen.toNat = s.key.mlen.toNat + s.len.toNat ∧ t.status.kopen = true ∧ (s.len = 0 → t.key = s.key) ∧
      SameBytes s t ∧ t.olen = s.olen ∧ SameHeader s t ∧ SameHost s t

/-- R160: `absorb` byte by byte, that it keeps the invariant of R36, and that it may be cut anywhere. -/
def Obligations.AbsorbRule : Prop :=
  (∀ k : KeyCtx, k.absorb [] = k) ∧
  (∀ (k : KeyCtx) (x : Byte) (s : List Byte),
    let k' := k.absorb [x]
    k.absorb (x :: s) = k'.absorb s ∧ k'.mlen = k.mlen + 1 ∧
      (∀ j : Fin 64, k'.blk[j] = if j.val = k.mlen.toNat % 64 then x else k.blk[j]) ∧
      k'.h = if (k.mlen + 1).toNat % 64 = 0 then compress k.h k'.blk.toList else k.h) ∧
  (∀ (k : KeyCtx) (s t : List Byte), k.absorb (s ++ t) = (k.absorb s).absorb t) ∧
  ∀ (k : KeyCtx) (m s : List Byte), k.Holds m → m.length + s.length < 2 ^ 64 → (k.absorb s).Holds (m ++ s)

/-- R36: from every state in which an open key context holds some message of at most `KEY_MAX` bytes, every step gives such a
state. -/
def Obligations.StepKeepsTheMessage : Prop :=
  ∀ s t : State, s.KeyInv → step s = .next t → t.KeyInv

/-- R161, R173: KFINAL completes with an open context; where the context holds the message `m`, `H` is the SHA-1 of `m` and
the GUID and `OBUF[0:28]` is the accept key of `m`. -/
def Obligations.KfinalGivesTheAcceptKey : Prop :=
  ∀ s : State, s.status.kopen = true → ∃ t, exec .kfinal s = .next t ∧ Succeeded 0x04 t ∧ t.status.kopen = false ∧
    t.olen = 28 ∧ t.key.mlen = s.key.mlen + 36 ∧
    (∀ i, i < 28 → readObuf t i = (base64_20 (digestBytes t.key.h)).getD i 0) ∧
    ∀ m : List Byte, s.key.Holds m → m.length ≤ 2 ^ 61 - 37 →
      t.key.h = sha1 (m ++ guid) ∧ t.key.mlen.toNat = m.length + 36 ∧
        ∀ i, i < 28 → readObuf t i = (acceptKey m).getD i 0

/-- R170: ACCEPT, in range, completes with the accept key of the window in `OBUF[0:28]`, whatever key context there was. -/
def Obligations.AcceptGivesTheAcceptKey : Prop :=
  ∀ s : State, s.off.toNat + s.len.toNat ≤ 1024 → ∃ t, exec .accept s = .next t ∧ Succeeded 0x01 t ∧
    t.status.kopen = false ∧ t.olen = 28 ∧ t.key.mlen.toNat = s.len.toNat + 36 ∧ t.key.h = sha1 (window s ++ guid) ∧
    ∀ i, i < 28 → readObuf t i = (acceptKey (window s)).getD i 0

/-- R65: the frame of the four commands: the header registers, `OFF`, `LEN` and all that is the host's are as before, and so
is every byte of both buffers, but for `OBUF[0:28]` after an ACCEPT or a KFINAL. -/
def Obligations.AcceptKeyFrame : Prop :=
  ∀ (i : Instr) (s t : State), i = .accept ∨ i = .kinit ∨ i = .kupdate ∨ i = .kfinal → exec i s = .next t →
    SameHeader s t ∧ SameHost s t ∧
      (i = .kinit ∨ i = .kupdate → SameBytes s t ∧ t.olen = s.olen) ∧
      ∀ a, a < obufAt 0 ∨ obufAt 0 + 28 ≤ a → t.mem.read a = s.mem.read a

/-- R174 (a): ACCEPT leaves exactly the state that KINIT, KUPDATE and KFINAL on the same window leave, but for `ERR.CMD`. (That
the hidden `BLK` holds the same free bytes after both is the model's choice: log entry 4.) -/
def Obligations.AcceptEqualsStreaming : Prop :=
  ∀ s : State, s.off.toNat + s.len.toNat ≤ 1024 → ∃ t1 t2 t3 t,
    exec .kinit s = .next t1 ∧ exec .kupdate t1 = .next t2 ∧ exec .kfinal t2 = .next t3 ∧ exec .accept s = .next t ∧
      t = { t3 with err := { t3.err with cmd := 0x01 } }

/-- R174 (b): however a token is cut into windows, KINIT, a KUPDATE for each piece and KFINAL give the accept key of the whole
token. -/
def Obligations.SplitDoesNotMatter : Prop :=
  ∀ (ps : List (List Byte)) (s u : State), Streamed ps s → SameKey s u →
    ∃ t, exec .kfinal u = .next t ∧ t.status.err = false ∧
      ∀ i, i < 28 → readObuf t i = (acceptKey ps.flatten).getD i 0

/-- R35: bytes of `BLK` at the fill pointer and above have no meaning: two contexts that differ only there give the same
digest. -/
def Obligations.StaleBlockBytesDoNotMatter : Prop :=
  ∀ (k k' : KeyCtx) (s : List Byte) (b b' : Vector Byte 64), k'.h = k.h → k'.mlen = k.mlen →
    k'.blk.toList.take k.fill = k.blk.toList.take k.fill →
    ((k'.absorb s).finish b').h = ((k.absorb s).finish b).h ∧ (k'.absorb s).mlen = (k.absorb s).mlen

/-- R153: the padded message, the number of zero bytes, its length and its corner cases. -/
def Obligations.PaddingRule : Prop :=
  ∀ m : List Byte, ∃ z, pad m = m ++ [0x80] ++ List.replicate z 0x00 ++ bytesBE (8 * m.length) 8 ∧
    (m.length + 1 + z) % 64 = 56 ∧ (∀ z', z' < z → (m.length + 1 + z') % 64 ≠ 56) ∧
    (z : Int) = (55 - (m.length : Int)) % 64 ∧ (pad m).length % 64 = 0 ∧
    (m.length % 64 ≤ 55 → (pad m).length = 64 * (m.length / 64 + 1)) ∧
    (56 ≤ m.length % 64 → (pad m).length = 64 * (m.length / 64 + 2)) ∧
    (m.length % 64 = 55 → z = 0) ∧
    (m.length % 64 = 56 → z = 63 ∧
      (pad m).drop (64 * (m.length / 64 + 1)) = List.replicate 56 0x00 ++ bytesBE (8 * m.length) 8) ∧
    (m.length % 64 = 0 → ((pad m).drop (64 * (m.length / 64))).head? = some 0x80)

/-- R167: the shape of every accept key. -/
def Obligations.AcceptKeyShape : Prop :=
  ∀ token : List Byte,
    (acceptKey token).length = 28 ∧ (acceptKey token).getD 27 0 = 0x3D ∧
    (∀ i, i < 27 → (acceptKey token).getD i 0 ≠ 0x3D) ∧
    (∃ v, v < 16 ∧ (acceptKey token).getD 26 0 = b64Char (4 * v)) ∧
    ∀ c ∈ acceptKey token, 0x21 ≤ c.toNat ∧ c.toNat ≤ 0x7E

/-! ### The frame header decoder -/

/-- R211, R215: DECODE of a window that holds a whole header completes with the registers of that header. -/
def Obligations.DecodeWritesTheHeader : Prop :=
  ∀ s : State, s.off.toNat + s.len.toNat ≤ 1024 → 2 ≤ s.len.toNat →
    let d := fun i => readBuf s (s.off.toNat + i)
    let L := lengthOf (d 1)
    let hs := 2 + extBytes L
    headerBytes (d 1) ≤ s.len.toNat →
    ∃ t, exec .decode s = .next t ∧ Succeeded 0x05 t ∧ t.status.hv = true ∧
      t.hflags = BitVec.ofBool (maskOf (d 1)) ++ d 0 ∧ t.hsize.toNat = headerBytes (d 1) ∧
      t.plen.toNat = (if L.toNat ≤ 125 then L.toNat
        else if L.toNat = 126 then (d 2).toNat * 256 + (d 3).toNat
        else be [d 2, d 3, d 4, d 5, d 6, d 7, d 8, d 9]) ∧
      t.mkey = (if maskOf (d 1) then d hs ++ d (hs + 1) ++ d (hs + 2) ++ d (hs + 3) else 0) ∧
      SameBytes s t ∧ t.olen = s.olen ∧ SameKey s t ∧ SameHost s t

/-- R103, R112, R215: DECODE is the layout its window selects: where the decoder made from the table's rows reads a header
from the window, DECODE does what that row does. (That a row has a step of its own is the model's choice: log entry 8.) -/
def Obligations.DecodeRunsTheLayout : Prop :=
  ∀ (s : State) (i : Instr) (rest : List Byte), s.off.toNat + s.len.toNat ≤ 1024 →
    decode .frameHdr16 (window s) = .ok (i, rest) → exec .decode s = exec i s

/-- R212: the registers after a decode error: the header registers and `HV` cleared, the error with its `NEED`, everything
else as before. -/
def Obligations.DecodeErrorClearsTheHeader : Prop :=
  ∀ (s : State) (r : Reject), s.off.toNat + s.len.toNat ≤ 1024 → decode .frameHdr16 (window s) = .error r →
    ∃ t, exec .decode s = .next t ∧ t.status.err = true ∧ t.status.busy = false ∧ t.err.cmd = 0x05 ∧
      t.hflags = 0 ∧ t.plen = 0 ∧ t.mkey = 0 ∧ t.hsize = 0 ∧ t.status.hv = false ∧
      (r = .frameTooShort → t.err.code = 1 ∧ t.err.need = 2) ∧
      (r = .extendedLengthTruncated → t.err.code = 2 ∧
        t.err.need = (if (lengthOf (readBuf s (s.off.toNat + 1))).toNat = 126 then 4 else 10)) ∧
      (r = .maskingKeyTruncated → t.err.code = 3 ∧
        t.err.need.toNat = headerBytes (readBuf s (s.off.toNat + 1))) ∧
      (r = .frameTooShort ∨ r = .extendedLengthTruncated ∨ r = .maskingKeyTruncated) ∧
      SameBytes s t ∧ t.olen = s.olen ∧ SameKey s t ∧ SameHost s t

/-- R213: the table of outcomes by the length of the window, for each layout. -/
def Obligations.OutcomeTable : Prop :=
  ∀ data : List Byte,
    let n := data.length
    let m := maskOf (data.getD 1 0)
    let L := (lengthOf (data.getD 1 0)).toNat
    let err := fun e k => decodeHeader data = .error ⟨e, k⟩
    let ok := fun k => ∃ h, decodeHeader data = .ok h ∧ h.headerSize = k
    (n < 2 → err .frameTooShort 2) ∧
    (2 ≤ n → m = false → L ≤ 125 → ok 2) ∧
    (2 ≤ n → m = true → L ≤ 125 → (n < 6 → err .maskingKeyTruncated 6) ∧ (6 ≤ n → ok 6)) ∧
    (2 ≤ n → L = 126 → n < 4 → err .extendedLengthTruncated 4) ∧
    (4 ≤ n → L = 126 → m = false → ok 4) ∧
    (4 ≤ n → L = 126 → m = true → (n < 8 → err .maskingKeyTruncated 8) ∧ (8 ≤ n → ok 8)) ∧
    (2 ≤ n → L = 127 → n < 10 → err .extendedLengthTruncated 10) ∧
    (10 ≤ n → L = 127 → m = false → ok 10) ∧
    (10 ≤ n → L = 127 → m = true → (n < 14 → err .maskingKeyTruncated 14) ∧ (14 ≤ n → ok 14))

/-- R205: `headerSize` as a closed formula, its six values, and the least window. -/
def Obligations.HeaderSizeFormula : Prop :=
  ∀ data : List Byte,
    (∀ h, decodeHeader data = .ok h →
      h.headerSize = headerBytes (data.getD 1 0) ∧
      (h.headerSize = 2 ∨ h.headerSize = 4 ∨ h.headerSize = 6 ∨ h.headerSize = 8 ∨ h.headerSize = 10 ∨
        h.headerSize = 14)) ∧
    (2 ≤ data.length → ((∃ h, decodeHeader data = .ok h) ↔ headerBytes (data.getD 1 0) ≤ data.length))

/-- R65, R69, R215: DECODE depends on the first 14 bytes of its window and on its length only: two states that agree on
`OFF`, `LEN` and those bytes end with the same header registers and the same error. -/
def Obligations.DecodeReadsFourteenBytes : Prop :=
  ∀ s s' t t' : State, s.off.toNat + s.len.toNat ≤ 1024 → s'.off = s.off → s'.len = s.len →
    (∀ i, i < 14 → i < s.len.toNat → readBuf s' (s.off.toNat + i) = readBuf s (s.off.toNat + i)) →
    exec .decode s = .next t → exec .decode s' = .next t' →
    SameHeader t t' ∧ t'.err = t.err ∧ t'.status.err = t.status.err

/-- R103, R211: each header layout completes with the registers of its header: byte 0 and `MASK` in `HFLAGS`, the length in
`PLEN`, the key or 0 in `MKEY`, the layout's size in `HSIZE`, `HV` set; everything else is as before. (That a layout by
itself completes with DECODE's code is the model's choice: log entry 8.) -/
def Obligations.HeaderLayoutsCompleteWithTheirRegisters : Prop :=
  ∀ (s : State) (lead : Lead) (l7 : BitVec 7) (l16 : BitVec 16) (l64 : BitVec 64) (key : BitVec 32),
    let done := fun (i : Instr) (mask : Bool) (plen : BitVec 64) (mkey : BitVec 32) (size : BitVec 4) =>
      ∃ t, exec i s = .next t ∧ Succeeded 0x05 t ∧ t.status.hv = true ∧
        t.hflags = BitVec.ofBool mask ++ lead.toByte ∧ t.plen = plen ∧ t.mkey = mkey ∧ t.hsize = size ∧
        SameBytes s t ∧ t.olen = s.olen ∧ SameKey s t ∧ SameHost s t
    done (.hdr7 lead l7) false (l7.setWidth 64) 0 2 ∧ done (.hdr7m lead l7 key) true (l7.setWidth 64) key 6 ∧
      done (.hdr16 lead l16) false (l16.setWidth 64) 0 4 ∧ done (.hdr16m lead l16 key) true (l16.setWidth 64) key 8 ∧
      done (.hdr64 lead l64) false l64 0 10 ∧ done (.hdr64m lead l64 key) true l64 key 14

/-- R200: what DECODE does not touch, on every path. -/
def Obligations.DecodeFrame : Prop :=
  ∀ s t : State, exec .decode s = .next t → SameBytes s t ∧ t.olen = s.olen ∧ SameKey s t ∧ SameHost s t

/-- R211, R244: after the DECODE of an unmasked frame `MKEY` is 0, and UNMASK of any window copies it unchanged. -/
def Obligations.UnmaskedFrameIsCopied : Prop :=
  ∀ s t u : State, exec .decode s = .next t → t.status.err = false → hflagsMask t.hflags = false →
    u.mkey = t.mkey → u.off.toNat + u.len.toNat ≤ 1024 →
    ∃ v, exec .unmask u = .next v ∧ ∀ i, i < u.len.toNat → readObuf v i = readBuf u (u.off.toNat + i)

/-! ### The payload unmasker -/

/-- R230: UNMASK, in range, completes: `OBUF[i]` is `BUF[OFF+i] XOR key[i mod 4]` for `i < LEN`, with `key[0]` in `MKEY`'s most
significant byte, `OLEN` is `LEN`, and everything else is as before. -/
def Obligations.UnmaskXorsTheWindow : Prop :=
  ∀ s : State, s.off.toNat + s.len.toNat ≤ 1024 → ∃ t, exec .unmask s = .next t ∧ Succeeded 0x06 t ∧
    (∀ i, i < s.len.toNat →
      readObuf t i = readBuf s (s.off.toNat + i) ^^^ s.mkey.extractLsb' (24 - 8 * (i % 4)) 8) ∧
    t.olen = s.len ∧ (∀ a, a < obufAt 0 ∨ obufAt 0 + s.len.toNat ≤ a → t.mem.read a = s.mem.read a) ∧
    SameHeader s t ∧ SameKey s t ∧ SameHost s t

/-- R232: unmasking twice with the same key gives the bytes back, for the function, and for two UNMASK commands with the
output of the first as the window of the second. -/
def Obligations.UnmaskTwiceIsTheIdentity : Prop :=
  (∀ p k : List Byte, unmask (unmask p k) k = p) ∧
  ∀ s t u v : State, s.off.toNat + s.len.toNat ≤ 1024 → exec .unmask s = .next t →
    u.mkey = s.mkey → u.len = s.len → u.off.toNat + u.len.toNat ≤ 1024 →
    (∀ i, i < u.len.toNat → readBuf u (u.off.toNat + i) = readObuf t i) → exec .unmask u = .next v →
    ∀ i, i < s.len.toNat → readObuf v i = readBuf s (s.off.toNat + i)

/-- R233: the laws (a) to (e) of `unmask` for a 4-byte key. -/
def Obligations.UnmaskLaws : Prop :=
  ∀ k : List Byte, k.length = 4 →
    let rot := fun j => [k.getD (j % 4) 0, k.getD ((1 + j) % 4) 0, k.getD ((2 + j) % 4) 0, k.getD ((3 + j) % 4) 0]
    (∀ d, (unmask d k).length = d.length) ∧
    (∀ d1 d2, d1.length % 4 = 0 → unmask (d1 ++ d2) k = unmask d1 k ++ unmask d2 k) ∧
    (∀ d1 d2, unmask (d1 ++ d2) k = unmask d1 k ++ unmask d2 (rot (d1.length % 4))) ∧
    (∀ d, unmask d [0, 0, 0, 0] = d) ∧
    ∀ (d d' k' : List Byte) (i : Nat), i < d.length → i < d'.length → d'.getD i 0 = d.getD i 0 →
      k'.getD (i % 4) 0 = k.getD (i % 4) 0 → (unmask d' k').getD i 0 = (unmask d k).getD i 0

/-! ### The frame opcodes -/

/-- R100, R101: each frame opcode, the reserved ones included, completes without error with its four bits in
`HFLAGS.OPCODE` and the five flag bits of `HFLAGS` as they were; nothing else of the header changes. (That a frame opcode by
itself completes as DECODE does is the model's choice: log entry 8.) -/
def Obligations.FrameOpcodesAreExposed : Prop :=
  ∀ s : State,
    let done := fun (i : Instr) (op : BitVec 4) =>
      ∃ t, exec i s = .next t ∧ Succeeded 0x05 t ∧ hflagsOpcode t.hflags = op ∧
        (∀ b, 4 ≤ b → t.hflags.getLsbD b = s.hflags.getLsbD b) ∧ t.plen = s.plen ∧ t.mkey = s.mkey ∧
        t.hsize = s.hsize ∧ t.status.hv = s.status.hv ∧ SameBytes s t ∧ t.olen = s.olen ∧ SameKey s t ∧ SameHost s t
    done .frCont 0x0 ∧ done .frText 0x1 ∧ done .frBin 0x2 ∧ done .frClose 0x8 ∧ done .frPing 0x9 ∧ done .frPong 0xA ∧
      ∀ op, done (.frRsvdData op) op ∧ done (.frRsvdCtrl op) op

/-- R100: the opcode of a decoded header is exposed already: running its row after a successful DECODE changes nothing.
(The row's own step is the model's choice: log entry 8.) -/
def Obligations.DecodeExposesTheOpcode : Prop :=
  ∀ s t : State, exec .decode s = .next t → t.status.err = false →
    hflagsOpcode t.hflags = (readBuf s s.off.toNat).extractLsb' 0 4 ∧
      exec (decodeOpcode (hflagsOpcode t.hflags)) t = .next t

/-! ### Invariants -/

/-- The register invariant and the key-context invariant hold after reset, for any contents of the buffers in canonical
form. -/
def Obligations.ResetHasTheInvariants : Prop :=
  ∀ (mem : Memory) (blk : Vector Byte 64), mem.wf →
    (State.resetWith mem blk).Inv ∧ (State.resetWith mem blk).KeyInv ∧ State.reset.Inv ∧ State.reset.KeyInv

/-- From every state with the register invariant every step gives a state with it: the buffers keep their canonical form,
`ERR` and `STATUS.ERR` agree, `OLEN` and `MLEN` keep their bounds, and `HFLAGS`, `PLEN`, `HSIZE` have the shape of a header
exactly while `HV` is set. -/
def Obligations.StepKeepsTheInvariant : Prop :=
  ∀ s t : State, s.Inv → step s = .next t → t.Inv

/-! ### The host's streaming iteration -/

/-- R243, R245: what the host does with each value it reads. `STATUS` with bit 1 set, or `hs + pl > n` without wrap-around,
closes the connection and ends the sequence; `HSIZE` and `PLEN` are the `hs` and `pl` of the UNMASK that follows. (That the host
is a list of transactions in the state, with its connection beside it, is the model's choice: log entries 7 and 16.) -/
def Obligations.StreamingDecisions : Prop :=
  ∀ (s : State) (n hs : Nat) (rest : List HostOp), s.status.busy = false →
    (s.host = .readFor (.status n) :: rest →
      (s.status.err = true → step s = .next { s with
        host := [], rdata := s.status.word.setWidth 64, conn := { s.conn with closed := some .decodeError } }) ∧
      (s.status.err = false → step s = .next { s with
        host := .readFor (.hsize n) :: rest, rdata := s.status.word.setWidth 64 })) ∧
    (s.host = .readFor (.hsize n) :: rest → step s = .next { s with
      host := .readFor (.plen n s.hsize.toNat) :: rest, rdata := s.hsize.setWidth 64 }) ∧
    (s.host = .readFor (.plen n hs) :: rest →
      (n < hs + s.plen.toNat → step s = .next { s with
        host := [], rdata := s.plen, conn := { s.conn with closed := some .frameExceedsBuffer } }) ∧
      (hs + s.plen.toNat ≤ n → step s = .next { s with
        host := HostProgram.unmaskPayload hs s.plen.toNat ++ rest, rdata := s.plen,
        conn := { s.conn with messages := [] :: s.conn.messages } }))

/-- R243: where the bytes read hold no whole header, the streaming iteration ends `CLOSED` by the decode error: no further
transaction, no UNMASK, nothing delivered; the header registers and `HV` are cleared (R212). (Log entries 7 and 16, as above.) -/
def Obligations.StreamingStopsOnADecodeError : Prop :=
  ∀ (s : State) (bytes : List Byte) (rest : List HostOp) (e : HeaderError), StreamsFrom s bytes rest →
    decodeHeader bytes = .error e →
    ∃ k t, Host.Core.run core k s = .next t ∧ ClosedWithout .decodeError bytes.length s t ∧ t.status.err = true ∧
      t.err = ⟨e.error.code, BitVec.ofNat 8 e.need, 0x05⟩ ∧ t.status.hv = false ∧
      t.hflags = 0 ∧ t.plen = 0 ∧ t.mkey = 0 ∧ t.hsize = 0

/-- R245: where the header is whole and `hs + pl > n`, the streaming iteration ends `CLOSED` by `FrameExceedsBuffer`: no
further transaction, no UNMASK, nothing delivered; the header stays in its registers, `HFLAGS`, `PLEN`, `MKEY` and `HSIZE`, as DECODE left
it (R211). (Log entries 7 and 16, as above.) -/
def Obligations.StreamingRejectsAFrameThatExceeds : Prop :=
  ∀ (s : State) (bytes : List Byte) (rest : List HostOp) (h : Header), StreamsFrom s bytes rest →
    decodeHeader bytes = .ok h → bytes.length < h.headerSize + h.payloadLength →
    ∃ k t, Host.Core.run core k s = .next t ∧ ClosedWithout .frameExceedsBuffer bytes.length s t ∧ Succeeded 0x05 t ∧
      t.status.hv = true ∧ t.hflags = hflagsWord h.mask h.lead ∧ t.plen.toNat = h.payloadLength ∧
      t.mkey = h.key.getD 0 ∧ t.hsize.toNat = h.headerSize

/-- R243, R244: where the frame is wholly in the bytes read, masked or not, the streaming iteration delivers
`buffer[headerSize : headerSize+payloadLength]` unmasked, and the host goes on with what comes after it. (Log entries 7 and 16,
as above.) -/
def Obligations.StreamingDeliversThePayload : Prop :=
  ∀ (s : State) (bytes : List Byte) (rest : List HostOp) (h : Header), StreamsFrom s bytes rest →
    decodeHeader bytes = .ok h → h.headerSize + h.payloadLength ≤ bytes.length →
    let payload := slice bytes h.headerSize (h.headerSize + h.payloadLength)
    let content := if h.mask then unmask payload (bytesBE (h.key.getD 0).toNat 4) else payload
    ∃ k t, Host.Core.run core k s = .next t ∧ t.host = rest ∧
      t.conn = { s.conn with messages := content :: s.conn.messages } ∧ Succeeded 0x06 t ∧ t.status.hv = true ∧
      t.off.toNat = h.headerSize ∧ t.len.toNat = h.payloadLength ∧ t.olen = t.len ∧
      (∀ i, i < h.payloadLength → readObuf t i = content.getD i 0) ∧
      (∀ i, i < bytes.length → readBuf t i = bytes.getD i 0) ∧ SameKey s t
end

