-- ==== Sys2Proof/Laws/Decode.lean ====
section
/-! SUPPORT. Byte order and field packing: each pair of helpers the decoder and the encoder use undoes the other. -/

namespace Sys2Proof

@[simp] theorem bytesBE_length (v n : Nat) : (bytesBE v n).length = n := by simp [bytesBE]

theorem be_append (s : List Byte) (b : Byte) : be (s ++ [b]) = be s * 256 + b.toNat := by simp [be]

theorem be_nil : be [] = 0 := rfl

theorem be_lt (s : List Byte) : be s < 256 ^ s.length := by
  induction s using List.reverseRecOn with
  | nil => simp [be_nil]
  | append_singleton s b ih =>
    rw [be_append, List.length_append, List.length_singleton, pow_succ]
    have := b.isLt
    omega

theorem bytesBE_succ (v n : Nat) : bytesBE v (n + 1) = bytesBE (v / 256) n ++ [BitVec.ofNat 8 v] := by
  unfold bytesBE
  rw [List.range_succ, List.map_append]
  congr 1
  · refine List.map_congr_left fun i hi => ?_
    have hi := List.mem_range.mp hi
    rw [Nat.div_div_eq_div_mul, show n + 1 - 1 - i = (n - 1 - i) + 1 by omega, pow_succ, Nat.mul_comm]
  · simp

/-- R9: `be(bytes_be(v, n)) = v` where `v` fits. -/
theorem be_bytesBE (n v : Nat) (h : v < 256 ^ n) : be (bytesBE v n) = v := by
  induction n generalizing v with
  | zero =>
    have : v = 0 := by simpa using h
    subst this
    rfl
  | succ n ih =>
    rw [bytesBE_succ, be_append, ih (v / 256) (by rw [pow_succ] at h; omega)]
    simp only [BitVec.toNat_ofNat]
    omega

/-- R9: `bytes_be(be(s), len(s)) = s`. -/
theorem bytesBE_be (s : List Byte) : bytesBE (be s) s.length = s := by
  induction s using List.reverseRecOn with
  | nil => rfl
  | append_singleton s b ih =>
    rw [List.length_append, List.length_singleton, bytesBE_succ, be_append]
    have hb := b.isLt
    congr 1
    · rw [show (be s * 256 + b.toNat) / 256 = be s by omega, ih]
    · congr 1
      apply BitVec.eq_of_toNat_eq
      simp only [BitVec.toNat_ofNat]
      omega

@[simp] theorem takeBE_bytesBE (n v : Nat) (s : List Byte) (h : v < 256 ^ n) :
    takeBE n (bytesBE v n ++ s) = some (v, s) := by
  simp [takeBE, be_bytesBE n v h]

theorem takeBE_eq_some {n : Nat} {s r : List Byte} {v : Nat} (h : takeBE n s = some (v, r)) :
    v < 256 ^ n ∧ bytesBE v n ++ r = s := by
  unfold takeBE at h
  split at h
  · simp at h
  · next hn =>
    simp only [Option.some.injEq, Prod.mk.injEq] at h
    obtain ⟨rfl, rfl⟩ := h
    have hl : (s.take n).length = n := by simp; omega
    refine ⟨by simpa [hl] using be_lt (s.take n), ?_⟩
    have := bytesBE_be (s.take n)
    rw [hl] at this
    rw [this, List.take_append_drop]

theorem takeBE_eq_none {n : Nat} {s : List Byte} : takeBE n s = none ↔ s.length < n := by
  unfold takeBE
  split <;> simp_all

@[simp] theorem Lead.ofByte_toByte (l : Lead) : Lead.ofByte l.toByte = l := by
  obtain ⟨f, r1, r2, r3, op⟩ := l
  revert f r1 r2 r3 op
  decide

@[simp] theorem Lead.toByte_ofByte (b : Byte) : (Lead.ofByte b).toByte = b := by
  revert b
  decide

@[simp] theorem maskOf_lengthByte (m : Bool) (L : BitVec 7) : maskOf (lengthByte m L) = m := by
  revert m L
  decide

@[simp] theorem lengthOf_lengthByte (m : Bool) (L : BitVec 7) : lengthOf (lengthByte m L) = L := by
  revert m L
  decide

@[simp] theorem lengthByte_of (b : Byte) : lengthByte (maskOf b) (lengthOf b) = b := by
  revert b
  decide

/-- R103: the layout of a byte 1, said by its two fields. -/
theorem layoutOf_eq (b : Byte) :
    layoutOf b =
      if (lengthOf b).toNat ≤ 125 then (if maskOf b then .hdr7m else .hdr7)
      else if (lengthOf b).toNat = 126 then (if maskOf b then .hdr16m else .hdr16)
      else (if maskOf b then .hdr64m else .hdr64) := by
  revert b
  decide

end Sys2Proof
end

