-- ==== Sys2Proof/Laws/Memory.lean ====
section
/-! SUPPORT. The laws of the byte buffers: what a read gives after a write, that every operation keeps the canonical form,
and that two buffers in canonical form which read alike are equal. -/

namespace Sys2Proof.Machine.Memory

@[simp] theorem read_nil (a : Nat) : Memory.read [] a = Memory.unlisted := rfl

theorem read_cons (k : Nat) (x : Byte) (m : Memory) (a : Nat) :
    Memory.read ((k, x) :: m) a = if k = a then x else Memory.read m a := rfl

theorem read_filter (m : Memory) (a b : Nat) :
    Memory.read (m.filter fun c => c.1 != a) b = if b = a then Memory.unlisted else Memory.read m b := by
  induction m with
  | nil => simp
  | cons c m ih =>
    obtain ⟨k, x⟩ := c
    by_cases hka : k = a
    · subst hka
      have hf : ((k, x) :: m).filter (fun c => c.1 != k) = m.filter fun c => c.1 != k := by simp
      rw [hf, ih, read_cons]
      by_cases hb : b = k
      · simp [hb]
      · simp [hb, Ne.symm hb]
    · by_cases hkb : k = b
      · subst hkb
        simp [hka, read_cons]
      · simp [hka, read_cons, hkb, ih]

theorem read_insert (m : Memory) (a : Nat) (v : Byte) (b : Nat) (h : ∀ c ∈ m, c.1 ≠ a) :
    Memory.read (Memory.insert m a v) b = if b = a then v else Memory.read m b := by
  induction m with
  | nil => simp [Memory.insert, read_cons, eq_comm]
  | cons c m ih =>
    obtain ⟨k, x⟩ := c
    have hk : k ≠ a := h (k, x) (by simp)
    have ih := ih fun c hc => h c (by simp [hc])
    by_cases hlt : a < k
    · simp [Memory.insert, hlt, read_cons, eq_comm]
    · by_cases hkb : k = b
      · subst hkb
        simp [Memory.insert, hlt, read_cons, hk]
      · simp [Memory.insert, hlt, read_cons, hkb, ih]

/-- Read after write: the byte written at its location, every other byte as before. -/
theorem read_write (m : Memory) (a : Nat) (v : Byte) (b : Nat) :
    Memory.read (Memory.write m a v) b = if b = a then v else Memory.read m b := by
  unfold Memory.write
  split
  · next h => rw [read_filter]; simp [h]
  · rw [read_insert _ _ _ _ (by simp), read_filter]
    split <;> rfl

@[simp] theorem read_write_self (m : Memory) (a : Nat) (v : Byte) : Memory.read (Memory.write m a v) a = v := by
  simp [read_write]

theorem read_write_of_ne (m : Memory) {a b : Nat} (v : Byte) (h : b ≠ a) :
    Memory.read (Memory.write m a v) b = Memory.read m b := by
  simp [read_write, h]

/-- Read after a run of writes: inside the stored bytes the byte stored, outside them as before. -/
theorem read_writeBytes (bs : List Byte) (m : Memory) (a b : Nat) :
    Memory.read (Memory.writeBytes m a bs) b =
      if a ≤ b ∧ b < a + bs.length then bs.getD (b - a) 0 else Memory.read m b := by
  induction bs generalizing m a with
  | nil => simp [Memory.writeBytes]
  | cons x bs ih =>
    rw [Memory.writeBytes, ih, read_write]
    by_cases h1 : a + 1 ≤ b ∧ b < a + 1 + bs.length
    · have h2 : a ≤ b ∧ b < a + (x :: bs).length := by simp; omega
      rw [if_pos h1, if_pos h2]
      obtain ⟨j, rfl⟩ : ∃ j, b = a + 1 + j := ⟨b - (a + 1), by omega⟩
      simp [show a + 1 + j - a = j + 1 by omega]
    · rw [if_neg h1]
      by_cases hb : b = a
      · subst hb
        simp
      · have h2 : ¬(a ≤ b ∧ b < a + (x :: bs).length) := by simp; omega
        rw [if_neg hb, if_neg h2]

theorem read_writeBytes_outside (bs : List Byte) (m : Memory) (a b : Nat) (h : b < a ∨ a + bs.length ≤ b) :
    Memory.read (Memory.writeBytes m a bs) b = Memory.read m b := by
  rw [read_writeBytes, if_neg (by omega)]

theorem read_writeBytes_inside (bs : List Byte) (m : Memory) (a i : Nat) (h : i < bs.length) :
    Memory.read (Memory.writeBytes m a bs) (a + i) = bs.getD i 0 := by
  rw [read_writeBytes, if_pos (by omega)]
  simp

theorem wf_nil : Memory.wf [] := by simp [Memory.wf]

theorem wf_filter {m : Memory} (a : Nat) (h : Memory.wf m) : Memory.wf (m.filter fun c => c.1 != a) :=
  ⟨h.1.filter _, fun c hc => h.2 c (List.mem_filter.mp hc).1⟩

theorem mem_insert (m : Memory) (a : Nat) (v : Byte) (c : Host.Cell) :
    c ∈ Memory.insert m a v ↔ c = (a, v) ∨ c ∈ m := by
  induction m with
  | nil => simp [Memory.insert]
  | cons d m ih =>
    obtain ⟨k, x⟩ := d
    by_cases hlt : a < k
    · simp [Memory.insert, hlt]
    · simp [Memory.insert, hlt, ih]
      tauto

theorem wf_insert {m : Memory} {a : Nat} {v : Byte} (h : Memory.wf m) (hne : ∀ c ∈ m, c.1 ≠ a)
    (hv : v ≠ Memory.unlisted) (ha : a < 0x800) : Memory.wf (Memory.insert m a v) := by
  refine ⟨?_, fun c hc => ?_⟩
  · have hp := h.1
    clear h
    induction m with
    | nil => simp [Memory.insert]
    | cons d m ih =>
      obtain ⟨k, x⟩ := d
      obtain ⟨hk, hm⟩ := List.pairwise_cons.mp hp
      have hka : k ≠ a := hne (k, x) (by simp)
      by_cases hlt : a < k
      · simp only [Memory.insert, hlt, if_true]
        refine List.pairwise_cons.mpr ⟨fun c hc => ?_, hp⟩
        rcases List.mem_cons.mp hc with rfl | hc
        · exact hlt
        · exact lt_trans hlt (hk c hc)
      · simp only [Memory.insert, hlt, if_false]
        refine List.pairwise_cons.mpr ⟨fun c hc => ?_, ih (fun c hc => hne c (by simp [hc])) hm⟩
        rcases (mem_insert m a v c).mp hc with rfl | hc
        · show k < a
          omega
        · exact hk c hc
  · rcases (mem_insert m a v c).mp hc with rfl | hc
    · exact ⟨hv, ha⟩
    · exact h.2 c hc

/-- A write to a buffer location keeps the canonical form. -/
theorem wf_write {m : Memory} (h : Memory.wf m) {a : Nat} (v : Byte) (ha : a < 0x800) :
    Memory.wf (Memory.write m a v) := by
  unfold Memory.write
  split
  · exact wf_filter a h
  · next hv => exact wf_insert (wf_filter a h) (by simp) hv ha

/-- A run of writes to buffer locations keeps the canonical form. -/
theorem wf_writeBytes {m : Memory} (h : Memory.wf m) (bs : List Byte) {a : Nat} (ha : a + bs.length ≤ 0x800) :
    Memory.wf (Memory.writeBytes m a bs) := by
  induction bs generalizing m a with
  | nil => exact h
  | cons x bs ih =>
    simp only [List.length_cons] at ha
    exact ih (wf_write h x (by omega)) (by omega)

theorem mem_tabulate (f : Nat → Byte) (n : Nat) (c : Host.Cell) :
    c ∈ Memory.tabulate f n ↔ c.1 < n ∧ c.2 = f c.1 ∧ c.2 ≠ Memory.unlisted := by
  induction n with
  | zero => simp [Memory.tabulate]
  | succ n ih =>
    obtain ⟨a, v⟩ := c
    simp only [Memory.tabulate, List.mem_append, ih]
    split
    · next h =>
      simp only [List.not_mem_nil, or_false]
      constructor
      · rintro ⟨h1, h2, h3⟩
        exact ⟨by omega, h2, h3⟩
      · rintro ⟨h1, h2, h3⟩
        refine ⟨?_, h2, h3⟩
        rcases Nat.lt_succ_iff_lt_or_eq.mp h1 with h1 | rfl
        · exact h1
        · exact absurd (h2.trans h) h3
    · next h =>
      simp only [List.mem_singleton, Prod.mk.injEq]
      constructor
      · rintro (⟨h1, h2, h3⟩ | ⟨rfl, rfl⟩)
        · exact ⟨by omega, h2, h3⟩
        · exact ⟨by omega, rfl, h⟩
      · rintro ⟨h1, h2, h3⟩
        rcases Nat.lt_succ_iff_lt_or_eq.mp h1 with h1 | rfl
        · exact .inl ⟨h1, h2, h3⟩
        · exact .inr ⟨rfl, h2⟩

/-- Buffers made from a function of the location are in canonical form. -/
theorem wf_tabulate (f : Nat → Byte) {n : Nat} (hn : n ≤ 0x800) : Memory.wf (Memory.tabulate f n) := by
  refine ⟨?_, fun c hc => ?_⟩
  · clear hn
    induction n with
    | zero => simp [Memory.tabulate]
    | succ n ih =>
      refine List.pairwise_append.mpr ⟨ih, by split <;> simp, fun c hc d hd => ?_⟩
      have h1 := ((mem_tabulate f n c).mp hc).1
      split at hd
      · simp at hd
      · simp only [List.mem_singleton] at hd
        subst hd
        exact h1
  · obtain ⟨h1, _, h3⟩ := (mem_tabulate f n c).mp hc
    exact ⟨h3, by omega⟩

theorem read_eq_unlisted {m : Memory} {a : Nat} (h : ∀ c ∈ m, c.1 ≠ a) : Memory.read m a = Memory.unlisted := by
  induction m with
  | nil => rfl
  | cons c m ih =>
    obtain ⟨k, x⟩ := c
    rw [read_cons, if_neg (h (k, x) (by simp))]
    exact ih fun c hc => h c (by simp [hc])

theorem read_append (m m' : Memory) (a : Nat) (h : ∀ c ∈ m, c.1 ≠ a) :
    Memory.read (m ++ m') a = Memory.read m' a := by
  induction m with
  | nil => rfl
  | cons c m ih =>
    obtain ⟨k, x⟩ := c
    rw [List.cons_append, read_cons, if_neg (h (k, x) (by simp))]
    exact ih fun c hc => h c (by simp [hc])

theorem read_append_left (m m' : Memory) (a : Nat) (h : ∀ c ∈ m', c.1 ≠ a) :
    Memory.read (m ++ m') a = Memory.read m a := by
  induction m with
  | nil => exact read_eq_unlisted h
  | cons c m ih =>
    obtain ⟨k, x⟩ := c
    rw [List.cons_append, read_cons, read_cons, ih]

/-- Buffers made from a function of the location read as that function below the bound. -/
theorem read_tabulate (f : Nat → Byte) (n a : Nat) :
    Memory.read (Memory.tabulate f n) a = if a < n then f a else Memory.unlisted := by
  induction n with
  | zero => simp [Memory.tabulate]
  | succ n ih =>
    rw [Memory.tabulate]
    by_cases ha : a = n
    · subst ha
      rw [read_append _ _ _ fun c hc => by have := ((mem_tabulate f a c).mp hc).1; omega]
      split
      · next h => simp [h]
      · simp [read_cons]
    · rw [read_append_left _ _ _ (by
        intro c hc
        split at hc
        · simp at hc
        · simp only [List.mem_singleton] at hc
          subst hc
          exact fun h => ha h.symm), ih]
      by_cases h : a < n
      · simp [h, show a < n + 1 by omega]
      · simp [h, show ¬a < n + 1 by omega]

/-- Equal contents in canonical form are equal data. -/
theorem ext_of_wf {m m' : Memory} (h : Memory.wf m) (h' : Memory.wf m')
    (he : ∀ a, Memory.read m a = Memory.read m' a) : m = m' := by
  induction m generalizing m' with
  | nil =>
    cases m' with
    | nil => rfl
    | cons c m' =>
      obtain ⟨k, x⟩ := c
      have := he k
      simp only [read_nil, read_cons, if_true] at this
      exact absurd this.symm (h'.2 (k, x) (by simp)).1
  | cons c m ih =>
    obtain ⟨k, x⟩ := c
    cases m' with
    | nil =>
      have := he k
      simp only [read_nil, read_cons, if_true] at this
      exact absurd this (h.2 (k, x) (by simp)).1
    | cons d m' =>
      obtain ⟨l, y⟩ := d
      obtain ⟨hk, hm⟩ := List.pairwise_cons.mp h.1
      obtain ⟨hl, hm'⟩ := List.pairwise_cons.mp h'.1
      have hx := (h.2 (k, x) (by simp)).1
      have hy := (h'.2 (l, y) (by simp)).1
      have hkl : k = l := by
        by_contra hne
        rcases lt_or_gt_of_ne hne with hlt | hlt
        · have := he k
          rw [read_cons, if_pos rfl, read_cons, if_neg (by omega), read_eq_unlisted fun c hc => by
            have := hl c hc
            simp only at this
            omega] at this
          exact hx this
        · have := he l
          rw [read_cons, if_neg (by omega), read_eq_unlisted (fun c hc => by
            have := hk c hc
            simp only at this
            omega), read_cons, if_pos rfl] at this
          exact hy this.symm
      subst hkl
      have hxy : x = y := by
        have := he k
        simpa [read_cons] using this
      subst hxy
      congr 1
      refine ih ⟨hm, fun c hc => h.2 c (by simp [hc])⟩ ⟨hm', fun c hc => h'.2 c (by simp [hc])⟩ fun a => ?_
      by_cases ha : k = a
      · subst ha
        rw [read_eq_unlisted fun c hc => by
            have := hk c hc
            simp only at this
            omega,
          read_eq_unlisted fun c hc => by
            have := hl c hc
            simp only at this
            omega]
      · have := he a
        simpa [read_cons, ha] using this

end Sys2Proof.Machine.Memory
end

