-- ==== Sys2Proof/Laws/State.lean ====
section
/-! SUPPORT. One lemma for each field after each shared update of the state, each true by definition, so that no proof unfolds a
record update. -/

namespace Sys2Proof.Machine

/-! R137: a completion without error writes `STATUS.ERR`, `STATUS.BUSY` and `ERR`. -/

@[simp] theorem succeed_mem (code : Byte) (s : State) : (succeed code s).mem = s.mem := rfl
@[simp] theorem succeed_status (code : Byte) (s : State) :
    (succeed code s).status =
      { s.status with busy := false, err := false } := rfl
@[simp] theorem succeed_err (code : Byte) (s : State) :
    (succeed code s).err =
      { code := 0, need := 0, cmd := code } := rfl
@[simp] theorem succeed_off (code : Byte) (s : State) : (succeed code s).off = s.off := rfl
@[simp] theorem succeed_len (code : Byte) (s : State) : (succeed code s).len = s.len := rfl
@[simp] theorem succeed_mkey (code : Byte) (s : State) : (succeed code s).mkey = s.mkey := rfl
@[simp] theorem succeed_hflags (code : Byte) (s : State) : (succeed code s).hflags = s.hflags := rfl
@[simp] theorem succeed_plen (code : Byte) (s : State) : (succeed code s).plen = s.plen := rfl
@[simp] theorem succeed_hsize (code : Byte) (s : State) : (succeed code s).hsize = s.hsize := rfl
@[simp] theorem succeed_olen (code : Byte) (s : State) : (succeed code s).olen = s.olen := rfl
@[simp] theorem succeed_key (code : Byte) (s : State) : (succeed code s).key = s.key := rfl
@[simp] theorem succeed_cmdl (code : Byte) (s : State) : (succeed code s).cmdl = s.cmdl := rfl
@[simp] theorem succeed_format (code : Byte) (s : State) : (succeed code s).format = s.format := rfl
@[simp] theorem succeed_remaining (code : Byte) (s : State) : (succeed code s).remaining = s.remaining := rfl
@[simp] theorem succeed_latencies (code : Byte) (s : State) : (succeed code s).latencies = s.latencies := rfl
@[simp] theorem succeed_draws (code : Byte) (s : State) : (succeed code s).draws = s.draws := rfl
@[simp] theorem succeed_host (code : Byte) (s : State) : (succeed code s).host = s.host := rfl
@[simp] theorem succeed_rdata (code : Byte) (s : State) : (succeed code s).rdata = s.rdata := rfl
@[simp] theorem succeed_conn (code : Byte) (s : State) : (succeed code s).conn = s.conn := rfl

/-! R137, R270: a completion with an error writes the same registers. -/

@[simp] theorem raise_mem (e : CmdError) (need code : Byte) (s : State) : (raise e need code s).mem = s.mem := rfl
@[simp] theorem raise_status (e : CmdError) (need code : Byte) (s : State) :
    (raise e need code s).status =
      { s.status with busy := false, err := true } := rfl
@[simp] theorem raise_err (e : CmdError) (need code : Byte) (s : State) :
    (raise e need code s).err =
      { code := e.code, need := need, cmd := code } := rfl
@[simp] theorem raise_off (e : CmdError) (need code : Byte) (s : State) : (raise e need code s).off = s.off := rfl
@[simp] theorem raise_len (e : CmdError) (need code : Byte) (s : State) : (raise e need code s).len = s.len := rfl
@[simp] theorem raise_mkey (e : CmdError) (need code : Byte) (s : State) : (raise e need code s).mkey = s.mkey := rfl
@[simp] theorem raise_hflags (e : CmdError) (need code : Byte) (s : State) :
    (raise e need code s).hflags =
      s.hflags := rfl
@[simp] theorem raise_plen (e : CmdError) (need code : Byte) (s : State) : (raise e need code s).plen = s.plen := rfl
@[simp] theorem raise_hsize (e : CmdError) (need code : Byte) (s : State) :
    (raise e need code s).hsize =
      s.hsize := rfl
@[simp] theorem raise_olen (e : CmdError) (need code : Byte) (s : State) : (raise e need code s).olen = s.olen := rfl
@[simp] theorem raise_key (e : CmdError) (need code : Byte) (s : State) : (raise e need code s).key = s.key := rfl
@[simp] theorem raise_cmdl (e : CmdError) (need code : Byte) (s : State) : (raise e need code s).cmdl = s.cmdl := rfl
@[simp] theorem raise_format (e : CmdError) (need code : Byte) (s : State) :
    (raise e need code s).format =
      s.format := rfl
@[simp] theorem raise_remaining (e : CmdError) (need code : Byte) (s : State) :
    (raise e need code s).remaining =
      s.remaining := rfl
@[simp] theorem raise_latencies (e : CmdError) (need code : Byte) (s : State) :
    (raise e need code s).latencies =
      s.latencies := rfl
@[simp] theorem raise_draws (e : CmdError) (need code : Byte) (s : State) :
    (raise e need code s).draws =
      s.draws := rfl
@[simp] theorem raise_host (e : CmdError) (need code : Byte) (s : State) : (raise e need code s).host = s.host := rfl
@[simp] theorem raise_rdata (e : CmdError) (need code : Byte) (s : State) :
    (raise e need code s).rdata =
      s.rdata := rfl
@[simp] theorem raise_conn (e : CmdError) (need code : Byte) (s : State) :
    (raise e need code s).conn =
      s.conn := rfl

/-! R62, R28: an output writes `OBUF` and `OLEN`. -/

theorem output_mem (bs : List Byte) (s : State) :
    (output bs s).mem =
      Memory.writeBytes s.mem (obufAt 0) bs := rfl
@[simp] theorem output_status (bs : List Byte) (s : State) : (output bs s).status = s.status := rfl
@[simp] theorem output_err (bs : List Byte) (s : State) : (output bs s).err = s.err := rfl
@[simp] theorem output_off (bs : List Byte) (s : State) : (output bs s).off = s.off := rfl
@[simp] theorem output_len (bs : List Byte) (s : State) : (output bs s).len = s.len := rfl
@[simp] theorem output_mkey (bs : List Byte) (s : State) : (output bs s).mkey = s.mkey := rfl
@[simp] theorem output_hflags (bs : List Byte) (s : State) : (output bs s).hflags = s.hflags := rfl
@[simp] theorem output_plen (bs : List Byte) (s : State) : (output bs s).plen = s.plen := rfl
@[simp] theorem output_hsize (bs : List Byte) (s : State) : (output bs s).hsize = s.hsize := rfl
@[simp] theorem output_olen (bs : List Byte) (s : State) : (output bs s).olen = BitVec.ofNat 16 bs.length := rfl
@[simp] theorem output_key (bs : List Byte) (s : State) : (output bs s).key = s.key := rfl
@[simp] theorem output_cmdl (bs : List Byte) (s : State) : (output bs s).cmdl = s.cmdl := rfl
@[simp] theorem output_format (bs : List Byte) (s : State) : (output bs s).format = s.format := rfl
@[simp] theorem output_remaining (bs : List Byte) (s : State) : (output bs s).remaining = s.remaining := rfl
@[simp] theorem output_latencies (bs : List Byte) (s : State) : (output bs s).latencies = s.latencies := rfl
@[simp] theorem output_draws (bs : List Byte) (s : State) : (output bs s).draws = s.draws := rfl
@[simp] theorem output_host (bs : List Byte) (s : State) : (output bs s).host = s.host := rfl
@[simp] theorem output_rdata (bs : List Byte) (s : State) : (output bs s).rdata = s.rdata := rfl
@[simp] theorem output_conn (bs : List Byte) (s : State) : (output bs s).conn = s.conn := rfl

/-! R211: a decoded header writes the header registers and sets `STATUS.HV`. -/

@[simp] theorem commitHeader_mem (h : Header) (s : State) : (commitHeader h s).mem = s.mem := rfl
@[simp] theorem commitHeader_status (h : Header) (s : State) :
    (commitHeader h s).status =
      { s.status with hv := true } := rfl
@[simp] theorem commitHeader_err (h : Header) (s : State) : (commitHeader h s).err = s.err := rfl
@[simp] theorem commitHeader_off (h : Header) (s : State) : (commitHeader h s).off = s.off := rfl
@[simp] theorem commitHeader_len (h : Header) (s : State) : (commitHeader h s).len = s.len := rfl
@[simp] theorem commitHeader_mkey (h : Header) (s : State) : (commitHeader h s).mkey = h.key.getD 0 := rfl
@[simp] theorem commitHeader_hflags (h : Header) (s : State) :
    (commitHeader h s).hflags =
      hflagsWord h.mask h.lead := rfl
@[simp] theorem commitHeader_plen (h : Header) (s : State) :
    (commitHeader h s).plen =
      BitVec.ofNat 64 h.payloadLength := rfl
@[simp] theorem commitHeader_hsize (h : Header) (s : State) :
    (commitHeader h s).hsize =
      BitVec.ofNat 4 h.headerSize := rfl
@[simp] theorem commitHeader_olen (h : Header) (s : State) : (commitHeader h s).olen = s.olen := rfl
@[simp] theorem commitHeader_key (h : Header) (s : State) : (commitHeader h s).key = s.key := rfl
@[simp] theorem commitHeader_cmdl (h : Header) (s : State) : (commitHeader h s).cmdl = s.cmdl := rfl
@[simp] theorem commitHeader_format (h : Header) (s : State) : (commitHeader h s).format = s.format := rfl
@[simp] theorem commitHeader_remaining (h : Header) (s : State) : (commitHeader h s).remaining = s.remaining := rfl
@[simp] theorem commitHeader_latencies (h : Header) (s : State) : (commitHeader h s).latencies = s.latencies := rfl
@[simp] theorem commitHeader_draws (h : Header) (s : State) : (commitHeader h s).draws = s.draws := rfl
@[simp] theorem commitHeader_host (h : Header) (s : State) : (commitHeader h s).host = s.host := rfl
@[simp] theorem commitHeader_rdata (h : Header) (s : State) : (commitHeader h s).rdata = s.rdata := rfl
@[simp] theorem commitHeader_conn (h : Header) (s : State) : (commitHeader h s).conn = s.conn := rfl

/-! R212: a decode error clears them. -/

@[simp] theorem clearHeader_mem (s : State) : (clearHeader s).mem = s.mem := rfl
@[simp] theorem clearHeader_status (s : State) : (clearHeader s).status = { s.status with hv := false } := rfl
@[simp] theorem clearHeader_err (s : State) : (clearHeader s).err = s.err := rfl
@[simp] theorem clearHeader_off (s : State) : (clearHeader s).off = s.off := rfl
@[simp] theorem clearHeader_len (s : State) : (clearHeader s).len = s.len := rfl
@[simp] theorem clearHeader_mkey (s : State) : (clearHeader s).mkey = 0 := rfl
@[simp] theorem clearHeader_hflags (s : State) : (clearHeader s).hflags = 0 := rfl
@[simp] theorem clearHeader_plen (s : State) : (clearHeader s).plen = 0 := rfl
@[simp] theorem clearHeader_hsize (s : State) : (clearHeader s).hsize = 0 := rfl
@[simp] theorem clearHeader_olen (s : State) : (clearHeader s).olen = s.olen := rfl
@[simp] theorem clearHeader_key (s : State) : (clearHeader s).key = s.key := rfl
@[simp] theorem clearHeader_cmdl (s : State) : (clearHeader s).cmdl = s.cmdl := rfl
@[simp] theorem clearHeader_format (s : State) : (clearHeader s).format = s.format := rfl
@[simp] theorem clearHeader_remaining (s : State) : (clearHeader s).remaining = s.remaining := rfl
@[simp] theorem clearHeader_latencies (s : State) : (clearHeader s).latencies = s.latencies := rfl
@[simp] theorem clearHeader_draws (s : State) : (clearHeader s).draws = s.draws := rfl
@[simp] theorem clearHeader_host (s : State) : (clearHeader s).host = s.host := rfl
@[simp] theorem clearHeader_rdata (s : State) : (clearHeader s).rdata = s.rdata := rfl
@[simp] theorem clearHeader_conn (s : State) : (clearHeader s).conn = s.conn := rfl

/-! R100: an exposed opcode writes `HFLAGS.OPCODE` and completes. -/

@[simp] theorem exposeOpcode_mem (op : BitVec 4) (s : State) : (exposeOpcode op s).mem = s.mem := rfl
@[simp] theorem exposeOpcode_status (op : BitVec 4) (s : State) :
    (exposeOpcode op s).status =
      { s.status with busy := false, err := false } := rfl
@[simp] theorem exposeOpcode_err (op : BitVec 4) (s : State) :
    (exposeOpcode op s).err =
      { code := 0, need := 0, cmd := 0x05 } := rfl
@[simp] theorem exposeOpcode_off (op : BitVec 4) (s : State) : (exposeOpcode op s).off = s.off := rfl
@[simp] theorem exposeOpcode_len (op : BitVec 4) (s : State) : (exposeOpcode op s).len = s.len := rfl
@[simp] theorem exposeOpcode_mkey (op : BitVec 4) (s : State) : (exposeOpcode op s).mkey = s.mkey := rfl
@[simp] theorem exposeOpcode_hflags (op : BitVec 4) (s : State) :
    (exposeOpcode op s).hflags =
      withOpcode s.hflags op := rfl
@[simp] theorem exposeOpcode_plen (op : BitVec 4) (s : State) : (exposeOpcode op s).plen = s.plen := rfl
@[simp] theorem exposeOpcode_hsize (op : BitVec 4) (s : State) : (exposeOpcode op s).hsize = s.hsize := rfl
@[simp] theorem exposeOpcode_olen (op : BitVec 4) (s : State) : (exposeOpcode op s).olen = s.olen := rfl
@[simp] theorem exposeOpcode_key (op : BitVec 4) (s : State) : (exposeOpcode op s).key = s.key := rfl
@[simp] theorem exposeOpcode_cmdl (op : BitVec 4) (s : State) : (exposeOpcode op s).cmdl = s.cmdl := rfl
@[simp] theorem exposeOpcode_format (op : BitVec 4) (s : State) : (exposeOpcode op s).format = s.format := rfl
@[simp] theorem exposeOpcode_remaining (op : BitVec 4) (s : State) :
    (exposeOpcode op s).remaining =
      s.remaining := rfl
@[simp] theorem exposeOpcode_latencies (op : BitVec 4) (s : State) :
    (exposeOpcode op s).latencies =
      s.latencies := rfl
@[simp] theorem exposeOpcode_draws (op : BitVec 4) (s : State) : (exposeOpcode op s).draws = s.draws := rfl
@[simp] theorem exposeOpcode_host (op : BitVec 4) (s : State) : (exposeOpcode op s).host = s.host := rfl
@[simp] theorem exposeOpcode_rdata (op : BitVec 4) (s : State) : (exposeOpcode op s).rdata = s.rdata := rfl
@[simp] theorem exposeOpcode_conn (op : BitVec 4) (s : State) : (exposeOpcode op s).conn = s.conn := rfl

/-! R160: absorbing the window writes the key context. -/

@[simp] theorem absorbWindow_mem (s : State) : (absorbWindow s).mem = s.mem := rfl
@[simp] theorem absorbWindow_status (s : State) : (absorbWindow s).status = s.status := rfl
@[simp] theorem absorbWindow_err (s : State) : (absorbWindow s).err = s.err := rfl
@[simp] theorem absorbWindow_off (s : State) : (absorbWindow s).off = s.off := rfl
@[simp] theorem absorbWindow_len (s : State) : (absorbWindow s).len = s.len := rfl
@[simp] theorem absorbWindow_mkey (s : State) : (absorbWindow s).mkey = s.mkey := rfl
@[simp] theorem absorbWindow_hflags (s : State) : (absorbWindow s).hflags = s.hflags := rfl
@[simp] theorem absorbWindow_plen (s : State) : (absorbWindow s).plen = s.plen := rfl
@[simp] theorem absorbWindow_hsize (s : State) : (absorbWindow s).hsize = s.hsize := rfl
@[simp] theorem absorbWindow_olen (s : State) : (absorbWindow s).olen = s.olen := rfl
@[simp] theorem absorbWindow_key (s : State) : (absorbWindow s).key = s.key.absorb (window s) := rfl
@[simp] theorem absorbWindow_cmdl (s : State) : (absorbWindow s).cmdl = s.cmdl := rfl
@[simp] theorem absorbWindow_format (s : State) : (absorbWindow s).format = s.format := rfl
@[simp] theorem absorbWindow_remaining (s : State) : (absorbWindow s).remaining = s.remaining := rfl
@[simp] theorem absorbWindow_latencies (s : State) : (absorbWindow s).latencies = s.latencies := rfl
@[simp] theorem absorbWindow_draws (s : State) : (absorbWindow s).draws = s.draws := rfl
@[simp] theorem absorbWindow_host (s : State) : (absorbWindow s).host = s.host := rfl
@[simp] theorem absorbWindow_rdata (s : State) : (absorbWindow s).rdata = s.rdata := rfl
@[simp] theorem absorbWindow_conn (s : State) : (absorbWindow s).conn = s.conn := rfl

/-! R161, R170, R173: finishing writes the key context, `OBUF`, `OLEN` and `STATUS.KOPEN`, and draws the bytes of `BLK`. -/

theorem finishKey_mem (s : State) :
    (finishKey s).mem =
      Memory.writeBytes s.mem (obufAt 0) (base64_20 (digestBytes (s.key.finish (blkOf (Config.finishBlk s.draws))).h)) := by
  simp [finishKey, output_mem]
@[simp] theorem finishKey_status (s : State) : (finishKey s).status = { s.status with kopen := false } := by simp [finishKey]
@[simp] theorem finishKey_err (s : State) : (finishKey s).err = s.err := by simp [finishKey]
@[simp] theorem finishKey_off (s : State) : (finishKey s).off = s.off := by simp [finishKey]
@[simp] theorem finishKey_len (s : State) : (finishKey s).len = s.len := by simp [finishKey]
@[simp] theorem finishKey_mkey (s : State) : (finishKey s).mkey = s.mkey := by simp [finishKey]
@[simp] theorem finishKey_hflags (s : State) : (finishKey s).hflags = s.hflags := by simp [finishKey]
@[simp] theorem finishKey_plen (s : State) : (finishKey s).plen = s.plen := by simp [finishKey]
@[simp] theorem finishKey_hsize (s : State) : (finishKey s).hsize = s.hsize := by simp [finishKey]
@[simp] theorem finishKey_olen (s : State) :
    (finishKey s).olen =
      BitVec.ofNat 16 (base64_20 (digestBytes (s.key.finish (blkOf (Config.finishBlk s.draws))).h)).length := by simp [finishKey]
@[simp] theorem finishKey_key (s : State) : (finishKey s).key = s.key.finish (blkOf (Config.finishBlk s.draws)) := by simp [finishKey]
@[simp] theorem finishKey_cmdl (s : State) : (finishKey s).cmdl = s.cmdl := by simp [finishKey]
@[simp] theorem finishKey_format (s : State) : (finishKey s).format = s.format := by simp [finishKey]
@[simp] theorem finishKey_remaining (s : State) : (finishKey s).remaining = s.remaining := by simp [finishKey]
@[simp] theorem finishKey_latencies (s : State) : (finishKey s).latencies = s.latencies := by simp [finishKey]
@[simp] theorem finishKey_draws (s : State) : (finishKey s).draws = s.draws + 1 := by simp [finishKey]
@[simp] theorem finishKey_host (s : State) : (finishKey s).host = s.host := by simp [finishKey]
@[simp] theorem finishKey_rdata (s : State) : (finishKey s).rdata = s.rdata := by simp [finishKey]
@[simp] theorem finishKey_conn (s : State) : (finishKey s).conn = s.conn := by simp [finishKey]

/-! R142: a failed check writes `STATUS.ERR`, `STATUS.BUSY` and `ERR`. -/

@[simp] theorem failedWith_mem (e : CmdError) (code : Byte) (s : State) : (failedWith e code s).mem = s.mem := rfl
@[simp] theorem failedWith_status (e : CmdError) (code : Byte) (s : State) :
    (failedWith e code s).status =
      { s.status with busy := false, err := true } := rfl
@[simp] theorem failedWith_err (e : CmdError) (code : Byte) (s : State) :
    (failedWith e code s).err =
      { code := e.code, need := 0, cmd := code } := rfl
@[simp] theorem failedWith_off (e : CmdError) (code : Byte) (s : State) : (failedWith e code s).off = s.off := rfl
@[simp] theorem failedWith_len (e : CmdError) (code : Byte) (s : State) : (failedWith e code s).len = s.len := rfl
@[simp] theorem failedWith_mkey (e : CmdError) (code : Byte) (s : State) : (failedWith e code s).mkey = s.mkey := rfl
@[simp] theorem failedWith_hflags (e : CmdError) (code : Byte) (s : State) :
    (failedWith e code s).hflags =
      s.hflags := rfl
@[simp] theorem failedWith_plen (e : CmdError) (code : Byte) (s : State) : (failedWith e code s).plen = s.plen := rfl
@[simp] theorem failedWith_hsize (e : CmdError) (code : Byte) (s : State) :
    (failedWith e code s).hsize =
      s.hsize := rfl
@[simp] theorem failedWith_olen (e : CmdError) (code : Byte) (s : State) : (failedWith e code s).olen = s.olen := rfl
@[simp] theorem failedWith_key (e : CmdError) (code : Byte) (s : State) : (failedWith e code s).key = s.key := rfl
@[simp] theorem failedWith_cmdl (e : CmdError) (code : Byte) (s : State) : (failedWith e code s).cmdl = s.cmdl := rfl
@[simp] theorem failedWith_format (e : CmdError) (code : Byte) (s : State) :
    (failedWith e code s).format =
      s.format := rfl
@[simp] theorem failedWith_remaining (e : CmdError) (code : Byte) (s : State) :
    (failedWith e code s).remaining =
      s.remaining := rfl
@[simp] theorem failedWith_latencies (e : CmdError) (code : Byte) (s : State) :
    (failedWith e code s).latencies =
      s.latencies := rfl
@[simp] theorem failedWith_draws (e : CmdError) (code : Byte) (s : State) :
    (failedWith e code s).draws =
      s.draws := rfl
@[simp] theorem failedWith_host (e : CmdError) (code : Byte) (s : State) : (failedWith e code s).host = s.host := rfl
@[simp] theorem failedWith_rdata (e : CmdError) (code : Byte) (s : State) :
    (failedWith e code s).rdata =
      s.rdata := rfl
@[simp] theorem failedWith_conn (e : CmdError) (code : Byte) (s : State) :
    (failedWith e code s).conn =
      s.conn := rfl

/-! R45: the reset state, for any contents of the buffers. -/

@[simp] theorem resetWith_mem (m : Memory) (b : Vector Byte 64) : (State.resetWith m b).mem = m := rfl
@[simp] theorem resetWith_blk (m : Memory) (b : Vector Byte 64) : (State.resetWith m b).key.blk = b := rfl
@[simp] theorem resetWith_format (m : Memory) (b : Vector Byte 64) : (State.resetWith m b).format = .cmd8 := rfl
@[simp] theorem resetWith_mlen (m : Memory) (b : Vector Byte 64) : (State.resetWith m b).key.mlen = 0 := rfl
@[simp] theorem resetWith_status (m : Memory) (b : Vector Byte 64) :
    (State.resetWith m b).status = { busy := false, err := false, hv := false, kopen := false } := rfl
@[simp] theorem resetWith_err (m : Memory) (b : Vector Byte 64) :
    (State.resetWith m b).err = { code := 0, need := 0, cmd := 0 } := rfl

end Sys2Proof.Machine
end

