-- ==== Sys2Proof/Laws/Ops.lean ====
section
/-! SUPPORT. What each shared operation can do, said once: the output buffer, the window, the range check, the host's
transactions, one step. -/

namespace Sys2Proof.Machine

/-! ### The output buffer -/

/-- R62: inside the output, the byte put out. -/
theorem readObuf_output (bs : List Byte) (s : State) {i : Nat} (h : i < bs.length) :
    readObuf (output bs s) i = bs.getD i 0 :=
  Memory.read_writeBytes_inside bs s.mem (obufAt 0) i h

/-- R62: outside `OBUF[0 : len(bs)]` every byte of both buffers is as before. -/
theorem read_output_outside (bs : List Byte) (s : State) {a : Nat} (h : a < 0x400 ∨ 0x400 + bs.length ≤ a) :
    (output bs s).mem.read a = s.mem.read a :=
  Memory.read_writeBytes_outside bs s.mem (obufAt 0) a h

/-- R61: an output leaves `BUF` alone. -/
theorem readBuf_output (bs : List Byte) (s : State) {i : Nat} (h : i < 0x400) :
    readBuf (output bs s) i = readBuf s i :=
  read_output_outside bs s (.inl h)

/-- An output of at most 1024 bytes keeps the canonical form. -/
theorem wf_output {bs : List Byte} {s : State} (h : s.mem.wf) (hb : bs.length ≤ 1024) : (output bs s).mem.wf :=
  Memory.wf_writeBytes h bs (by simp [obufAt]; omega)

/-! ### The window -/

@[simp] theorem window_length (s : State) : (window s).length = s.len.toNat := by simp [window]

theorem window_getD (s : State) {i : Nat} (h : i < s.len.toNat) :
    (window s).getD i 0 = readBuf s (s.off.toNat + i) := by
  simp [window, List.getD, h]

/-- R133: the window depends on `OFF`, `LEN` and the bytes of `BUF` in it alone. -/
theorem window_congr {s t : State} (ho : t.off = s.off) (hl : t.len = s.len)
    (hb : ∀ i < s.len.toNat, readBuf t (s.off.toNat + i) = readBuf s (s.off.toNat + i)) : window t = window s := by
  unfold window
  rw [ho, hl]
  exact List.map_congr_left fun i hi => hb i (List.mem_range.mp hi)

theorem inRange_iff (s : State) : inRange s = true ↔ s.off.toNat + s.len.toNat ≤ 1024 := by simp [inRange]

theorem onWindow_of_inRange {code : Byte} {run : State → State} {s : State} (h : inRange s = true) :
    onWindow code run s = run s := by simp [onWindow, h]

theorem onWindow_of_not_inRange {code : Byte} {run : State → State} {s : State} (h : inRange s = false) :
    onWindow code run s = raise .rangeError 0 code s := by simp [onWindow, h]

/-! ### The free bytes of `BLK` -/

theorem blkOf_get (f : Nat → Byte) (i : Fin 64) : (blkOf f)[i] = f i.val := by simp [blkOf]

/-! ### The host -/

theorem hostWrite_of_busy {a : Location} {v : PortWord} {s : State} (h : s.status.busy = true) :
    hostWrite a v s = s := by simp [hostWrite, h]

theorem hostWrite_of_idle {a : Location} {v : PortWord} {s : State} (h : s.status.busy = false) :
    hostWrite a v s = writeIdle a v s := by simp [hostWrite, h]

/-- R130: what the start of a command can do. -/
theorem startCommand_cases (code : Byte) (s : State) :
    (∃ k ks, s.latencies = k :: ks ∧
      startCommand code s =
        { s with cmdl := code, format := .cmd8, status := { s.status with busy := true }, remaining := k,
                 latencies := ks }) ∨
    (s.latencies = [] ∧
      startCommand code s =
        { s with cmdl := code, format := .cmd8, status := { s.status with busy := true },
                 remaining := Config.cmdLatency s.draws, draws := s.draws + 1 }) := by
  cases h : s.latencies with
  | nil => exact .inr ⟨rfl, by simp [startCommand, drawLatency, h]⟩
  | cons k ks => exact .inl ⟨k, ks, rfl, by simp [startCommand, drawLatency, h]⟩

/-- R42, R70: what a write can do while no command runs: store a byte of `BUF`, start a command, write one of three
registers, or nothing. -/
theorem writeIdle_cases (a : Location) (v : PortWord) (s : State) :
    (a.toNat < 0x400 ∧ writeIdle a v s = { s with mem := s.mem.write a.toNat (v.setWidth 8) }) ∨
    (a.toNat = 0x800 ∧ writeIdle a v s = startCommand (v.setWidth 8) s) ∨
    (a.toNat = 0x803 ∧ writeIdle a v s = { s with off := v.setWidth 16 }) ∨
    (a.toNat = 0x804 ∧ writeIdle a v s = { s with len := v.setWidth 16 }) ∨
    (a.toNat = 0x805 ∧ writeIdle a v s = { s with mkey := v.setWidth 32 }) ∨
    (0x400 ≤ a.toNat ∧ a.toNat ≠ 0x800 ∧ a.toNat ≠ 0x803 ∧ a.toNat ≠ 0x804 ∧ a.toNat ≠ 0x805 ∧
      writeIdle a v s = s) := by
  unfold writeIdle
  dsimp only
  by_cases h1 : a.toNat < 0x400
  · exact .inl ⟨h1, by simp [h1]⟩
  · by_cases h2 : a.toNat = 0x800
    · exact .inr (.inl ⟨h2, by simp [h2]⟩)
    · by_cases h3 : a.toNat = 0x803
      · exact .inr (.inr (.inl ⟨h3, by simp [h3]⟩))
      · by_cases h4 : a.toNat = 0x804
        · exact .inr (.inr (.inr (.inl ⟨h4, by simp [h4]⟩)))
        · by_cases h5 : a.toNat = 0x805
          · exact .inr (.inr (.inr (.inr (.inl ⟨h5, by simp [h5]⟩))))
          · exact .inr (.inr (.inr (.inr (.inr ⟨by omega, h2, h3, h4, h5, by simp [h1, h2, h3, h4, h5]⟩))))

/-- R243, R245: a decision of the host changes nothing of WSB, only what the host does next and its connection. -/
theorem goOn_cases (use : HostUse) (v : PortWord) (s : State) :
    ∃ h c, HostProgram.goOn use v s = { s with host := h, conn := c } := by
  unfold HostProgram.goOn HostProgram.close
  cases use <;> dsimp only
  case status | plen => split <;> exact ⟨_, _, rfl⟩
  all_goals exact ⟨_, _, rfl⟩

/-- What a transaction of the host can do: write, assert the reset input, or change what is the host's (and draw a free
value). -/
theorem performOp_cases (op : HostOp) (s : State) :
    (∃ a v, op = .write a v ∧ performOp op s = hostWrite a v s) ∨
    (op = .reset ∧ performOp op s = applyReset s) ∨
    (op ≠ .reset ∧ ∃ v n h c, performOp op s = { s with rdata := v, draws := n, host := h, conn := c }) := by
  cases op with
  | write a v => exact .inl ⟨a, v, rfl, rfl⟩
  | reset => exact .inr (.inl ⟨rfl, rfl⟩)
  | read a => exact .inr (.inr ⟨nofun, _, _, _, _, rfl⟩)
  | wait => exact .inr (.inr ⟨nofun, _, _, _, _, rfl⟩)
  | readFor use =>
    obtain ⟨h, c, e⟩ := goOn_cases use (hostRead use.location s) (readInto use.location s)
    exact .inr (.inr ⟨nofun, _, _, h, c, e⟩)

/-! ### One step -/

/-- What a step can do: the host's transaction with no command running, the host's transaction while one runs, or the
completion of the command. -/
theorem step_cases (s : State) :
    (s.status.busy = false ∧ step s = .next (hostStep s)) ∨
    (∃ k, s.status.busy = true ∧ s.remaining = k + 1 ∧ step s = .next (hostStep { s with remaining := k })) ∨
    (s.status.busy = true ∧ s.remaining = 0 ∧ step s = exec (fetch s) s) := by
  unfold step
  cases hb : s.status.busy with
  | false => exact .inl ⟨rfl, by simp⟩
  | true =>
    cases hr : s.remaining with
    | zero => exact .inr (.inr ⟨rfl, rfl, by simp⟩)
    | succ k => exact .inr (.inl ⟨k, rfl, rfl, by simp⟩)

theorem fetch_of_cmd8 {s : State} (h : s.format = .cmd8) : fetch s = decodeCommand s.cmdl := by simp [fetch, h]

end Sys2Proof.Machine
end

