-- ==== Sys2Proof/Laws/HeaderDecoder.lean ====
section
/-! SUPPORT. What `decodeHeader` answers, said once: one of its three errors or the whole header, by the length of the data
and byte 1. -/

namespace Sys2Proof.Machine

/-- R104: the extended length takes 0, 2 or 8 bytes. -/
theorem extBytes_cases (L : BitVec 7) :
    (L.toNat ≤ 125 ∧ extBytes L = 0) ∨ (L.toNat = 126 ∧ extBytes L = 2) ∨ (L.toNat = 127 ∧ extBytes L = 8) := by
  have := L.isLt
  unfold extBytes
  split
  · next h => exact .inl ⟨h, rfl⟩
  · split
    · next h => exact .inr (.inl ⟨h, rfl⟩)
    · exact .inr (.inr ⟨by omega, rfl⟩)

/-- R98: `payloadLength` of data that holds the whole header. -/
def payloadOf (data : List Byte) : Nat :=
  let L := (lengthOf (data.getD 1 0)).toNat
  if L ≤ 125 then L
  else if L = 126 then (data.getD 2 0).toNat * 256 + (data.getD 3 0).toNat
  else be (slice data 2 10)

/-- R208: the masking key of data that holds the whole header. -/
def keyOf (data : List Byte) : Option (BitVec 32) :=
  let hs := 2 + extBytes (lengthOf (data.getD 1 0))
  if maskOf (data.getD 1 0) then some (BitVec.ofNat 32 (be (slice data hs (hs + 4)))) else none

/-- R209: the header of data that holds it whole. -/
def headerOf (data : List Byte) : Header :=
  { lead := Lead.ofByte (data.getD 0 0), mask := maskOf (data.getD 1 0), payloadLength := payloadOf data,
    key := keyOf data, headerSize := headerBytes (data.getD 1 0) }

/-- R203, R204. -/
theorem resolveLength_eq (data : List Byte) :
    resolveLength data (lengthOf (data.getD 1 0)).toNat =
      if 2 ≤ data.length ∧ data.length < 2 + extBytes (lengthOf (data.getD 1 0)) then
        .error { error := .extendedLengthTruncated, need := 2 + extBytes (lengthOf (data.getD 1 0)) }
      else if data.length < 2 then resolveLength data (lengthOf (data.getD 1 0)).toNat
      else .ok (payloadOf data, 2 + extBytes (lengthOf (data.getD 1 0))) := by
  by_cases h2 : data.length < 2
  · rw [if_neg (by omega), if_pos h2]
  · rw [if_neg h2]
    unfold resolveLength payloadOf
    dsimp only
    rcases extBytes_cases (lengthOf (data.getD 1 0)) with ⟨h, hx⟩ | ⟨h, hx⟩ | ⟨h, hx⟩ <;> rw [hx]
    · rw [if_pos h, if_neg (by omega), if_pos h]
    · simp only [h]
      by_cases hl : data.length < 4
      · simp [hl, show 2 ≤ data.length by omega]
      · simp [hl]
    · simp only [h]
      by_cases hl : data.length < 10
      · simp [hl, show 2 ≤ data.length by omega]
      · simp [hl]

/-- R213, R215: the four answers. -/
theorem decodeHeader_cases (data : List Byte) :
    (data.length < 2 ∧ decodeHeader data = .error { error := .frameTooShort, need := 2 }) ∨
    (2 ≤ data.length ∧ data.length < 2 + extBytes (lengthOf (data.getD 1 0)) ∧
      decodeHeader data =
        .error { error := .extendedLengthTruncated, need := 2 + extBytes (lengthOf (data.getD 1 0)) }) ∨
    (2 ≤ data.length ∧ 2 + extBytes (lengthOf (data.getD 1 0)) ≤ data.length ∧
      data.length < headerBytes (data.getD 1 0) ∧ maskOf (data.getD 1 0) = true ∧
      decodeHeader data = .error { error := .maskingKeyTruncated, need := headerBytes (data.getD 1 0) }) ∨
    (2 ≤ data.length ∧ headerBytes (data.getD 1 0) ≤ data.length ∧ decodeHeader data = .ok (headerOf data)) := by
  unfold decodeHeader
  by_cases h2 : data.length < 2
  · exact .inl ⟨h2, by rw [if_pos h2]⟩
  right
  rw [if_neg h2]
  dsimp only
  rw [resolveLength_eq]
  by_cases hx : data.length < 2 + extBytes (lengthOf (data.getD 1 0))
  · exact .inl ⟨by omega, hx, by rw [if_pos ⟨by omega, hx⟩]⟩
  right
  rw [if_neg (by omega), if_neg h2]
  unfold resolveKey headerOf keyOf headerBytes
  dsimp only
  by_cases hm : maskOf (data.getD 1 0) = true
  · simp only [hm, if_true]
    by_cases hk : data.length < 2 + extBytes (lengthOf (data.getD 1 0)) + 4
    · exact .inl ⟨by omega, by omega, hk, trivial, by rw [if_pos hk]⟩
    · exact .inr ⟨by omega, by omega, by rw [if_neg hk]⟩
  · simp only [hm]
    exact .inr ⟨by omega, by simpa using hx, rfl⟩

/-- R205: the six header sizes. -/
theorem headerBytes_cases (b : Byte) :
    headerBytes b = 2 ∨ headerBytes b = 4 ∨ headerBytes b = 6 ∨ headerBytes b = 8 ∨ headerBytes b = 10 ∨
      headerBytes b = 14 := by
  unfold headerBytes
  rcases extBytes_cases (lengthOf b) with ⟨_, h⟩ | ⟨_, h⟩ | ⟨_, h⟩ <;> cases maskOf b <;> simp [h]

/-- R200: what DECODE can do: fail the range check, end in a decode error, or commit the header of its window. -/
theorem execDecode_cases (s : State) :
    (inRange s = false ∧ execDecode s = .next (raise .rangeError 0 0x05 s)) ∨
    (∃ e, inRange s = true ∧ decodeHeader (window s) = .error e ∧
      execDecode s = .next (raise e.error (BitVec.ofNat 8 e.need) 0x05 (clearHeader s))) ∨
    (inRange s = true ∧ decodeHeader (window s) = .ok (headerOf (window s)) ∧
      execDecode s = .next (succeed 0x05 (commitHeader (headerOf (window s)) s))) := by
  unfold execDecode
  cases hr : inRange s with
  | false => exact .inl ⟨rfl, by rw [onWindow_of_not_inRange hr]⟩
  | true =>
    rw [onWindow_of_inRange hr]
    right
    rcases decodeHeader_cases (window s) with ⟨_, h⟩ | ⟨_, _, h⟩ | ⟨_, _, _, _, h⟩ | ⟨_, _, h⟩
    · exact .inl ⟨_, rfl, h, by rw [h]⟩
    · exact .inl ⟨_, rfl, h, by rw [h]⟩
    · exact .inl ⟨_, rfl, h, by rw [h]⟩
    · exact .inr ⟨rfl, h, by rw [h]⟩

end Sys2Proof.Machine
end

