-- ==== Sys2Proof/Laws/Sha1.lean ====
section
/-! SUPPORT. The laws of SHA-1's blocks and of the key context: a message absorbed byte by byte is the message compressed
block by block. -/

namespace Sys2Proof.Machine

/-! ### Blocks -/

theorem blocks64_append (n k : Nat) (m r : List Byte) (h : m.length = 64 * n) :
    blocks64 (n + k) (m ++ r) = blocks64 n m ++ blocks64 k r := by
  induction n generalizing m with
  | zero =>
    have : m = [] := List.eq_nil_of_length_eq_zero (by omega)
    subst this
    simp [blocks64]
  | succ n ih =>
    rw [show n + 1 + k = (n + k) + 1 by omega, blocks64, blocks64, List.take_append_of_le_length (by omega),
      List.drop_append_of_le_length (by omega), ih (m.drop 64) (by simp; omega), List.cons_append]

/-- Whole blocks first, then the rest. -/
theorem compressAll_append (h : Chain) (m r : List Byte) (hm : m.length % 64 = 0) :
    compressAll h (m ++ r) = compressAll (compressAll h m) r := by
  have hl : m.length = 64 * (m.length / 64) := by omega
  unfold compressAll
  rw [List.length_append, show (m.length + r.length) / 64 = m.length / 64 + r.length / 64 by omega,
    blocks64_append _ _ _ _ hl, List.foldl_append]

theorem compressAll_short (h : Chain) (r : List Byte) (hr : r.length < 64) : compressAll h r = h := by
  unfold compressAll
  rw [Nat.div_eq_of_lt hr]
  rfl

theorem compressAll_block (h : Chain) (B : List Byte) (hB : B.length = 64) : compressAll h B = compress h B := by
  unfold compressAll
  rw [hB]
  simp [blocks64, List.take_of_length_le (le_of_eq hB)]

/-- The complete blocks of a message. -/
def wholeBlocks (m : List Byte) : List Byte := m.take (64 * (m.length / 64))

/-- The bytes after the complete blocks. -/
def lastBytes (m : List Byte) : List Byte := m.drop (64 * (m.length / 64))

theorem wholeBlocks_append_lastBytes (m : List Byte) : wholeBlocks m ++ lastBytes m = m := List.take_append_drop ..

theorem wholeBlocks_length (m : List Byte) : (wholeBlocks m).length = 64 * (m.length / 64) := by
  simp [wholeBlocks]
  omega

theorem lastBytes_length (m : List Byte) : (lastBytes m).length = m.length % 64 := by
  simp [lastBytes]
  omega

theorem compressAll_wholeBlocks (h : Chain) (m : List Byte) : compressAll h (wholeBlocks m) = compressAll h m := by
  conv_rhs => rw [← wholeBlocks_append_lastBytes m]
  rw [compressAll_append _ _ _ (by rw [wholeBlocks_length]; omega),
    compressAll_short _ (lastBytes m) (by rw [lastBytes_length]; omega)]

/-! ### The key context -/

@[simp] theorem absorb_nil (k : KeyCtx) : k.absorb [] = k := rfl

@[simp] theorem absorb_cons (k : KeyCtx) (x : Byte) (s : List Byte) : k.absorb (x :: s) = (k.absorbByte x).absorb s := rfl

@[simp] theorem absorbByte_mlen (k : KeyCtx) (x : Byte) : (k.absorbByte x).mlen = k.mlen + 1 := rfl

@[simp] theorem init_h (k : KeyCtx) : k.init.h = sha1IV := rfl
@[simp] theorem init_mlen (k : KeyCtx) : k.init.mlen = 0 := rfl
@[simp] theorem init_blk (k : KeyCtx) : k.init.blk = k.blk := rfl

/-- R171: a fresh key context has absorbed nothing. -/
theorem init_holds (k : KeyCtx) : k.init.Holds [] := by
  refine ⟨rfl, ?_, rfl⟩
  rw [compressAll_short _ _ (by simp)]
  rfl

theorem holds_iff (k : KeyCtx) (m : List Byte) :
    k.Holds m ↔ k.mlen.toNat = m.length ∧ k.h = compressAll sha1IV m ∧
      k.blk.toList.take (m.length % 64) = lastBytes m := Iff.rfl

theorem lastBytes_append_byte (m : List Byte) (x : Byte) (h : m.length % 64 ≠ 63) :
    lastBytes (m ++ [x]) = lastBytes m ++ [x] := by
  unfold lastBytes
  rw [List.length_append, List.length_singleton, show (m.length + 1) / 64 = m.length / 64 by omega,
    List.drop_append_of_le_length (by omega)]

theorem compressAll_append_byte (m : List Byte) (x : Byte) (h : m.length % 64 ≠ 63) :
    compressAll sha1IV (m ++ [x]) = compressAll sha1IV m := by
  rw [← compressAll_wholeBlocks, ← compressAll_wholeBlocks sha1IV m]
  congr 1
  unfold wholeBlocks
  rw [List.length_append, List.length_singleton, show (m.length + 1) / 64 = m.length / 64 by omega,
    List.take_append_of_le_length (by omega)]

theorem compressAll_append_last (m : List Byte) (x : Byte) (h : m.length % 64 = 63) :
    compressAll sha1IV (m ++ [x]) = compress (compressAll sha1IV m) (lastBytes m ++ [x]) := by
  conv_lhs => rw [← wholeBlocks_append_lastBytes m, List.append_assoc]
  rw [compressAll_append _ _ _ (by rw [wholeBlocks_length]; omega),
    compressAll_block _ _ (by simp [lastBytes_length]; omega), compressAll_wholeBlocks]

theorem take_set_self (l : List Byte) (i : Nat) (x : Byte) (h : i < l.length) :
    (l.set i x).take (i + 1) = l.take i ++ [x] := by
  rw [List.take_add_one, List.take_set_of_le (by omega)]
  simp [h]

/-- R36, R160: absorbing a byte appends it to the message. -/
theorem absorbByte_holds {k : KeyCtx} {m : List Byte} (h : k.Holds m) (x : Byte) (hl : m.length + 1 < 2 ^ 64) :
    (k.absorbByte x).Holds (m ++ [x]) := by
  obtain ⟨hm, hh, hb⟩ := (holds_iff k m).mp h
  have hmlen : (k.mlen + 1).toNat = m.length + 1 := by
    rw [BitVec.toNat_add, hm]
    exact Nat.mod_eq_of_lt hl
  have hfill : k.fill = m.length % 64 := by unfold KeyCtx.fill; rw [hm]
  have hblk : (k.blk.set k.fill x k.fill_lt).toList.take (m.length % 64 + 1) = lastBytes m ++ [x] := by
    rw [Vector.toList_set, hfill, take_set_self _ _ _ (by simp; omega), hb]
  refine (holds_iff _ _).mpr ⟨by rw [absorbByte_mlen, hmlen]; simp, ?_, ?_⟩
  · show (if (k.mlen + 1).toNat % 64 = 0 then compress k.h (k.blk.set k.fill x k.fill_lt).toList else k.h) = _
    rw [hmlen]
    by_cases hz : m.length % 64 = 63
    · rw [if_pos (by omega), compressAll_append_last m x hz, ← hblk, hh, hz,
        List.take_of_length_le (by simp)]
    · rw [if_neg (by omega), compressAll_append_byte m x hz, hh]
  · show (k.blk.set k.fill x k.fill_lt).toList.take ((m ++ [x]).length % 64) = lastBytes (m ++ [x])
    rw [List.length_append, List.length_singleton]
    by_cases hz : m.length % 64 = 63
    · have : (lastBytes (m ++ [x])).length = 0 := by rw [lastBytes_length]; simp; omega
      rw [List.eq_nil_of_length_eq_zero this, show (m.length + 1) % 64 = 0 by omega, List.take_zero]
    · rw [lastBytes_append_byte m x hz, ← hblk, show (m.length + 1) % 64 = m.length % 64 + 1 by omega]

/-- R36, R160: absorbing a byte sequence appends it to the message. -/
theorem absorb_holds {k : KeyCtx} {m : List Byte} (h : k.Holds m) (s : List Byte) (hl : m.length + s.length < 2 ^ 64) :
    (k.absorb s).Holds (m ++ s) := by
  induction s generalizing k m with
  | nil => simpa using h
  | cons x s ih =>
    simp only [List.length_cons] at hl
    have := ih (absorbByte_holds h x (by omega)) (by simp; omega)
    simpa using this

@[simp] theorem guid_length : guid.length = 36 := rfl

/-! ### Padding -/

@[simp] theorem padTail_length (T : Nat) : (padTail T).length = 9 + padZeros T := by
  simp [padTail]
  omega

/-- R153: padding fills the last block. -/
theorem padZeros_spec (T : Nat) : (T + 1 + padZeros T) % 64 = 56 ∧ padZeros T < 64 := by
  unfold padZeros
  omega

theorem pad_length_mod (m : List Byte) : (pad m).length % 64 = 0 := by
  have := padZeros_spec m.length
  simp [pad]
  omega

@[simp] theorem finish_mlen (k : KeyCtx) (b : Vector Byte 64) : (k.finish b).mlen = (k.absorb guid).mlen := rfl
@[simp] theorem finish_blk (k : KeyCtx) (b : Vector Byte 64) : (k.finish b).blk = b := rfl

theorem finish_h_eq (k : KeyCtx) (b : Vector Byte 64) :
    (k.finish b).h =
      compressAll (k.absorb guid).h
        ((k.absorb guid).blk.toList.take (k.absorb guid).fill ++ padTail (k.absorb guid).mlen.toNat) := rfl

/-- R161: finishing a message leaves the digest of the message and the GUID, and `MLEN` 36 more. -/
theorem finish_of_holds {k : KeyCtx} {m : List Byte} (h : k.Holds m) (b : Vector Byte 64)
    (hl : m.length + 36 < 2 ^ 64) :
    (k.finish b).h = sha1 (m ++ guid) ∧ (k.finish b).mlen.toNat = m.length + 36 := by
  have hg := absorb_holds h guid (by simpa using hl)
  obtain ⟨hm, hh, hb⟩ := (holds_iff _ _).mp hg
  refine ⟨?_, by rw [finish_mlen, hm]; simp⟩
  have hfill : (k.absorb guid).fill = (m ++ guid).length % 64 := by
    unfold KeyCtx.fill
    rw [hm]
  rw [finish_h_eq, hh, hfill, hb, hm]
  generalize m ++ guid = n
  have hn : pad n = wholeBlocks n ++ (lastBytes n ++ padTail n.length) := by
    rw [← List.append_assoc, wholeBlocks_append_lastBytes]
    rfl
  rw [sha1, hn, compressAll_append sha1IV (wholeBlocks n) _ (by rw [wholeBlocks_length]; omega),
    compressAll_wholeBlocks]

/-! ### Base64 -/

@[simp] theorem base64_20_length (D : List Byte) : (base64_20 D).length = 28 := by
  simp [base64_20, b64Group, b64Last, List.length_flatMap]

@[simp] theorem digestBytes_length (h : Chain) : (digestBytes h).length = 20 := by simp [digestBytes]

end Sys2Proof.Machine
end

