-- ==== Sys2Proof/Laws/Exec.lean ====
section
/-! SUPPORT. What `exec` can do, said once for all instructions: every invariant and frame follows from these cases. -/

namespace Sys2Proof.Machine

/-! ### What a completion leaves in the buffers -/

@[simp] theorem readBuf_succeed (code : Byte) (s : State) (i : Nat) : readBuf (succeed code s) i = readBuf s i := rfl
@[simp] theorem readObuf_succeed (code : Byte) (s : State) (i : Nat) : readObuf (succeed code s) i = readObuf s i := rfl
@[simp] theorem readBuf_absorbWindow (s : State) (i : Nat) : readBuf (absorbWindow s) i = readBuf s i := rfl

/-- R62: outside `OBUF[0:28]` an ACCEPT or a KFINAL leaves every byte as it was. -/
theorem read_finishKey (s : State) {a : Nat} (h : a < 0x400 ∨ 0x400 + 28 ≤ a) :
    (finishKey s).mem.read a = s.mem.read a := by
  unfold finishKey
  rw [read_output_outside _ _ (by rw [base64_20_length]; exact h)]

theorem readBuf_finishKey (s : State) {i : Nat} (h : i < 0x400) : readBuf (finishKey s) i = readBuf s i :=
  read_finishKey s (.inl h)

/-- R161: `OBUF[0:28]` holds the digest in Base64. -/
theorem readObuf_finishKey (s : State) {i : Nat} (h : i < 28) :
    readObuf (finishKey s) i = (base64_20 (digestBytes (finishKey s).key.h)).getD i 0 := by
  rw [finishKey_key]
  unfold finishKey
  rw [readObuf_output _ _ (by rw [base64_20_length]; exact h)]

/-- The accept key in `OBUF` keeps the canonical form. -/
theorem wf_finishKey {s : State} (h : s.mem.wf) : (finishKey s).mem.wf := by
  unfold finishKey
  exact wf_output h (by rw [base64_20_length]; decide)

/-- R34, R160: absorbing adds the length to `MLEN`. -/
theorem absorb_mlen (k : KeyCtx) (l : List Byte) : (k.absorb l).mlen = k.mlen + BitVec.ofNat 64 l.length := by
  induction l generalizing k with
  | nil => simp
  | cons x l ih =>
    rw [absorb_cons, ih, absorbByte_mlen, List.length_cons, BitVec.add_assoc]
    congr 1
    rw [Nat.add_comm, BitVec.ofNat_add]
    rfl

@[simp] theorem unmask_length (d k : List Byte) : (unmask d k).length = d.length := by simp [unmask]

/-! ### What an instruction can do -/

/-- R213, R261: the answers of a decode error, with the number of bytes it asks for. -/
def DecodeFailure (e : CmdError) (need : Byte) : Prop :=
  (e = .frameTooShort ∧ need = 2) ∨ (e = .extendedLengthTruncated ∧ (need = 4 ∨ need = 10)) ∨
    (e = .maskingKeyTruncated ∧ (need = 6 ∨ need = 8 ∨ need = 14))

theorem decodeFailure_of_error {data : List Byte} {e : HeaderError} (h : decodeHeader data = .error e) :
    DecodeFailure e.error (BitVec.ofNat 8 e.need) := by
  rcases decodeHeader_cases data with ⟨_, h'⟩ | ⟨h2, hx, h'⟩ | ⟨_, hx, hk, hm, h'⟩ | ⟨_, _, h'⟩ <;>
    rw [h'] at h
  · obtain rfl := Except.error.inj h
    exact .inl ⟨rfl, rfl⟩
  · obtain rfl := Except.error.inj h
    refine .inr (.inl ⟨rfl, ?_⟩)
    rcases extBytes_cases (lengthOf (data.getD 1 0)) with ⟨_, h⟩ | ⟨_, h⟩ | ⟨_, h⟩ <;> rw [h] at hx ⊢
    · omega
    · exact .inl rfl
    · exact .inr rfl
  · obtain rfl := Except.error.inj h
    refine .inr (.inr ⟨rfl, ?_⟩)
    unfold headerBytes
    rw [hm]
    rcases extBytes_cases (lengthOf (data.getD 1 0)) with ⟨_, h⟩ | ⟨_, h⟩ | ⟨_, h⟩ <;> rw [h]
    · exact .inl rfl
    · exact .inr (.inl rfl)
    · exact .inr (.inr rfl)
  · cases h

/-- R27, R98, R205: what every committed header has: a size and a length that fit each other. -/
def Header.Fits (h : Header) : Prop :=
  let base := h.headerSize - (if h.mask then 4 else 0)
  (h.mask = true → 6 ≤ h.headerSize) ∧ h.headerSize ≤ 14 ∧ (h.mask = false → h.key = none) ∧
    ((base = 2 ∧ h.payloadLength ≤ 125) ∨ (base = 4 ∧ h.payloadLength < 65536) ∨
      (base = 10 ∧ h.payloadLength < 2 ^ 64))

theorem be_slice_lt (s : List Byte) (a b : Nat) : be (slice s a b) < 256 ^ (b - a) :=
  lt_of_lt_of_le (be_lt _) (Nat.pow_le_pow_right (by decide) (by simp [slice]))

theorem payloadOf_lt (data : List Byte) :
    ((lengthOf (data.getD 1 0)).toNat ≤ 125 → payloadOf data ≤ 125) ∧
      ((lengthOf (data.getD 1 0)).toNat = 126 → payloadOf data < 65536) ∧ payloadOf data < 2 ^ 64 := by
  have h1 := (data.getD 2 0).isLt
  have h2 := (data.getD 3 0).isLt
  have h3 := be_slice_lt data 2 10
  rw [show (256 : Nat) ^ (10 - 2) = 2 ^ 64 by decide] at h3
  unfold payloadOf
  dsimp only
  generalize (lengthOf (data.getD 1 0)).toNat = L
  generalize (data.getD 2 0).toNat = x at *
  generalize (data.getD 3 0).toNat = y at *
  split
  · omega
  · split <;> omega

theorem headerOf_fits (data : List Byte) : (headerOf data).Fits := by
  obtain ⟨p1, p2, p3⟩ := payloadOf_lt data
  have hb : (headerOf data).headerSize =
      2 + extBytes (lengthOf (data.getD 1 0)) + (if (headerOf data).mask then 4 else 0) := rfl
  have hk : (headerOf data).mask = false → (headerOf data).key = none := fun h => by
    have h : maskOf (data.getD 1 0) = false := h
    simp only [headerOf, keyOf, h]
    rfl
  have hp : (headerOf data).payloadLength = payloadOf data := rfl
  refine ⟨fun h => ?_, ?_, hk, ?_⟩ <;>
    rcases extBytes_cases (lengthOf (data.getD 1 0)) with ⟨hl, hx⟩ | ⟨hl, hx⟩ | ⟨hl, hx⟩ <;> rw [hb, hx]
  any_goals (rw [h]; decide)
  any_goals (cases (headerOf data).mask <;> decide)
  · exact .inl ⟨by omega, hp ▸ p1 hl⟩
  · exact .inr (.inl ⟨by omega, hp ▸ p2 hl⟩)
  · exact .inr (.inr ⟨by omega, hp ▸ p3⟩)

/-- R132 to R137: everything an instruction can do. -/
theorem exec_cases {i : Instr} {s t : State} (h : exec i s = .next t) :
    (∃ e, (e = .illegalCommand ∨ e = .rangeError ∨ e = .sequenceError ∨ e = .lengthOverflow) ∧
      i.format = .cmd8 ∧ i ≠ .kinit ∧ t = raise e 0 i.code s) ∨
    (i = .kinit ∧ t = succeed 0x02 { s with key := s.key.init, status := { s.status with kopen := true } }) ∨
    (i = .kupdate ∧ inRange s = true ∧ s.status.kopen = true ∧
      s.key.mlen.toNat + s.len.toNat ≤ Config.keyMax ∧ t = succeed 0x03 (absorbWindow s)) ∨
    (i = .kfinal ∧ s.status.kopen = true ∧ t = succeed 0x04 (finishKey s)) ∨
    (i = .accept ∧ inRange s = true ∧
      t = succeed 0x01 (finishKey (absorbWindow { s with key := s.key.init }))) ∨
    (i = .unmask ∧ inRange s = true ∧ t = succeed 0x06 (output (unmask (window s) (keyBytes s)) s)) ∨
    (i = .decode ∧ inRange s = true ∧ ∃ e need, DecodeFailure e need ∧ t = raise e need 0x05 (clearHeader s)) ∨
    ((i = .decode ∨ i.format = .frameHdr16) ∧ ∃ hd : Header, (i.wf = true → hd.Fits) ∧ t = succeed 0x05 (commitHeader hd s)) ∨
    (i.format = .frameOpcode4 ∧ ∃ op, t = exposeOpcode op s) := by
  cases i with
  | accept =>
    simp only [exec, execAccept, onWindow, Host.Outcome.next.injEq] at h
    split at h
    · next hr => exact .inr (.inr (.inr (.inr (.inl ⟨rfl, hr, h.symm⟩))))
    · exact .inl ⟨.rangeError, by simp, rfl, by simp, h.symm⟩
  | kinit =>
    simp only [exec, execKinit, Host.Outcome.next.injEq] at h
    exact .inr (.inl ⟨rfl, h.symm⟩)
  | kupdate =>
    simp only [exec, execKupdate, onWindow, Host.Outcome.next.injEq] at h
    split at h
    · next hr =>
      split at h
      · next hk =>
        split at h
        · next hm => exact .inr (.inr (.inl ⟨rfl, hr, hk, hm, h.symm⟩))
        · exact .inl ⟨.lengthOverflow, by simp, rfl, by simp, h.symm⟩
      · exact .inl ⟨.sequenceError, by simp, rfl, by simp, h.symm⟩
    · exact .inl ⟨.rangeError, by simp, rfl, by simp, h.symm⟩
  | kfinal =>
    simp only [exec, execKfinal, Host.Outcome.next.injEq] at h
    split at h
    · next hk => exact .inr (.inr (.inr (.inl ⟨rfl, hk, h.symm⟩)))
    · exact .inl ⟨.sequenceError, by simp, rfl, by simp, h.symm⟩
  | decode =>
    rcases execDecode_cases s with ⟨_, hx⟩ | ⟨e, hr, he, hx⟩ | ⟨_, _, hx⟩ <;> rw [exec, hx] at h <;>
      injection h with h <;> subst h
    · exact .inl ⟨.rangeError, by simp, rfl, by simp, rfl⟩
    · exact .inr (.inr (.inr (.inr (.inr (.inr (.inl ⟨rfl, hr, _, _, decodeFailure_of_error he, rfl⟩))))))
    · exact .inr (.inr (.inr (.inr (.inr (.inr (.inr (.inl ⟨.inl rfl, _, fun _ => headerOf_fits _, rfl⟩)))))))
  | unmask =>
    simp only [exec, execUnmask, onWindow, Host.Outcome.next.injEq] at h
    split at h
    · next hr => exact .inr (.inr (.inr (.inr (.inr (.inl ⟨rfl, hr, h.symm⟩)))))
    · exact .inl ⟨.rangeError, by simp, rfl, by simp, h.symm⟩
  | illegal code =>
    simp only [exec, execIllegal, Host.Outcome.next.injEq] at h
    exact .inl ⟨.illegalCommand, by simp, rfl, by simp, h.symm⟩
  | hdr7 lead len =>
    injection h with h
    refine .inr (.inr (.inr (.inr (.inr (.inr (.inr (.inl ⟨.inr rfl, _, fun hw => ?_, h.symm⟩)))))))
    exact ⟨(fun h => nomatch h), (by decide : 2 ≤ 14), fun _ => rfl, .inl ⟨rfl, of_decide_eq_true hw⟩⟩
  | hdr7m lead len key =>
    injection h with h
    refine .inr (.inr (.inr (.inr (.inr (.inr (.inr (.inl ⟨.inr rfl, _, fun hw => ?_, h.symm⟩)))))))
    exact ⟨fun _ => (by decide : 6 ≤ 6), (by decide : 6 ≤ 14), (fun h => nomatch h), .inl ⟨rfl, of_decide_eq_true hw⟩⟩
  | hdr16 lead len =>
    injection h with h
    refine .inr (.inr (.inr (.inr (.inr (.inr (.inr (.inl ⟨.inr rfl, _, fun _ => ?_, h.symm⟩)))))))
    exact ⟨(fun h => nomatch h), (by decide : 4 ≤ 14), fun _ => rfl, .inr (.inl ⟨rfl, len.isLt⟩)⟩
  | hdr16m lead len key =>
    injection h with h
    refine .inr (.inr (.inr (.inr (.inr (.inr (.inr (.inl ⟨.inr rfl, _, fun _ => ?_, h.symm⟩)))))))
    exact ⟨fun _ => (by decide : 6 ≤ 8), (by decide : 8 ≤ 14), (fun h => nomatch h), .inr (.inl ⟨rfl, len.isLt⟩)⟩
  | hdr64 lead len =>
    injection h with h
    refine .inr (.inr (.inr (.inr (.inr (.inr (.inr (.inl ⟨.inr rfl, _, fun _ => ?_, h.symm⟩)))))))
    exact ⟨(fun h => nomatch h), (by decide : 10 ≤ 14), fun _ => rfl, .inr (.inr ⟨rfl, len.isLt⟩)⟩
  | hdr64m lead len key =>
    injection h with h
    refine .inr (.inr (.inr (.inr (.inr (.inr (.inr (.inl ⟨.inr rfl, _, fun _ => ?_, h.symm⟩)))))))
    exact ⟨fun _ => (by decide : 6 ≤ 14), (by decide : 14 ≤ 14), (fun h => nomatch h), .inr (.inr ⟨rfl, len.isLt⟩)⟩
  | frCont | frText | frBin | frClose | frPing | frPong | frRsvdData _ | frRsvdCtrl _ =>
    injection h with h
    exact .inr (.inr (.inr (.inr (.inr (.inr (.inr (.inr ⟨rfl, _, h.symm⟩)))))))

end Sys2Proof.Machine
end

