-- ==== Sys2Proof/Laws/HostSequences.lean ====
section
/-! SUPPORT. What the host's sequences do while no command runs: the transactions of R111 run one after another, and how runs
are put together. -/

namespace Sys2Proof.Machine

/-- A run leads from one state to another. -/
def Reaches (s t : State) : Prop := ∃ k, Host.Core.run core k s = .next t

theorem run_next {n : Nat} {s t : State} (h : step s = .next t) :
    Host.Core.run core (n + 1) s = Host.Core.run core n t := by
  have h : core.step s = .next t := h
  simp only [Host.Core.run, h]

theorem Reaches.refl (s : State) : Reaches s s := ⟨0, rfl⟩

/-- One step, then a run. -/
theorem Reaches.head {s t u : State} (h : step s = .next t) (hr : Reaches t u) : Reaches s u := by
  obtain ⟨k, hk⟩ := hr
  exact ⟨k + 1, (run_next h).trans hk⟩

theorem Reaches.trans {s t u : State} (h : Reaches s t) (hr : Reaches t u) : Reaches s u := by
  obtain ⟨k, hk⟩ := h
  induction k generalizing s with
  | zero => injection hk with hk; exact hk ▸ hr
  | succ k ih =>
    rcases hs : step s with v | e | e
    · exact .head hs (ih ((run_next hs).symm.trans hk))
    · cases e
    · have hs : core.step s = .refused e := hs
      simp [Host.Core.run, hs] at hk

/-- With no command running a step is the host's next transaction. -/
theorem step_of_idle {s : State} {op : HostOp} {rest : List HostOp} (hb : s.status.busy = false) (hh : s.host = op :: rest) :
    step s = .next (performOp op { s with host := rest }) := by simp [step, hb, hostStep, hh]

theorem step_of_write {s : State} {a : Location} {v : PortWord} {rest : List HostOp} (hb : s.status.busy = false)
    (hh : s.host = .write a v :: rest) : step s = .next (writeIdle a v { s with host := rest }) := by
  rw [step_of_idle hb hh]
  exact congrArg _ (hostWrite_of_idle (s := { s with host := rest }) hb)

theorem load_cons (i : Nat) (b : Byte) (bs : List Byte) :
    HostProgram.load i (b :: bs) = .write (BitVec.ofNat 12 i) (b.setWidth 64) :: HostProgram.load (i + 1) bs := by
  simp [HostProgram.load, List.mapIdx_cons, Nat.add_assoc, Nat.add_comm 1]

theorem writeIdle_buf (s : State) (b : Byte) {i : Nat} (h : i < 0x400) :
    writeIdle (BitVec.ofNat 12 i) (b.setWidth 64) s = { s with mem := s.mem.write i b } := by
  have hi : (BitVec.ofNat 12 i).toNat = i := by simp; omega
  have hb : (b.setWidth 64).setWidth 8 = b := by simp
  unfold writeIdle
  rw [hi]
  simp only [h, if_true, hb]

/-- R111: `LOAD i, bs` stores the bytes at `BUF[i : i+len(bs)]`. -/
theorem reaches_load (bs : List Byte) (i : Nat) (rest : List HostOp) {s : State} (hb : s.status.busy = false)
    (hh : s.host = HostProgram.load i bs ++ rest) (hi : i + bs.length ≤ 1024) :
    Reaches s { s with mem := Memory.writeBytes s.mem i bs, host := rest } := by
  induction bs generalizing s i with
  | nil =>
    obtain rfl : s.host = rest := hh
    exact .refl s
  | cons b bs ih =>
    rw [List.length_cons] at hi
    rw [load_cons, List.cons_append] at hh
    refine .head (step_of_write hb hh) ?_
    rw [writeIdle_buf _ _ (by omega)]
    exact ih (i + 1) (s := { s with mem := s.mem.write i b, host := HostProgram.load (i + 1) bs ++ rest }) hb rfl (by omega)

/-- R111: `WIN off, len` writes `OFF` and `LEN`. -/
theorem reaches_win (off len : Nat) (rest : List HostOp) {s : State} (hb : s.status.busy = false)
    (hh : s.host = HostProgram.win off len ++ rest) :
    Reaches s { s with off := BitVec.ofNat 16 off, len := BitVec.ofNat 16 len, host := rest } := by
  have h16 (n : Nat) : (BitVec.ofNat 64 n).setWidth 16 = BitVec.ofNat 16 n := by
    apply BitVec.eq_of_toNat_eq
    simp
  let s1 : State := { s with off := BitVec.ofNat 16 off, host := .write 0x804 (BitVec.ofNat 64 len) :: rest }
  have h1 : step s = .next s1 := by rw [step_of_write hb hh]; simp [writeIdle, h16, s1]
  have h2 : step s1 = .next { s1 with len := BitVec.ofNat 16 len, host := rest } := by
    rw [step_of_write (s := s1) hb rfl]
    simp [writeIdle, h16]
  exact .head h1 (.head h2 (.refl _))

/-- R243: one byte of the message content read. -/
theorem step_content {s : State} {i : Nat} {rest : List HostOp} {m : List Byte} {ms : List (List Byte)}
    (hb : s.status.busy = false) (hm : s.conn.messages = m :: ms) (hh : s.host = .readFor (.content i) :: rest)
    (hi : i < 1024) :
    step s = .next { s with
      host := rest, rdata := (readObuf s i).setWidth 64,
      conn := { s.conn with messages := (m ++ [readObuf s i]) :: ms } } := by
  have hl : (BitVec.ofNat 12 (obufAt i)).toNat = 0x400 + i := by simp [obufAt]; omega
  have hv : ∀ h, hostRead (BitVec.ofNat 12 (obufAt i)) { s with host := h } = (readObuf s i).setWidth 64 := by
    intro h
    simp only [hostRead, hb, readIdle, hl]
    simp [show 0x400 + i < 0x800 by omega, readObuf, obufAt]
  have hw : ((readObuf s i).setWidth 64).setWidth 8 = readObuf s i := by simp
  rw [step_of_idle hb hh]
  simp only [performOp, HostUse.location, HostProgram.goOn, readInto, Connection.addByte, hm, hv, hw, readDraws, hb,
    Bool.false_and, Bool.false_eq_true, if_false, Nat.add_zero]

/-- R243: reading the message content adds the bytes `OBUF[i : i+n]` to the newest message. -/
theorem reaches_content (n i : Nat) (rest : List HostOp) {s : State} {m : List Byte} {ms : List (List Byte)}
    (f : Nat → Byte) (hf : ∀ j, readObuf s j = f j) (hb : s.status.busy = false) (hm : s.conn.messages = m :: ms)
    (hh : s.host = ((List.range' i n).map fun j => .readFor (.content j)) ++ rest) (hi : i + n ≤ 1024) :
    ∃ v, Reaches s { s with
      host := rest, rdata := v, conn := { s.conn with messages := (m ++ (List.range' i n).map f) :: ms } } := by
  induction n generalizing s i m with
  | zero =>
    obtain rfl : s.host = rest := hh
    exact ⟨s.rdata, by simpa [← hm] using Reaches.refl s⟩
  | succ n ih =>
    rw [List.range'_succ, List.map_cons, List.cons_append] at hh
    have hs := step_content hb hm hh (by omega)
    rw [hf] at hs
    obtain ⟨v, hr⟩ := ih (i + 1) (m := m ++ [f i]) (s := { s with
      host := ((List.range' (i + 1) n).map fun j => .readFor (.content j)) ++ rest, rdata := (f i).setWidth 64,
      conn := { s.conn with messages := (m ++ [f i]) :: ms } }) hf hb rfl rfl (by omega)
    refine ⟨v, .head hs ?_⟩
    rw [List.range'_succ, List.map_cons, List.append_cons m (f i) (List.map f _)]
    exact hr

end Sys2Proof.Machine
end

