-- ==== Sys2Proof/Laws/PerInstr.lean ====
section
/-! SUPPORT. Facts about every instruction as syntax, one lemma for each constructor. -/

namespace Sys2Proof.Laws.EncodeLen

open Sys2Proof.Machine

/-- R90, R100, R103, R104: a command code and a frame opcode take one byte; a well-formed header takes as many bytes as its
byte 1 says, one of the six sizes. -/
def Statement (i : Instr) : Prop :=
  (i.format ≠ .frameHdr16 → (encode i).length = 1) ∧
    (i.format = .frameHdr16 → i.wf = true →
      ∃ b0 b1 s, encode i = b0 :: b1 :: s ∧ (encode i).length = headerBytes b1 ∧
        (encode i).length ∈ [2, 4, 6, 8, 10, 14])

/-- R104: the header length of a short layout. -/
theorem headerBytes_short (mask : Bool) (len : BitVec 7) (h : len.toNat ≤ 125) :
    headerBytes (lengthByte mask len) = if mask then 6 else 2 := by
  unfold headerBytes extBytes
  rw [lengthOf_lengthByte, maskOf_lengthByte, if_pos h]
  cases mask <;> rfl

theorem accept : Statement .accept := ⟨fun _ => rfl, nofun⟩
theorem kinit : Statement .kinit := ⟨fun _ => rfl, nofun⟩
theorem kupdate : Statement .kupdate := ⟨fun _ => rfl, nofun⟩
theorem kfinal : Statement .kfinal := ⟨fun _ => rfl, nofun⟩
theorem decode : Statement .decode := ⟨fun _ => rfl, nofun⟩
theorem unmask : Statement .unmask := ⟨fun _ => rfl, nofun⟩
theorem illegal (code : Byte) : Statement (.illegal code) := ⟨fun _ => rfl, nofun⟩

theorem hdr16 (lead : Lead) (len : BitVec 16) : Statement (.hdr16 lead len) :=
  ⟨fun h => absurd rfl h, fun _ _ => ⟨_, _, _, rfl, by simp [encode]; rfl, by simp [encode]⟩⟩

theorem hdr16m (lead : Lead) (len : BitVec 16) (key : BitVec 32) : Statement (.hdr16m lead len key) :=
  ⟨fun h => absurd rfl h, fun _ _ => ⟨_, _, _, rfl, by simp [encode]; rfl, by simp [encode]⟩⟩

theorem hdr64 (lead : Lead) (len : BitVec 64) : Statement (.hdr64 lead len) :=
  ⟨fun h => absurd rfl h, fun _ _ => ⟨_, _, _, rfl, by simp [encode]; rfl, by simp [encode]⟩⟩

theorem hdr64m (lead : Lead) (len : BitVec 64) (key : BitVec 32) : Statement (.hdr64m lead len key) :=
  ⟨fun h => absurd rfl h, fun _ _ => ⟨_, _, _, rfl, by simp [encode]; rfl, by simp [encode]⟩⟩

theorem hdr7 (lead : Lead) (len : BitVec 7) : Statement (.hdr7 lead len) :=
  ⟨fun h => absurd rfl h, fun _ hw =>
    ⟨_, _, _, rfl, (headerBytes_short false len (of_decide_eq_true hw)).symm, by simp [encode]⟩⟩

theorem hdr7m (lead : Lead) (len : BitVec 7) (key : BitVec 32) : Statement (.hdr7m lead len key) :=
  ⟨fun h => absurd rfl h, fun _ hw =>
    ⟨_, _, _, rfl, by rw [headerBytes_short true len (of_decide_eq_true hw)]; simp [encode], by simp [encode]⟩⟩

theorem frCont : Statement .frCont := ⟨fun _ => rfl, nofun⟩
theorem frText : Statement .frText := ⟨fun _ => rfl, nofun⟩
theorem frBin : Statement .frBin := ⟨fun _ => rfl, nofun⟩
theorem frClose : Statement .frClose := ⟨fun _ => rfl, nofun⟩
theorem frPing : Statement .frPing := ⟨fun _ => rfl, nofun⟩
theorem frPong : Statement .frPong := ⟨fun _ => rfl, nofun⟩
theorem frRsvdData (opcode : BitVec 4) : Statement (.frRsvdData opcode) := ⟨fun _ => rfl, nofun⟩
theorem frRsvdCtrl (opcode : BitVec 4) : Statement (.frRsvdCtrl opcode) := ⟨fun _ => rfl, nofun⟩

end Sys2Proof.Laws.EncodeLen
end

