-- ==== Sys2Proof/Tests/Slice0.lean ====
section
/-! SUPPORT. The model's own tests. Expected values are those of spec/95_test_vectors.md (the vector's name stands at each
test) or are written out from the tables of spec/30_encoding.md. Then the witnesses: for each statement with hypotheses a
concrete state and operands that meet them. -/

namespace Sys2Proof.Tests

open Sys2Proof Sys2Proof.Machine

-- The kernel runs below are checked one after another: side by side, each on a thread of its own, they ask for more stacks
-- than the checks' memory limit grants.
set_option Elab.async false

/-! ### Helpers -/

/-- The reset state with `bs` in `BUF` at `off` and the window on it. -/
def at' (off : Nat) (bs : List Byte) : State :=
  { State.reset with
    mem := Memory.writeBytes [] off bs, off := BitVec.ofNat 16 off, len := BitVec.ofNat 16 bs.length }

/-- The reset state with a window on `BUF` as reset leaves it. -/
def win' (off len : Nat) : State := { State.reset with off := BitVec.ofNat 16 off, len := BitVec.ofNat 16 len }

/-- An open key context that has absorbed `m`. -/
def opened (m : List Byte) (s : State) : State :=
  { s with key := s.key.init.absorb m, status := { s.status with kopen := true } }

/-- An open key context whose `MLEN` is `n`. -/
def openedAt (n : Nat) (s : State) : State :=
  { s with key := { s.key with mlen := BitVec.ofNat 64 n }, status := { s.status with kopen := true } }

/-- A valid header held. -/
def holding (f : BitVec 9) (s : State) : State := { s with hflags := f, hsize := 2, status := { s.status with hv := true } }

/-- What an observer sees of the state `exec` answers with. -/
def after {α : Type} (i : Instr) (s : State) (f : State → α) : Option α :=
  match exec i s with
  | .next t => some (f t)
  | _ => none

/-- `STATUS` and `ERR`. -/
def reply (s : State) : BitVec 4 × BitVec 24 := (s.status.word, s.err.word)

/-- `HFLAGS`, `PLEN`, `MKEY`, `HSIZE`. -/
def header (s : State) : BitVec 9 × BitVec 64 × BitVec 32 × BitVec 4 := (s.hflags, s.plen, s.mkey, s.hsize)

/-- `OBUF[0:n]`. -/
def out (n : Nat) (s : State) : List Byte := (List.range n).map (readObuf s)

/-- The token of V1. -/
def tokenV1 : List Byte :=
  [0x64, 0x47, 0x68, 0x6C, 0x49, 0x48, 0x4E, 0x68, 0x62, 0x58, 0x42, 0x73, 0x5A, 0x53, 0x42, 0x75, 0x62, 0x32, 0x35,
   0x6A, 0x5A, 0x51, 0x3D, 0x3D]

/-- The accept key of V1. -/
def keyV1 : List Byte :=
  [0x73, 0x33, 0x70, 0x50, 0x4C, 0x4D, 0x42, 0x69, 0x54, 0x78, 0x61, 0x51, 0x39, 0x6B, 0x59, 0x47, 0x7A, 0x7A, 0x68,
   0x5A, 0x52, 0x62, 0x4B, 0x2B, 0x78, 0x4F, 0x6F, 0x3D]

/-! ### Ill-formed terms, one for each check of `Instr.wf` -/

theorem test_wf_refuses_a_command_as_illegal : (Instr.illegal 0x03).wf = false := by decide
theorem test_wf_refuses_hdr7_of_126 : (Instr.hdr7 ⟨true, false, false, false, 1⟩ 126).wf = false := by decide
theorem test_wf_refuses_hdr7m_of_127 : (Instr.hdr7m ⟨true, false, false, false, 1⟩ 127 0).wf = false := by decide
theorem test_wf_refuses_a_named_opcode_as_data : (Instr.frRsvdData 0x2).wf = false := by decide
theorem test_wf_refuses_a_control_opcode_as_data : (Instr.frRsvdData 0x8).wf = false := by decide
theorem test_wf_refuses_a_named_opcode_as_control : (Instr.frRsvdCtrl 0xA).wf = false := by decide
theorem test_wf_admits_the_bounds :
    (Instr.illegal 0x07).wf = true ∧ (Instr.illegal 0xFF).wf = true ∧
      (Instr.hdr7 ⟨true, false, false, false, 1⟩ 125).wf = true ∧ (Instr.frRsvdData 0x7).wf = true ∧
      (Instr.frRsvdCtrl 0xB).wf = true := by decide

/-! ### Words written out from the tables decode to their instruction -/

/-- R91: the codes, one byte each. -/
theorem test_decode_commands :
    decode .cmd8 [0b00000001] = .ok (.accept, []) ∧ decode .cmd8 [0b00000010] = .ok (.kinit, []) ∧
      decode .cmd8 [0b00000011] = .ok (.kupdate, []) ∧ decode .cmd8 [0b00000100] = .ok (.kfinal, []) ∧
      decode .cmd8 [0b00000101] = .ok (.decode, []) ∧ decode .cmd8 [0b00000110] = .ok (.unmask, []) := by decide

/-- R92: the bounds of the illegal codes. -/
theorem test_decode_illegal :
    decode .cmd8 [0x00] = .ok (.illegal 0x00, []) ∧ decode .cmd8 [0x07] = .ok (.illegal 0x07, []) ∧
      decode .cmd8 [0xFF] = .ok (.illegal 0xFF, []) := by decide

/-- R103, H3: `0111 1111`, `0 1111101`. -/
theorem test_decode_hdr7 :
    decode .frameHdr16 [0b01111111, 0b01111101] = .ok (.hdr7 ⟨false, true, true, true, 0xF⟩ 125, []) := by decide

/-- R103, H4: `1 000 0001`, `1 0000000`, the key; the byte after the header is left. -/
theorem test_decode_hdr7m :
    decode .frameHdr16 [0b10000001, 0b10000000, 0x01, 0x02, 0x03, 0x04, 0x99] =
      .ok (.hdr7m ⟨true, false, false, false, 1⟩ 0 0x01020304, [0x99]) := by decide

/-- R103, H6: byte 1 is `0 1111110`. -/
theorem test_decode_hdr16 :
    decode .frameHdr16 [0b10000001, 0b01111110, 0x00, 0x7E] = .ok (.hdr16 ⟨true, false, false, false, 1⟩ 126, []) := by
  decide

/-- R103, H7: byte 1 is `1 1111110`. -/
theorem test_decode_hdr16m :
    decode .frameHdr16 [0b10000010, 0b11111110, 0x01, 0x00, 0x01, 0x02, 0x03, 0x04] =
      .ok (.hdr16m ⟨true, false, false, false, 2⟩ 256 0x01020304, []) := by decide

/-- R103, H8: byte 1 is `0 1111111`. -/
theorem test_decode_hdr64 :
    decode .frameHdr16 [0b10000010, 0b01111111, 0x01, 0x23, 0x45, 0x67, 0x89, 0xAB, 0xCD, 0xEF] =
      .ok (.hdr64 ⟨true, false, false, false, 2⟩ 0x0123456789ABCDEF, []) := by decide

/-- R103, H10: byte 1 is `1 1111111`. -/
theorem test_decode_hdr64m :
    decode .frameHdr16 [0b10000010, 0b11111111, 0, 0, 0, 0, 0, 1, 0, 0, 0xAA, 0xBB, 0xCC, 0xDD] =
      .ok (.hdr64m ⟨true, false, false, false, 2⟩ 65536 0xAABBCCDD, []) := by decide

/-- R100: the named opcodes and the bounds of the two reserved groups. -/
theorem test_decode_opcodes :
    decodeOpcode 0b0000 = .frCont ∧ decodeOpcode 0b0001 = .frText ∧ decodeOpcode 0b0010 = .frBin ∧
      decodeOpcode 0b1000 = .frClose ∧ decodeOpcode 0b1001 = .frPing ∧ decodeOpcode 0b1010 = .frPong ∧
      decodeOpcode 0b0011 = .frRsvdData 3 ∧ decodeOpcode 0b0111 = .frRsvdData 7 ∧
      decodeOpcode 0b1011 = .frRsvdCtrl 0xB ∧ decodeOpcode 0b1111 = .frRsvdCtrl 0xF := by decide

/-- H12, H15, H18, H22: what is no header is rejected by name. -/
theorem test_decode_rejects :
    decode .frameHdr16 [0x81] = .error .frameTooShort ∧
      decode .frameHdr16 [0x81, 0x7E, 0x00] = .error .extendedLengthTruncated ∧
      decode .frameHdr16 [0x81, 0xFF, 0, 0, 0, 0, 0, 0, 0] = .error .extendedLengthTruncated ∧
      decode .frameHdr16 [0x81, 0xFE, 0x00, 0x05, 0x01, 0x02, 0x03] = .error .maskingKeyTruncated ∧
      decode .cmd8 [] = .error .empty ∧ decode .frameOpcode4 [0x10] = .error .opcodeTooWide := by decide

/-! ### SHA-1 and Base64 -/

/-- The check value `SHA1("abc")`. -/
theorem test_sha1_abc :
    sha1 [0x61, 0x62, 0x63] = ⟨0xA9993E36, 0x4706816A, 0xBA3E2571, 0x7850C26C, 0x9CD0D89D⟩ := by decide +kernel

/-- V1, the schedule: `W[16]` and `W[79]` of block 0. -/
theorem test_schedule_v1 :
    (schedule ((pad (tokenV1 ++ guid)).take 64)).getD 16 0 = 0x363CA02C ∧
      (schedule ((pad (tokenV1 ++ guid)).take 64)).getD 79 0 = 0xFF3FF806 := by decide +kernel

/-- V1, the last line of the Base64 table. -/
theorem test_base64_v1 : b64Last 0xC4 0xEA = [0x78, 0x4F, 0x6F, 0x3D] := by decide

/-! ### The instructions, one step each -/

/-- V1. -/
theorem test_accept_v1 :
    after .accept (at' 0 tokenV1) (fun t => (reply t, t.olen, t.key.h, t.key.mlen, out 28 t)) =
      some ((0x0, 0x010000), 28, ⟨0xB37A4F2C, 0xC0624F16, 0x90F64606, 0xCF385945, 0xB2BEC4EA⟩, 60, keyV1) := by
  decide +kernel

/-- A4: the padding corner `T mod 64 = 56`. -/
theorem test_accept_a4 :
    after .accept (at' 0 (List.replicate 20 0x41)) (fun t => (t.key.h, t.key.mlen)) =
      some (⟨0xFF733EE4, 0x7172C049, 0x5CB5853B, 0xB352583B, 0xE5D5D74E⟩, 56) := by decide +kernel

/-- A11. -/
theorem test_kinit_a11 :
    after .kinit State.reset (fun t => (reply t, t.key.h, t.key.mlen)) =
      some ((0x8, 0x020000), ⟨0x67452301, 0xEFCDAB89, 0x98BADCFE, 0x10325476, 0xC3D2E1F0⟩, 0) := by decide +kernel

/-- A13, the second KUPDATE: no block is complete yet. -/
theorem test_kupdate_a13 :
    after .kupdate (opened (tokenV1.take 10) (at' 100 (tokenV1.drop 10))) (fun t => (reply t, t.key.h, t.key.mlen)) =
      some ((0x8, 0x030000), ⟨0x67452301, 0xEFCDAB89, 0x98BADCFE, 0x10325476, 0xC3D2E1F0⟩, 24) := by decide +kernel

/-- A16: no context is open. -/
theorem test_kupdate_a16 : after .kupdate State.reset reply = some (0x2, 0x030006) := by decide +kernel

/-- A13, the KFINAL. -/
theorem test_kfinal_a13 :
    after .kfinal (opened tokenV1 State.reset) (fun t => (reply t, t.olen, t.key.mlen, out 28 t)) =
      some ((0x0, 0x040000), 28, 60, keyV1) := by decide +kernel

/-- A17. -/
theorem test_kfinal_a17 :
    after .kfinal State.reset (fun t => (reply t, t.olen)) = some ((0x2, 0x040006), 0) := by decide +kernel

/-- H10, at an offset as in H25. -/
theorem test_decode_h10 :
    after .decode (at' 1010 [0x82, 0xFF, 0, 0, 0, 0, 0, 1, 0, 0, 0xAA, 0xBB, 0xCC, 0xDD])
      (fun t => (reply t, header t)) = some ((0x4, 0x050000), 0x182, 65536, 0xAABBCCDD, 14) := by decide +kernel

/-- H22, with a header held before. -/
theorem test_decode_h22 :
    after .decode (holding 0x081 (at' 0 [0x81, 0xFE, 0x00, 0x05, 0x01, 0x02, 0x03])) (fun t => (reply t, header t)) =
      some ((0x2, 0x050803), 0, 0, 0, 0) := by decide +kernel

/-- U1. -/
theorem test_unmask_u1 :
    after .unmask (at' 0 [0x7F, 0x9F, 0x4D, 0x51, 0x58]) (fun t => t.olen) = some 5 ∧
      after .unmask { at' 0 [0x7F, 0x9F, 0x4D, 0x51, 0x58] with mkey := 0x37FA213D } (out 6) =
        some [0x48, 0x65, 0x6C, 0x6C, 0x6F, 0x00] := by decide +kernel

/-- M13: the sum is taken without wrap-around. -/
theorem test_unmask_m13 :
    after .unmask { State.reset with off := 0xFFFF, len := 0xFFFF } reply = some (0x2, 0x060005) := by decide +kernel

/-- H28: a header held stays. -/
theorem test_illegal_h28 :
    after (.illegal 0xFF) (holding 0x081 State.reset) (fun t => (reply t, t.hflags)) =
      some ((0x6, 0xFF0004), 0x081) := by decide +kernel

/-- H3, H4: the short layouts. -/
theorem test_short_layouts :
    after (.hdr7 ⟨false, true, true, true, 0xF⟩ 125) State.reset (fun t => (reply t, header t)) =
        some ((0x4, 0x050000), 0x07F, 125, 0, 2) ∧
      after (.hdr7m ⟨true, false, false, false, 1⟩ 0 0x01020304) State.reset header =
        some (0x181, 0, 0x01020304, 6) := by decide +kernel

/-- H6, H7: the 16-bit layouts. -/
theorem test_hdr16_layouts :
    after (.hdr16 ⟨true, false, false, false, 1⟩ 126) State.reset header = some (0x081, 126, 0, 4) ∧
      after (.hdr16m ⟨true, false, false, false, 2⟩ 256 0x01020304) State.reset header =
        some (0x182, 256, 0x01020304, 8) := by decide +kernel

/-- H9, H11: the 64-bit layouts. -/
theorem test_hdr64_layouts :
    after (.hdr64 ⟨true, false, false, false, 2⟩ 0xFFFFFFFFFFFFFFFF) State.reset header =
        some (0x082, 0xFFFFFFFFFFFFFFFF, 0, 10) ∧
      after (.hdr64m ⟨true, true, true, true, 0xF⟩ 0xFFFFFFFFFFFFFFFF 0xFFFFFFFF) State.reset header =
        some (0x1FF, 0xFFFFFFFFFFFFFFFF, 0xFFFFFFFF, 14) := by decide +kernel

/-- R100, the opcode exposure rows of 95: `HFLAGS.OPCODE` in a header whose flag bits stay. -/
theorem test_frame_opcodes :
    after .frClose (holding 0x080 State.reset) (fun t => t.hflags) = some 0x088 ∧
      after .frPing (holding 0x080 State.reset) (fun t => t.hflags) = some 0x089 ∧
      after .frPong (holding 0x080 State.reset) (fun t => t.hflags) = some 0x08A ∧
      after .frCont (holding 0x00F State.reset) (fun t => t.hflags) = some 0x000 ∧
      after .frText (holding 0x180 State.reset) (fun t => t.hflags) = some 0x181 ∧
      after .frBin (holding 0x180 State.reset) (fun t => t.hflags) = some 0x182 ∧
      after (.frRsvdData 3) (holding 0x080 State.reset) (fun t => t.hflags) = some 0x083 ∧
      after (.frRsvdCtrl 0xF) (holding 0x070 State.reset) (fun t => t.hflags) = some 0x07F := by decide +kernel

/-! ### The host port and a step -/

/-- M9 to M11: the low bits are kept. -/
theorem test_writes_keep_the_low_bits :
    hostRead 0x803 (hostWrite 0x803 0x12345 State.reset) = 0x2345 ∧
      hostRead 0x805 (hostWrite 0x805 0x1AABBCCDD State.reset) = 0xAABBCCDD ∧
      hostRead 0x005 (hostWrite 0x005 0x1FF State.reset) = 0xFF := by decide +kernel

/-- M12: read-only and empty locations. -/
theorem test_read_only_locations :
    hostRead 0x806 (hostWrite 0x806 0x1FF State.reset) = 0 ∧ hostRead 0x400 (hostWrite 0x400 0x55 State.reset) = 0 ∧
      hostWrite 0x900 1 State.reset = State.reset := by decide +kernel

/-- R32, the word of `ERR`: H22's `0x050803`. -/
theorem test_err_word : (ErrReg.mk 3 8 0x05).word = 0x050803 := by decide

/-- M8: `WR CMD, 0x105` starts DECODE, which the next step runs, with M3's reply. -/
theorem test_step_m8 :
    (match step { State.reset with host := [.write 0x800 0x105], latencies := [0] } with
     | .next t => match step t with
       | .next u => some (t.status.busy, reply u)
       | _ => none
     | _ => none) = some (true, 0x2, 0x050201) := by decide +kernel

/-- A table word is run by the first step after reset: H1's window and a code. -/
theorem test_fetch_word :
    fetch (State.reset.withFetchWord 16 0x8100) = .hdr7 ⟨true, false, false, false, 1⟩ 0 ∧
      fetch (State.reset.withFetchWord 8 0x05) = .decode ∧ fetch (State.reset.withFetchWord 4 0xA) = .frPong := by
  decide +kernel

/-! ### The host's streaming iteration -/

/-- P2's read of 11 bytes. -/
def readP2 : List Byte := [0x81, 0x85, 0x37, 0xFA, 0x21, 0x3D, 0x7F, 0x9F, 0x4D, 0x51, 0x58]

/-- P2: the transactions down to the first `RD STATUS`, and those after the host's check. -/
theorem test_streaming_p2 :
    HostProgram.streamIteration readP2 =
        [.write 0x000 0x81, .write 0x001 0x85, .write 0x002 0x37, .write 0x003 0xFA, .write 0x004 0x21, .write 0x005 0x3D,
         .write 0x006 0x7F, .write 0x007 0x9F, .write 0x008 0x4D, .write 0x009 0x51, .write 0x00A 0x58, .write 0x803 0,
         .write 0x804 0xB, .write 0x800 5, .wait, .readFor (.status 11)] ∧
      HostProgram.unmaskPayload 6 5 =
        [.write 0x803 6, .write 0x804 5, .write 0x800 6, .wait, .readFor (.content 0), .readFor (.content 1),
         .readFor (.content 2), .readFor (.content 3), .readFor (.content 4)] ∧
      (HostUse.content 4).location = 0x404 := by decide +kernel

/-- The queue and the connection after the host's next step. -/
def hostAfter (s : State) : List HostOp × Connection := ((hostStep s).host, (hostStep s).conn)

/-- P4: bit 1 of `STATUS` set. P2: `6 + 5 <= 11`. R245: `6 + 5 > 10`, and a sum that would wrap in 64 bits. -/
theorem test_streaming_decisions :
    hostAfter { State.reset with
        status := { busy := false, err := true, hv := false, kopen := false }, host := [.readFor (.status 7), .read 0x802] } =
        ([], ⟨some .decodeError, []⟩) ∧
      hostAfter { State.reset with hsize := 6, host := [.readFor (.hsize 11)] } = ([.readFor (.plen 11 6)], ⟨none, []⟩) ∧
      hostAfter { State.reset with plen := 5, host := [.readFor (.plen 11 6)] } =
        (HostProgram.unmaskPayload 6 5, ⟨none, [[]]⟩) ∧
      hostAfter { State.reset with plen := 5, host := [.readFor (.plen 10 6), .read 0x801] } =
        ([], ⟨some .frameExceedsBuffer, []⟩) ∧
      hostAfter { State.reset with plen := 0xFFFFFFFFFFFFFFFF, host := [.readFor (.plen 1024 14)] } =
        ([], ⟨some .frameExceedsBuffer, []⟩) := by decide +kernel

/-! ### Witnesses: states and operands that meet the hypotheses of each statement with hypotheses, clause by clause -/

/-- The command of a code latched and due at the next step. -/
def due (f : Format) (code : Byte) (s : State) : State := latch f code s

/-- A command running for `k` more steps, with the host's queue. -/
def busyFor (k : Nat) (host : List HostOp) : State :=
  { State.reset with status := { busy := true, err := false, hv := false, kopen := false }, remaining := k, host := host }

theorem witness_ResetRegistersAreZero : 0x800 ≤ (0x800 : Location).toNat ∧ 0x800 ≤ (0xFFF : Location).toNat := by decide

theorem witness_ResetInputGivesResetState :
    ({ State.reset with host := [.reset] } : State).host = .reset :: [] ∧
      (({ State.reset with host := [.reset] } : State).status.busy = true → State.reset.remaining ≠ 0) ∧
      (busyFor 1 [.reset]).host = .reset :: [] ∧ (busyFor 1 [.reset]).status.busy = true ∧
      (busyFor 1 [.reset]).remaining ≠ 0 := by decide +kernel

theorem witness_NothingHappensByItself : State.reset.status.busy = false ∧ State.reset.host = [] := ⟨rfl, rfl⟩

theorem witness_FirstCommandsAfterReset : 0 < 28 ∧ 27 < 28 := by decide

theorem witness_ReadsFollowTheAddressMap :
    State.reset.status.busy = false ∧ 0 < 1024 ∧ 1023 < 1024 ∧ 0x810 ≤ (0x810 : Location).toNat ∧
      0x810 ≤ (0xFFF : Location).toNat := by decide

theorem witness_WritesKeepTheLowBits :
    State.reset.status.busy = false ∧ (0x3FF : Location).toNat < 0x400 ∧ 0 ≠ (0x3FF : Location).toNat ∧
      (0x400 ≤ (0x400 : Location).toNat ∧ (0x400 : Location) ≠ 0x800 ∧ (0x400 : Location) ≠ 0x803 ∧
        (0x400 : Location) ≠ 0x804 ∧ (0x400 : Location) ≠ 0x805) ∧
      ((0x806 : Location) ≠ 0x800 ∧ (0x806 : Location) ≠ 0x803 ∧ (0x806 : Location) ≠ 0x804 ∧
        (0x806 : Location) ≠ 0x805) ∧
      0x810 ≤ (0x810 : Location).toNat := by decide

theorem witness_WriteToCmdStartsACommand : State.reset.status.busy = false := rfl

theorem witness_BusyPort :
    State.reset.status.busy = false ∧ (busyFor 1 [.wait]).status.busy = true ∧ (busyFor 1 [.wait]).remaining = 0 + 1 ∧
      (busyFor 1 [.wait]).host = .wait :: [] ∧ HostOp.wait ≠ .reset := by decide +kernel

theorem witness_ReadsHaveNoSideEffect :
    ({ State.reset with host := [.read 0x000] } : State).status.busy = false ∧
      ({ State.reset with host := [.read 0x000] } : State).host = .read 0x000 :: [] := ⟨rfl, rfl⟩

theorem witness_StepRunsTheDecodedInstruction :
    (let s := due .cmd8 0x06 State.reset
     s.status.busy = true ∧ s.remaining = 0 ∧ s.format = .cmd8 ∧ decode .cmd8 [s.cmdl] = .ok (.unmask, [])) ∧
    (let s := due .frameHdr16 0x05 (at' 0 [0x81, 0x05, 0x48])
     s.status.busy = true ∧ s.remaining = 0 ∧ s.format = .frameHdr16 ∧ inRange s = true ∧
       decode .frameHdr16 (window s) = .ok (.hdr7 ⟨true, false, false, false, 1⟩ 5, [0x48])) ∧
    (let s := due .frameOpcode4 0x05 (at' 0 [0x89])
     s.status.busy = true ∧ s.remaining = 0 ∧ s.format = .frameOpcode4 ∧ inRange s = true ∧ window s = 0x89 :: []) ∧
    ((busyFor 1 []).status.busy = true ∧ (busyFor 1 []).remaining = 0 + 1) ∧ State.reset.status.busy = false := by
  decide +kernel

theorem witness_PlacedWordIsRun :
    (0x06 < 2 ^ 8 ∧ decodeTableWord 8 0x06 = some .unmask) ∧
      (0x007E817E < 2 ^ 32 ∧ decodeTableWord 32 0x007E817E = some (.hdr16 ⟨true, false, false, false, 1⟩ 126)) ∧
      0xF < 2 ^ 4 ∧ decodeTableWord 4 0xF = some (.frRsvdCtrl 0xF) := by decide +kernel

theorem witness_EveryCommandCompletes : (busyFor 3 [.wait]).status.busy = true := rfl

theorem witness_LatencyIsInvisible :
    let s := { State.reset with host := [.write 0x800 0x06, .wait] }
    s.status.busy = false ∧ s.host = .write 0x800 0x06 :: .wait :: [] := ⟨rfl, rfl⟩

theorem witness_DecodeOfEncode :
    (Instr.illegal 0x00).wf = true ∧ (Instr.illegal 0x07).wf = true ∧
      (Instr.hdr7m ⟨true, false, false, false, 1⟩ 125 0xFFFFFFFF).wf = true ∧
      (Instr.hdr64m ⟨true, true, true, true, 0xF⟩ 0xFFFFFFFFFFFFFFFF 0).wf = true ∧
      (Instr.frRsvdData 3).wf = true ∧ (Instr.frRsvdCtrl 0xF).wf = true := by decide

theorem witness_EncodeOfDecode :
    decode .frameHdr16 [0x81, 0x7E, 0x00, 0x7E, 0x55] = .ok (.hdr16 ⟨true, false, false, false, 1⟩ 126, [0x55]) ∧
      decode .cmd8 [0x07, 0x01] = .ok (.illegal 0x07, [0x01]) ∧ decode .frameOpcode4 [0x0F] = .ok (.frRsvdCtrl 0xF, []) := by
  decide

theorem witness_HeaderLengthFromByteOne :
    (headerBytes 0xFE ≤ [(0x81 : Byte), 0xFE, 0, 0, 0, 0, 0, 0].length) ∧
      [(0x81 : Byte), 0xFE, 0, 0, 0, 0, 0].length < headerBytes 0xFE ∧ headerBytes 0x7D ≤ [(0x81 : Byte), 0x7D].length := by
  decide

theorem witness_IllegalCommandFails : (0x00 : Byte) = 0x00 ∧ 7 ≤ (0x07 : Byte).toNat ∧ 7 ≤ (0xFF : Byte).toNat := by decide

theorem witness_RangeErrorFails :
    1024 < (win' 1023 2).off.toNat + (win' 1023 2).len.toNat ∧
      (∃ t, exec .unmask (win' 1024 0) = .next t) ∧ (win' 1024 0).off.toNat + (win' 1024 0).len.toNat ≤ 1024 :=
  ⟨by decide, ⟨_, rfl⟩, by decide⟩

theorem witness_FailedCheckChangesNothing :
    (∃ t, exec (.illegal 0x07) State.reset = .next t ∧ t.status.err = true ∧ t.err.code = CmdError.illegalCommand.code) ∧
    (∃ t, exec .decode (win' 1023 2) = .next t ∧ t.status.err = true ∧ t.err.code = CmdError.rangeError.code) ∧
    (∃ t, exec .kfinal State.reset = .next t ∧ t.status.err = true ∧ t.err.code = CmdError.sequenceError.code) ∧
    ∃ t, exec .kupdate (openedAt (2 ^ 61 - 37) (win' 0 1)) = .next t ∧ t.status.err = true ∧
      t.err.code = CmdError.lengthOverflow.code :=
  ⟨⟨_, rfl, rfl, rfl⟩, ⟨_, rfl, by decide +kernel, by decide +kernel⟩, ⟨_, rfl, rfl, rfl⟩,
    ⟨_, rfl, by decide +kernel, by decide +kernel⟩⟩

/-- The five outcomes of KUPDATE's and DECODE's checks, at their bounds. -/
theorem witness_OrderOfTheChecks :
    (∃ t, exec .accept (win' 1023 2) = .next t) ∧ 1024 < (win' 1023 2).off.toNat + (win' 1023 2).len.toNat ∧
      ¬1024 < (win' 1024 0).off.toNat + (win' 1024 0).len.toNat ∧ (win' 1024 0).status.kopen = false ∧
      (openedAt (2 ^ 61 - 37) (win' 1023 1)).status.kopen = true ∧
      2 ^ 61 - 37 < (openedAt (2 ^ 61 - 37) (win' 1023 1)).key.mlen.toNat + 1 ∧
      (openedAt (2 ^ 61 - 38) (win' 1023 1)).key.mlen.toNat + 1 ≤ 2 ^ 61 - 37 ∧
      (at' 1023 [0x81]).len.toNat < 2 ∧
      (let s := at' 1021 [0x81, 0xFE, 0x00]
       2 ≤ s.len.toNat ∧ s.len.toNat < 2 + extBytes (lengthOf (readBuf s (s.off.toNat + 1)))) ∧
      (let s := at' 1020 [0x81, 0xFE, 0x00, 0x05]
       2 + extBytes (lengthOf (readBuf s (s.off.toNat + 1))) ≤ s.len.toNat ∧
         s.len.toNat < headerBytes (readBuf s (s.off.toNat + 1))) ∧
      (let s := at' 1016 [0x81, 0xFE, 0x00, 0x05, 1, 2, 3, 4]
       s.off.toNat + s.len.toNat = 1024 ∧ headerBytes (readBuf s (s.off.toNat + 1)) ≤ s.len.toNat) :=
  ⟨⟨_, rfl⟩, by decide +kernel⟩

/-- A completion with each code from 0 to 7, and those of a header layout and of a frame opcode. -/
theorem witness_CompletionWritesErr :
    (∃ t, exec .kinit State.reset = .next t ∧ t.err.code = 0) ∧ (∃ t, exec .decode State.reset = .next t ∧ t.err.code = 1) ∧
    (∃ t, exec .decode (at' 0 [0x81, 0x7E, 0]) = .next t ∧ t.err.code = 2) ∧
    (∃ t, exec .decode (at' 0 [0x81, 0x80]) = .next t ∧ t.err.code = 3) ∧
    (∃ t, exec (.illegal 0x07) State.reset = .next t ∧ t.err.code = 4) ∧
    (∃ t, exec .unmask (win' 1023 2) = .next t ∧ t.err.code = 5) ∧
    (∃ t, exec .kfinal State.reset = .next t ∧ t.err.code = 6) ∧
    (∃ t, exec .kupdate (openedAt (2 ^ 61 - 37) (win' 0 1)) = .next t ∧ t.err.code = 7) ∧
    (∃ t, exec (.hdr16 ⟨true, false, false, false, 1⟩ 126) State.reset = .next t ∧ t.err.cmd = 0x05) ∧
    ∃ t, exec .frPing State.reset = .next t ∧ t.err.cmd = 0x05 :=
  ⟨⟨_, rfl, rfl⟩, ⟨_, rfl, by decide +kernel⟩, ⟨_, rfl, by decide +kernel⟩, ⟨_, rfl, by decide +kernel⟩, ⟨_, rfl, rfl⟩,
    ⟨_, rfl, by decide +kernel⟩, ⟨_, rfl, by decide +kernel⟩, ⟨_, rfl, by decide +kernel⟩, ⟨_, rfl, rfl⟩, ⟨_, rfl, rfl⟩⟩

theorem witness_NoInstructionWritesTheOperands : (∃ t, exec .accept State.reset = .next t) ∧ 1023 < 1024 :=
  ⟨⟨_, rfl⟩, by decide⟩

theorem witness_WritersOfObuf :
    (∃ t, exec .unmask (at' 0 [1]) = .next t ∧ t.status.err = false ∧ (0x401 < 0x400 ∨ 0x400 + t.olen.toNat ≤ 0x401)) ∧
      (∃ t, exec .kfinal (opened [] State.reset) = .next t ∧ t.status.err = false) ∧
      ∃ t, exec .unmask (win' 1023 2) = .next t ∧ t.status.err = true :=
  ⟨⟨_, rfl, by decide +kernel, by decide +kernel⟩, ⟨_, rfl, by decide +kernel⟩, ⟨_, rfl, by decide +kernel⟩⟩

theorem witness_ConditionFlags :
    (∃ t, exec .decode (at' 0 [0x81, 0x00]) = .next t ∧ t.err.code = 0) ∧
      (∃ t, exec .decode (at' 0 [0x81, 0x80]) = .next t ∧ t.err.code.toNat = 3) ∧
      (∃ t, exec .decode (win' 1023 2) = .next t ∧ t.err.code = 5) ∧
      (∃ t, exec .kfinal (opened [] State.reset) = .next t ∧ t.status.err = false) ∧
      ∃ t, exec .accept (win' 1023 2) = .next t ∧ t.status.err = true :=
  ⟨⟨_, rfl, by decide +kernel⟩, ⟨_, rfl, by decide +kernel⟩, ⟨_, rfl, by decide +kernel⟩, ⟨_, rfl, by decide +kernel⟩,
    ⟨_, rfl, by decide +kernel⟩⟩

/-- Two states that differ in a byte of the window and in `MKEY`. -/
theorem witness_NoFailureOnData :
    let s := at' 0 [1]
    let s' := { at' 0 [2] with mkey := 0xA1B2C3D4 }
    s'.off = s.off ∧ s'.len = s.len ∧ s'.status.kopen = s.status.kopen ∧ s'.key.mlen = s.key.mlen ∧
      (∃ t, exec .unmask s = .next t) ∧ ∃ t, exec .unmask s' = .next t :=
  ⟨rfl, rfl, rfl, rfl, ⟨_, rfl⟩, ⟨_, rfl⟩⟩

theorem witness_KupdateAbsorbsTheWindow :
    let s := openedAt (2 ^ 61 - 38) (win' 1023 1)
    s.off.toNat + s.len.toNat ≤ 1024 ∧ s.status.kopen = true ∧ s.key.mlen.toNat + s.len.toNat ≤ 2 ^ 61 - 37 := by
  decide +kernel

theorem witness_AbsorbRule : State.reset.key.init.Holds [] ∧ ([] : List Byte).length + guid.length < 2 ^ 64 :=
  ⟨init_holds _, by decide⟩

/-- The key context of A13 before its KFINAL holds the token. -/
theorem opened_holds (m : List Byte) (s : State) (h : m.length < 2 ^ 64) : (opened m s).key.Holds m := by
  have := absorb_holds (init_holds s.key) m (by simpa using h)
  simpa [opened] using this

theorem witness_StepKeepsTheMessage :
    (due .cmd8 0x03 (opened tokenV1 (at' 0 tokenV1))).KeyInv ∧
      ∃ t, step (due .cmd8 0x03 (opened tokenV1 (at' 0 tokenV1))) = .next t :=
  ⟨fun _ => ⟨tokenV1, by decide, opened_holds tokenV1 _ (by decide)⟩, ⟨_, rfl⟩⟩

theorem witness_KfinalGivesTheAcceptKey :
    (opened tokenV1 State.reset).status.kopen = true ∧ (opened tokenV1 State.reset).key.Holds tokenV1 ∧
      tokenV1.length ≤ 2 ^ 61 - 37 ∧ 27 < 28 :=
  ⟨rfl, opened_holds tokenV1 _ (by decide), by decide, by decide⟩

theorem witness_AcceptGivesTheAcceptKey :
    (at' 1000 tokenV1).off.toNat + (at' 1000 tokenV1).len.toNat ≤ 1024 ∧ 27 < 28 := by decide +kernel

theorem witness_AcceptKeyFrame :
    (∃ t, exec .accept State.reset = .next t) ∧ (∃ t, exec .kinit State.reset = .next t) ∧
      (∃ t, exec .kupdate (opened [] State.reset) = .next t) ∧ (∃ t, exec .kfinal State.reset = .next t) ∧
      (0x3FF < obufAt 0 ∨ obufAt 0 + 28 ≤ 0x3FF) ∧ (0x41C < obufAt 0 ∨ obufAt 0 + 28 ≤ 0x41C) :=
  ⟨⟨_, rfl⟩, ⟨_, rfl⟩, ⟨_, rfl⟩, ⟨_, rfl⟩, by decide⟩

theorem witness_AcceptEqualsStreaming : (win' 0 1024).off.toNat + (win' 0 1024).len.toNat ≤ 1024 := by decide +kernel

/-- One piece of three bytes taken, from a context opened at reset. -/
theorem witness_SplitDoesNotMatter :
    ∃ s, Streamed [[0x61, 0x62, 0x63]] s ∧ SameKey s s := by
  refine ⟨_, .fed [] _ { succeed 0x02 { State.reset with key := State.reset.key.init, status := { State.reset.status with
      kopen := true } } with mem := Memory.writeBytes [] 0 [0x61, 0x62, 0x63], len := 3 } _
      (.opened State.reset _ rfl) ⟨rfl, rfl⟩ rfl ?_, rfl, rfl⟩
  decide +kernel

theorem witness_StaleBlockBytesDoNotMatter :
    let k := State.reset.key
    let k' := { k with blk := Vector.replicate 64 0xFF }
    k'.h = k.h ∧ k'.mlen = k.mlen ∧ k'.blk.toList.take k.fill = k.blk.toList.take k.fill ∧ k'.blk ≠ k.blk := by
  decide +kernel

theorem witness_PaddingRule :
    (List.replicate 55 (0x41 : Byte)).length % 64 ≤ 55 ∧ 56 ≤ (List.replicate 56 (0x41 : Byte)).length % 64 ∧
      (List.replicate 64 (0x41 : Byte)).length % 64 = 0 ∧ 62 < (63 : Nat) := by decide

theorem witness_AcceptKeyShape : 26 < 27 ∧ (0x3D : Byte) ∈ keyV1 := by decide

theorem witness_DecodeWritesTheHeader :
    (let s := at' 1010 [0x82, 0xFF, 0, 0, 0, 0, 0, 1, 0, 0, 0xAA, 0xBB, 0xCC, 0xDD]
     s.off.toNat + s.len.toNat ≤ 1024 ∧ 2 ≤ s.len.toNat ∧ headerBytes (readBuf s (s.off.toNat + 1)) ≤ s.len.toNat) ∧
    let s := at' 0 [0x81, 0x7D]
    2 ≤ s.len.toNat ∧ headerBytes (readBuf s (s.off.toNat + 1)) ≤ s.len.toNat := by decide +kernel

theorem witness_DecodeRunsTheLayout :
    let s := at' 1020 [0x81, 0x7E, 0x00, 0x7E]
    s.off.toNat + s.len.toNat ≤ 1024 ∧
      decode .frameHdr16 (window s) = .ok (.hdr16 ⟨true, false, false, false, 1⟩ 126, []) := by decide +kernel

theorem witness_DecodeErrorClearsTheHeader :
    (at' 1023 [0x81]).off.toNat + (at' 1023 [0x81]).len.toNat ≤ 1024 ∧
      decode .frameHdr16 (window (at' 1023 [0x81])) = .error .frameTooShort ∧
      decode .frameHdr16 (window (at' 0 [0x81, 0x7E, 0])) = .error .extendedLengthTruncated ∧
      decode .frameHdr16 (window (at' 0 [0x81, 0xFF, 0, 0, 0, 0, 0, 0, 0])) = .error .extendedLengthTruncated ∧
      decode .frameHdr16 (window (at' 0 [0x81, 0xFE, 0, 5, 1, 2, 3])) = .error .maskingKeyTruncated := by decide +kernel

/-- One window for each line of the table, at the bounds of its lengths. -/
theorem witness_OutcomeTable :
    let m := fun (d : List Byte) => maskOf (d.getD 1 0)
    let L := fun (d : List Byte) => (lengthOf (d.getD 1 0)).toNat
    [(0x81 : Byte)].length < 2 ∧ (m [0x81, 0x7D] = false ∧ L [0x81, 0x7D] ≤ 125) ∧
      (m [0x81, 0x80, 1, 2, 3] = true ∧ L [0x81, 0x80, 1, 2, 3] ≤ 125 ∧ [(0x81 : Byte), 0x80, 1, 2, 3].length < 6) ∧
      (L [0x81, 0x7E, 0] = 126 ∧ [(0x81 : Byte), 0x7E, 0].length < 4) ∧
      (L [0x81, 0x7E, 0, 0] = 126 ∧ m [0x81, 0x7E, 0, 0] = false) ∧
      (L [0x81, 0xFE, 0, 5, 1, 2, 3] = 126 ∧ m [0x81, 0xFE, 0, 5, 1, 2, 3] = true) ∧
      (L [0x81, 0x7F, 0, 0, 0, 0, 0, 0, 0] = 127 ∧ [(0x81 : Byte), 0x7F, 0, 0, 0, 0, 0, 0, 0].length < 10) ∧
      (L [0x81, 0x7F, 0, 0, 0, 0, 0, 0, 0, 0] = 127 ∧ m [0x81, 0x7F, 0, 0, 0, 0, 0, 0, 0, 0] = false) ∧
      (L [0x81, 0xFF, 0, 0, 0, 0, 0, 0, 0, 0, 1, 2, 3] = 127 ∧ m [0x81, 0xFF, 0, 0, 0, 0, 0, 0, 0, 0, 1, 2, 3] = true) := by
  decide

theorem witness_HeaderSizeFormula :
    (∃ h, decodeHeader [0x81, 0x7D] = .ok h) ∧ 2 ≤ [(0x81 : Byte), 0x80].length := ⟨⟨_, rfl⟩, by decide⟩

/-- Two windows of 15 bytes that differ in their last byte only. -/
theorem witness_DecodeReadsFourteenBytes :
    let s := at' 0 (List.replicate 15 0xFF)
    let s' := at' 0 (List.replicate 14 0xFF ++ [0x00])
    s.off.toNat + s.len.toNat ≤ 1024 ∧ s'.off = s.off ∧ s'.len = s.len ∧
      (∀ i, i < 14 → i < s.len.toNat → readBuf s' (s.off.toNat + i) = readBuf s (s.off.toNat + i)) ∧
      s'.mem ≠ s.mem ∧ (∃ t, exec .decode s = .next t) ∧ ∃ t, exec .decode s' = .next t :=
  ⟨by decide +kernel, by decide +kernel, by decide +kernel, by decide +kernel, by decide +kernel, ⟨_, rfl⟩, ⟨_, rfl⟩⟩

theorem witness_DecodeFrame : ∃ t, exec .decode (at' 0 [0x81, 0x80]) = .next t := ⟨_, rfl⟩

theorem witness_UnmaskedFrameIsCopied :
    ∃ t u : State, exec .decode (at' 0 [0x81, 0x05, 0x48, 0x65, 0x6C, 0x6C, 0x6F]) = .next t ∧ t.status.err = false ∧
      hflagsMask t.hflags = false ∧ u.mkey = t.mkey ∧ u.off.toNat + u.len.toNat ≤ 1024 ∧ u.len.toNat = 5 :=
  ⟨_, { at' 0 [0x81, 0x05, 0x48, 0x65, 0x6C, 0x6C, 0x6F] with off := 2, len := 5 }, rfl, by decide +kernel,
    by decide +kernel, by decide +kernel, by decide +kernel, by decide +kernel⟩

theorem witness_UnmaskXorsTheWindow :
    (at' 1019 [1, 2, 3, 4, 5]).off.toNat + (at' 1019 [1, 2, 3, 4, 5]).len.toNat ≤ 1024 ∧
      4 < (at' 1019 [1, 2, 3, 4, 5]).len.toNat ∧ (0x3FF < obufAt 0 ∨ obufAt 0 + 5 ≤ 0x3FF) ∧
      (0x405 < obufAt 0 ∨ obufAt 0 + 5 ≤ 0x405) := by decide +kernel

/-- U1 and U7: the masked bytes of the second are the output of the first. -/
theorem witness_UnmaskTwiceIsTheIdentity :
    let s := { at' 0 [0x7F, 0x9F, 0x4D, 0x51, 0x58] with mkey := 0x37FA213D }
    let u := { at' 0 [0x48, 0x65, 0x6C, 0x6C, 0x6F] with mkey := 0x37FA213D }
    ∃ t v, exec .unmask s = .next t ∧ u.mkey = s.mkey ∧ u.len = s.len ∧ u.off.toNat + u.len.toNat ≤ 1024 ∧
      (∀ i, i < u.len.toNat → readBuf u (u.off.toNat + i) = readObuf t i) ∧ exec .unmask u = .next v :=
  ⟨_, _, rfl, rfl, rfl, by decide +kernel, by decide +kernel, rfl⟩

theorem witness_UnmaskLaws :
    [(0xA1 : Byte), 0xB2, 0xC3, 0xD4].length = 4 ∧ [(1 : Byte), 2, 3, 4].length % 4 = 0 ∧
      (3 < [(1 : Byte), 2, 3, 4].length ∧ 3 < [(9 : Byte), 9, 9, 4].length ∧
        [(9 : Byte), 9, 9, 4].getD 3 0 = [(1 : Byte), 2, 3, 4].getD 3 0 ∧
        [(9 : Byte), 9, 9, 0xD4].getD (3 % 4) 0 = [(0xA1 : Byte), 0xB2, 0xC3, 0xD4].getD (3 % 4) 0) := by decide

theorem witness_FrameOpcodesAreExposed : 4 ≤ 4 ∧ 4 ≤ 8 := by decide

theorem witness_DecodeExposesTheOpcode :
    ∃ t, exec .decode (at' 0 [0x89, 0x00]) = .next t ∧ t.status.err = false := ⟨_, rfl, by decide +kernel⟩

theorem witness_ResetHasTheInvariants : Memory.wf [(0, 0x41), (0x7FF, 0x42)] := by decide

/-- Reset, and a DECODE of a masked header due at the next step, meet the invariant. -/
theorem witness_StepKeepsTheInvariant :
    (due .cmd8 0x05 (at' 0 [0x81, 0x80, 1, 2, 3, 4])).Inv ∧
      ∃ t, step (due .cmd8 0x05 (at' 0 [0x81, 0x80, 1, 2, 3, 4])) = .next t ∧ t.status.hv = true :=
  ⟨⟨by decide +kernel, rfl, by decide +kernel, by decide +kernel, by unfold ErrReg.needFits; decide +kernel,
      by decide +kernel, by decide +kernel, by decide +kernel, by decide +kernel, fun h => nomatch h⟩,
    ⟨_, rfl, by decide +kernel⟩⟩

/-- The reset state about to run the streaming iteration over `bytes`, with another transaction after it. -/
def streamingOver (bytes : List Byte) : State :=
  { State.reset with host := HostProgram.streamIteration bytes ++ [.read 0x801] }

theorem streamingOver_streams {bytes : List Byte} (h : 1 ≤ bytes.length) (h' : bytes.length ≤ 1024) :
    StreamsFrom (streamingOver bytes) bytes [.read 0x801] := ⟨rfl, rfl, h, h'⟩

/-- Each clause, at the bound of the check. -/
theorem witness_StreamingDecisions :
    let failed : State := { State.reset with
      status := { busy := false, err := true, hv := false, kopen := false }, host := [.readFor (.status 7)] }
    let idle : State := { State.reset with host := [.readFor (.status 11)] }
    let sized : State := { State.reset with hsize := 6, host := [.readFor (.hsize 11)] }
    let short : State := { State.reset with plen := 5, host := [.readFor (.plen 10 6)] }
    let whole : State := { State.reset with plen := 5, host := [.readFor (.plen 11 6)] }
    (failed.status.busy = false ∧ failed.host = .readFor (.status 7) :: [] ∧ failed.status.err = true) ∧
      (idle.status.busy = false ∧ idle.host = .readFor (.status 11) :: [] ∧ idle.status.err = false) ∧
      (sized.status.busy = false ∧ sized.host = .readFor (.hsize 11) :: []) ∧
      (short.status.busy = false ∧ short.host = .readFor (.plen 10 6) :: [] ∧ 10 < 6 + short.plen.toNat) ∧
      whole.status.busy = false ∧ whole.host = .readFor (.plen 11 6) :: [] ∧ 6 + whole.plen.toNat ≤ 11 := by decide +kernel

/-- P4's first window, and the shortest read. -/
theorem witness_StreamingStopsOnADecodeError :
    (StreamsFrom (streamingOver [0x81, 0xFE, 0x00, 0x05, 0x01, 0x02, 0x03]) [0x81, 0xFE, 0x00, 0x05, 0x01, 0x02, 0x03]
        [.read 0x801] ∧
      decodeHeader [0x81, 0xFE, 0x00, 0x05, 0x01, 0x02, 0x03] = .error ⟨.maskingKeyTruncated, 8⟩) ∧
      StreamsFrom (streamingOver [0x81]) [0x81] [.read 0x801] ∧ decodeHeader [0x81] = .error ⟨.frameTooShort, 2⟩ :=
  ⟨⟨streamingOver_streams (by decide) (by decide), by decide⟩, streamingOver_streams (by decide) (by decide), by decide⟩

/-- P2's header. -/
def headerP2 : Header := ⟨⟨true, false, false, false, 1⟩, true, 5, some 0x37FA213D, 6⟩

/-- P2's read without its last byte. -/
theorem witness_StreamingRejectsAFrameThatExceeds :
    StreamsFrom (streamingOver (readP2.take 10)) (readP2.take 10) [.read 0x801] ∧
      decodeHeader (readP2.take 10) = .ok headerP2 ∧
      (readP2.take 10).length < headerP2.headerSize + headerP2.payloadLength :=
  ⟨streamingOver_streams (by decide) (by decide), by decide, by decide⟩

/-- P2's masked frame, wholly in the read to its last byte, and the unmasked frame of P5. -/
theorem witness_StreamingDeliversThePayload :
    (StreamsFrom (streamingOver readP2) readP2 [.read 0x801] ∧ decodeHeader readP2 = .ok headerP2 ∧
      headerP2.headerSize + headerP2.payloadLength ≤ readP2.length) ∧
      StreamsFrom (streamingOver [0x81, 0x02, 0x48, 0x69]) [0x81, 0x02, 0x48, 0x69] [.read 0x801] ∧
      decodeHeader [0x81, 0x02, 0x48, 0x69] = .ok ⟨⟨true, false, false, false, 1⟩, false, 2, none, 2⟩ :=
  ⟨⟨streamingOver_streams (by decide) (by decide), by decide, by decide⟩,
    streamingOver_streams (by decide) (by decide), by decide⟩

end Sys2Proof.Tests
end

section
/-! The machine at rest (spec 00_scope.md R14, 60_exceptions.md R292): with no command running a step is the host's turn,
and a host with no transaction leaves the state as it is. -/

namespace Sys2Proof.Machine

/-- R12: a host with no transaction left takes no action. -/
theorem hostStep_of_host_nil {s : State} (h : s.host = []) : hostStep s = s := by simp [hostStep, h]

/-- R14: with no command running only the host acts. -/
theorem step_of_not_busy {s : State} (hb : s.status.busy = false) : step s = .next (hostStep s) := by
  obtain ⟨-, hstep⟩ | ⟨_, hbusy, -, -⟩ | ⟨hbusy, -, -⟩ := step_cases s
  · exact hstep
  · exact absurd hbusy (by simp [hb])
  · exact absurd hbusy (by simp [hb])

/-- Settles O3: with `BUSY` 0 the step is the host's turn, and a host without a transaction changes nothing. -/
theorem nothingHappensByItself : Obligations.NothingHappensByItself := by
  unfold Obligations.NothingHappensByItself
  intro s hb hh
  rw [step_of_not_busy hb, hostStep_of_host_nil hh]

end Sys2Proof.Machine
end

section
/-! What every step keeps, packaged once: a property that each kind of transaction and each completion keeps, every step
keeps. -/

namespace Sys2Proof.Machine

/-- A property of states that every kind of transaction of the host, and the passing of its steps, keeps. -/
structure KeptByHost (P : State → Prop) : Prop where
  write : ∀ a v s, P s → P (hostWrite a v s)
  reset : ∀ s, P s → P (applyReset s)
  own : ∀ s v n h c, P s → P { s with rdata := v, draws := n, host := h, conn := c }
  pass : ∀ s k, P s → P { s with remaining := k }

theorem hostStep_of_host_cons {s : State} {op : HostOp} {rest : List HostOp} (h : s.host = op :: rest) :
    hostStep s = performOp op { s with host := rest } := by simp [hostStep, h]

theorem KeptByHost.performOp {P : State → Prop} (hP : KeptByHost P) (op : HostOp) {s : State} (hs : P s) :
    P (performOp op s) := by
  obtain ⟨a, v, -, e⟩ | ⟨-, e⟩ | ⟨-, v, n, h, c, e⟩ := performOp_cases op s <;> rw [e]
  · exact hP.write a v s hs
  · exact hP.reset s hs
  · exact hP.own s v n h c hs

theorem KeptByHost.hostStep {P : State → Prop} (hP : KeptByHost P) {s : State} (hs : P s) : P (hostStep s) := by
  cases hh : s.host with
  | nil => rwa [hostStep_of_host_nil hh]
  | cons op rest =>
    rw [hostStep_of_host_cons hh]
    exact hP.performOp op (hP.own s s.rdata s.draws rest s.conn hs)

/-- R136, R137: what the host keeps and every completion keeps, every step keeps. -/
theorem KeptByHost.step {P : State → Prop} (hP : KeptByHost P)
    (complete : ∀ s t, P s → exec (fetch s) s = .next t → P t) {s t : State} (hs : P s) (h : step s = .next t) : P t := by
  obtain ⟨-, e⟩ | ⟨k, -, -, e⟩ | ⟨-, -, e⟩ := step_cases s <;> rw [e] at h
  · injection h with h
    exact h ▸ hP.hostStep hs
  · injection h with h
    exact h ▸ hP.hostStep (hP.pass s k hs)
  · exact complete s t hs h

end Sys2Proof.Machine
end

section
/-! The key context (spec 10_state.md R35, R36): who changes it, and that an open one holds a message after every step. -/

namespace Sys2Proof.Machine

/-- R130: the start of a command leaves the key context alone. -/
theorem startCommand_sameKey (code : Byte) (s : State) : SameKey s (startCommand code s) := by
  obtain ⟨k, ks, -, e⟩ | ⟨-, e⟩ := startCommand_cases code s <;> rw [e] <;> exact ⟨rfl, rfl⟩

/-- R33, R34, R42: no write reaches the key context. -/
theorem hostWrite_sameKey (a : Location) (v : PortWord) (s : State) : SameKey s (hostWrite a v s) := by
  cases hb : s.status.busy with
  | true => rw [hostWrite_of_busy hb]; exact ⟨rfl, rfl⟩
  | false =>
    rw [hostWrite_of_idle hb]
    obtain ⟨-, e⟩ | ⟨-, e⟩ | ⟨-, e⟩ | ⟨-, e⟩ | ⟨-, e⟩ | ⟨-, -, -, -, -, e⟩ := writeIdle_cases a v s <;> rw [e]
    case inr.inl => exact startCommand_sameKey _ s
    all_goals exact ⟨rfl, rfl⟩

/-- A closed key context needs no message. -/
theorem keyInv_of_closed {s : State} (h : s.status.kopen = false) : s.KeyInv := fun ho => by simp [h] at ho

theorem keyInv_of_sameKey {s t : State} (hs : s.KeyInv) (h : SameKey s t) : t.KeyInv := by
  obtain ⟨hkey, hopen⟩ := h
  unfold State.KeyInv
  rw [hkey, hopen]
  exact hs

/-- R34: the reset input closes the key context. -/
@[simp] theorem applyReset_status (s : State) :
    (applyReset s).status = { busy := false, err := false, hv := false, kopen := false } := rfl

/-- R171 to R173: what an instruction can do to the key context: leave it alone, close it, open it afresh, or absorb a
window that fits. -/
theorem exec_key_cases {i : Instr} {s t : State} (h : exec i s = .next t) :
    SameKey s t ∨ t.status.kopen = false ∨ t.key = s.key.init ∨
      (s.status.kopen = true ∧ s.key.mlen.toNat + (window s).length ≤ Config.keyMax ∧
        t.key = s.key.absorb (window s)) := by
  obtain ⟨e, -, -, -, rfl⟩ | ⟨-, rfl⟩ | ⟨-, -, hopen, hmax, rfl⟩ | ⟨-, -, rfl⟩ | ⟨-, -, rfl⟩ | ⟨-, -, rfl⟩ |
    ⟨-, -, e, need, -, rfl⟩ | ⟨-, hd, -, rfl⟩ | ⟨-, op, rfl⟩ := exec_cases h
  case inr.inl => exact .inr (.inr (.inl rfl))
  case inr.inr.inl => exact .inr (.inr (.inr ⟨hopen, by simpa using hmax, rfl⟩))
  case inr.inr.inr.inl => exact .inr (.inl (by simp))
  case inr.inr.inr.inr.inl => exact .inr (.inl (by simp))
  all_goals exact .inl ⟨rfl, rfl⟩

/-- R36: every instruction leaves an open context with a message of at most `KEY_MAX` bytes. -/
theorem exec_keeps_keyInv {i : Instr} {s t : State} (hs : s.KeyInv) (h : exec i s = .next t) : t.KeyInv := by
  obtain hsame | hclosed | hfresh | ⟨hopen, hmax, habsorbed⟩ := exec_key_cases h
  · exact keyInv_of_sameKey hs hsame
  · exact keyInv_of_closed hclosed
  · exact fun _ => ⟨[], Nat.zero_le _, hfresh ▸ init_holds s.key⟩
  · obtain ⟨m, -, hm⟩ := hs hopen
    have hlen : (m ++ window s).length ≤ Config.keyMax := by rw [List.length_append, ← hm.1]; exact hmax
    refine fun _ => ⟨m ++ window s, hlen, habsorbed ▸ absorb_holds hm _ ?_⟩
    rw [← List.length_append]
    exact lt_of_le_of_lt hlen (by decide)

/-- R36: the host's transactions leave the key context alone or close it. -/
theorem keyInv_keptByHost : KeptByHost State.KeyInv where
  write a v s hs := keyInv_of_sameKey hs (hostWrite_sameKey a v s)
  reset _ _ := keyInv_of_closed (by simp)
  own _ _ _ _ _ hs := hs
  pass _ _ hs := hs

/-- Settles O32: the host leaves the key context alone or closes it, and a completion appends to its message. -/
theorem stepKeepsTheMessage : Obligations.StepKeepsTheMessage := by
  unfold Obligations.StepKeepsTheMessage
  exact fun _ _ hs h => keyInv_keptByHost.step (fun _ _ hs h => exec_keeps_keyInv hs h) hs h

end Sys2Proof.Machine
end

section
/-! The register invariant (spec 10_state.md R27 to R34): it holds after reset, and every step keeps it. -/

namespace Sys2Proof.Machine

/-! ### Reset -/

/-- R45: the reset state has the register invariant. -/
theorem resetWith_inv {mem : Memory} (blk : Vector Byte 64) (h : mem.wf) : (State.resetWith mem blk).Inv where
  mem := h
  format := rfl
  errBit := by simp
  errCode := by simp
  errNeed := by simp [ErrReg.needFits]
  olen := Nat.zero_le _
  keyMax := nofun
  mlen := Nat.zero_le _
  noHeader _ := ⟨rfl, rfl, rfl⟩
  header := nofun

theorem resetWith_keyInv (mem : Memory) (blk : Vector Byte 64) : (State.resetWith mem blk).KeyInv :=
  keyInv_of_closed rfl

/-- Settles O55: after reset every register is 0 and no context is open. -/
theorem resetHasTheInvariants : Obligations.ResetHasTheInvariants := by
  unfold Obligations.ResetHasTheInvariants
  exact fun mem blk h => ⟨resetWith_inv blk h, resetWith_keyInv mem blk, resetWith_inv _ Memory.wf_nil, resetWith_keyInv _ _⟩

theorem applyReset_inv (s : State) : (applyReset s).Inv :=
  { resetWith_inv (blkOf (Config.resetBlk s.draws)) (Memory.wf_tabulate (Config.resetByte s.draws) le_rfl) with }

/-! ### The host's transactions -/

theorem startCommand_inv {s : State} (hs : s.Inv) (code : Byte) : (startCommand code s).Inv := by
  obtain ⟨k, ks, -, e⟩ | ⟨-, e⟩ := startCommand_cases code s <;> rw [e] <;> exact { hs with format := rfl }

theorem hostWrite_inv {s : State} (hs : s.Inv) (a : Location) (v : PortWord) : (hostWrite a v s).Inv := by
  cases hb : s.status.busy with
  | true => rwa [hostWrite_of_busy hb]
  | false =>
    rw [hostWrite_of_idle hb]
    obtain ⟨ha, e⟩ | ⟨-, e⟩ | ⟨-, e⟩ | ⟨-, e⟩ | ⟨-, e⟩ | ⟨-, -, -, -, -, e⟩ := writeIdle_cases a v s <;> rw [e]
    case inl => exact { hs with mem := Memory.wf_write hs.mem _ (by omega) }
    case inr.inl => exact startCommand_inv hs _
    case inr.inr.inr.inr.inr => exact hs
    all_goals exact { hs with }

theorem inv_keptByHost : KeptByHost State.Inv where
  write a v _ hs := hostWrite_inv hs a v
  reset s _ := applyReset_inv s
  own _ _ _ _ _ hs := { hs with }
  pass _ _ hs := { hs with }

end Sys2Proof.Machine
end

section
/-! The register invariant through the commands: what each shared operation keeps, then every command. -/

namespace Sys2Proof.Machine

/-! ### The completions -/

/-- R137: a completion without error keeps the register invariant. -/
theorem succeed_inv {s : State} (hs : s.Inv) (code : Byte) : (succeed code s).Inv :=
  { hs with errBit := by simp, errCode := by simp, errNeed := by simp [ErrReg.needFits] }

/-- R32, R261: every error has a code from 1 to 7. -/
theorem CmdError.code_bounds (e : CmdError) : e.code ≠ 0 ∧ e.code.toNat ≤ 7 := by cases e <;> decide

/-- R137, R270: a completion with an error whose `NEED` fits keeps the register invariant. -/
theorem raise_inv {s : State} (hs : s.Inv) {e : CmdError} {need code : Byte}
    (hneed : ErrReg.needFits { code := e.code, need := need, cmd := code }) : (raise e need code s).Inv :=
  { hs with errBit := iff_of_true rfl e.code_bounds.1, errCode := e.code_bounds.2, errNeed := hneed }

/-- R142: the four errors of a check ask for no window length. -/
theorem needFits_of_check {e : CmdError} (code : Byte)
    (h : e = .illegalCommand ∨ e = .rangeError ∨ e = .sequenceError ∨ e = .lengthOverflow) :
    ErrReg.needFits { code := e.code, need := 0, cmd := code } := by
  obtain rfl | rfl | rfl | rfl := h <;> simp [ErrReg.needFits, CmdError.code]

/-- R213: a decode error asks for a window length of its own error. -/
theorem needFits_of_decodeFailure {e : CmdError} {need : Byte} (code : Byte) (h : DecodeFailure e need) :
    ErrReg.needFits { code := e.code, need := need, cmd := code } := by
  obtain ⟨rfl, hn⟩ | ⟨rfl, hn⟩ | ⟨rfl, hn⟩ := h <;> simpa [ErrReg.needFits, CmdError.code] using hn

/-! ### The units -/

/-- R171: a fresh key context, open or as it was, keeps the register invariant. -/
theorem init_inv {s : State} (hs : s.Inv) (opened : Bool) :
    State.Inv { s with key := s.key.init, status := { s.status with kopen := opened } } :=
  { hs with keyMax := fun _ => Nat.zero_le _, mlen := Nat.zero_le _ }

theorem absorb_mlen_toNat (k : KeyCtx) (l : List Byte) (h : k.mlen.toNat + l.length ≤ 2 ^ 61 - 1) :
    (k.absorb l).mlen.toNat = k.mlen.toNat + l.length := by
  rw [absorb_mlen, BitVec.toNat_add, BitVec.toNat_ofNat, Nat.add_mod_mod, Nat.mod_eq_of_lt (by omega)]

theorem absorbWindow_mlen_toNat {s : State} (h : s.key.mlen.toNat + s.len.toNat ≤ Config.keyMax) :
    (absorbWindow s).key.mlen.toNat = s.key.mlen.toNat + s.len.toNat := by
  have hl : s.key.mlen.toNat + (window s).length ≤ 2 ^ 61 - 1 := by
    rw [window_length]
    exact h.trans (by decide)
  rw [absorbWindow_key, absorb_mlen_toNat _ _ hl, window_length]

/-- R158, R161: `finish()` adds the 36 bytes of the GUID. -/
theorem finish_mlen_toNat {k : KeyCtx} (b : Vector Byte 64) (h : k.mlen.toNat ≤ Config.keyMax) :
    (k.finish b).mlen.toNat = k.mlen.toNat + 36 :=
  absorb_mlen_toNat k guid (Nat.add_le_add_right h 36)

/-- R160, R172: absorbing a window within `KEY_MAX` keeps the register invariant. -/
theorem absorbWindow_inv {s : State} (hs : s.Inv) (h : s.key.mlen.toNat + s.len.toNat ≤ Config.keyMax) :
    (absorbWindow s).Inv := by
  have hmlen := absorbWindow_mlen_toNat h
  exact { hs with keyMax := fun _ => hmlen ▸ h, mlen := hmlen ▸ h.trans (by decide) }

/-- R62: an output of at most 1024 bytes keeps the register invariant. -/
theorem output_inv {s : State} (hs : s.Inv) {bs : List Byte} (hb : bs.length ≤ 1024) : (output bs s).Inv :=
  { hs with mem := wf_output hs.mem hb, olen := (by rw [output_olen, BitVec.toNat_ofNat]; exact (Nat.mod_le _ _).trans hb) }

/-- R161, R158: finishing a message within `KEY_MAX` keeps the register invariant. -/
theorem finishKey_inv {s : State} (hs : s.Inv) (h : s.key.mlen.toNat ≤ Config.keyMax) : (finishKey s).Inv := by
  have hbound := (finish_mlen_toNat (blkOf (Config.finishBlk s.draws)) h).trans_le (Nat.add_le_add_right h 36)
  have hclosed : State.Inv { s with
      key := s.key.finish (blkOf (Config.finishBlk s.draws)), draws := s.draws + 1,
      status := { s.status with kopen := false } } := { hs with keyMax := nofun, mlen := hbound }
  exact output_inv hclosed (by simp)

theorem clearHeader_inv {s : State} (hs : s.Inv) : (clearHeader s).Inv :=
  { hs with noHeader := fun _ => ⟨rfl, rfl, rfl⟩, header := nofun }

@[simp] theorem hflagsMask_hflagsWord (mask : Bool) (lead : Lead) : hflagsMask (hflagsWord mask lead) = mask := by
  rw [hflagsMask, hflagsWord, BitVec.getLsbD_append]
  simp

/-- R205, R211: a committed header has the shape of a header in its registers. -/
theorem commitHeader_headerShape {h : Header} (s : State) (hf : h.Fits) : (commitHeader h s).headerShape := by
  obtain ⟨hmask, hsize, -, hshape⟩ := hf
  have hs : (commitHeader h s).hsize.toNat = h.headerSize := by simp; omega
  have hp : (commitHeader h s).plen.toNat = h.payloadLength := by simp; omega
  refine ⟨?_, ?_⟩
  · rwa [hs, commitHeader_hflags, hflagsMask_hflagsWord]
  · rw [hs, hp, commitHeader_hflags, hflagsMask_hflagsWord]
    exact hshape.imp_right (Or.imp_right And.left)

theorem commitHeader_inv {s : State} (hs : s.Inv) {h : Header} (hf : h.Fits) : (commitHeader h s).Inv :=
  { hs with noHeader := nofun, header := fun _ => commitHeader_headerShape s hf }

/-! ### Every command -/

theorem decodeCommand_format (code : Byte) : (decodeCommand code).format = .cmd8 := by
  unfold decodeCommand
  repeat' split
  all_goals rfl

/-- R112: every command keeps the register invariant. (A frame opcode does not: it writes `HFLAGS` with no header held.) -/
theorem exec_keeps_inv {i : Instr} {s t : State} (hi : i.format = .cmd8) (hs : s.Inv) (h : exec i s = .next t) :
    t.Inv := by
  obtain ⟨e, he, -, -, rfl⟩ | ⟨-, rfl⟩ | ⟨-, -, -, hmax, rfl⟩ | ⟨-, hopen, rfl⟩ | ⟨-, -, rfl⟩ | ⟨-, hr, rfl⟩ |
    ⟨-, -, e, need, hd, rfl⟩ | ⟨hi', hd, hf, rfl⟩ | ⟨hi', -⟩ := exec_cases h
  · exact raise_inv hs (needFits_of_check _ he)
  · exact succeed_inv (init_inv hs true) _
  · exact succeed_inv (absorbWindow_inv hs hmax) _
  · exact succeed_inv (finishKey_inv hs (hs.keyMax hopen)) _
  · have hlen : 0 + s.len.toNat ≤ Config.keyMax := by
      rw [Nat.zero_add]
      exact s.len.isLt.le.trans (by decide)
    have hmlen := absorbWindow_mlen_toNat (s := { s with key := s.key.init }) hlen
    exact succeed_inv (finishKey_inv (absorbWindow_inv (init_inv hs s.status.kopen) hlen) (hmlen.trans_le hlen)) _
  · exact succeed_inv (output_inv hs (by have := (inRange_iff s).mp hr; simp; omega)) _
  · exact raise_inv (clearHeader_inv hs) (needFits_of_decodeFailure _ hd)
  · obtain rfl | hi' := hi'
    · exact succeed_inv (commitHeader_inv hs (hf rfl)) _
    · simp [hi] at hi'
  · simp [hi] at hi'

/-- Settles O56: the host keeps the invariant, and the running command is one of those that keep it. -/
theorem stepKeepsTheInvariant : Obligations.StepKeepsTheInvariant := by
  unfold Obligations.StepKeepsTheInvariant
  intro s t hs h
  refine inv_keptByHost.step (fun s t hs h => exec_keeps_inv ?_ hs h) hs h
  rw [fetch_of_cmd8 hs.format]
  exact decodeCommand_format s.cmdl

end Sys2Proof.Machine
end

section
/-! The host port while no command runs (spec 10_state.md R42, R45; 20_memory.md R70). -/

namespace Sys2Proof.Machine

/-! ### Reads -/

theorem hostRead_of_idle {a : Location} {s : State} (h : s.status.busy = false) : hostRead a s = readIdle a s := by
  simp [hostRead, h]

/-- R68: below 0x800 a read gives the byte there. -/
theorem readIdle_of_buffer {a : Location} {s : State} (h : a.toNat < 0x800) :
    readIdle a s = (s.mem.read a.toNat).setWidth 64 := by simp [readIdle, h]

/-- R42, R70: `CMD` and the locations after the registers read as 0. -/
theorem readIdle_of_empty {a : Location} (s : State) (h : a = 0x800 ∨ 0x810 ≤ a.toNat) : readIdle a s = 0 := by
  have hn : a.toNat = 0x800 ∨ 0x810 ≤ a.toNat := h.imp_left (congrArg BitVec.toNat)
  unfold readIdle
  dsimp only
  iterate 16 rw [if_neg (by omega)]

/-- R45: after reset every location of the register group reads as 0. -/
theorem readIdle_resetWith {a : Location} (mem : Memory) (blk : Vector Byte 64) (h : 0x800 ≤ a.toNat) :
    readIdle a (State.resetWith mem blk) = 0 := by
  simp [readIdle, State.resetWith, Status.word, ErrReg.word, h]

/-- Settles O1: the registers are 0 by definition, and each is what a read of its location gives. -/
theorem resetRegistersAreZero : Obligations.ResetRegistersAreZero := by
  unfold Obligations.ResetRegistersAreZero
  intro mem blk
  refine ⟨by simp [Status.word], by simp [ErrReg.word], rfl, rfl, rfl, rfl, rfl, rfl, rfl, rfl, rfl, rfl, rfl, fun a ha => ?_, [], Vector.replicate 64 0, rfl⟩
  rw [hostRead_of_idle rfl, readIdle_resetWith mem blk ha]

/-! ### Writes -/

/-- R42: a write to a byte of `BUF` stores the low eight bits. -/
theorem writeIdle_of_buf {a : Location} {v : PortWord} {s : State} (h : a.toNat < 0x400) :
    writeIdle a v s = { s with mem := s.mem.write a.toNat (v.setWidth 8) } := by simp [writeIdle, h]

/-- R42, R70: where no write takes effect. -/
theorem writeIdle_of_readOnly {a : Location} {v : PortWord} {s : State} (h : 0x400 ≤ a.toNat) (h0 : a ≠ 0x800)
    (h3 : a ≠ 0x803) (h4 : a ≠ 0x804) (h5 : a ≠ 0x805) : writeIdle a v s = s := by
  have hne (b : Location) (hb : a ≠ b) : a.toNat ≠ b.toNat := fun e => hb (BitVec.eq_of_toNat_eq e)
  obtain ⟨ha, -⟩ | ⟨ha, -⟩ | ⟨ha, -⟩ | ⟨ha, -⟩ | ⟨ha, -⟩ | ⟨-, -, -, -, -, e⟩ := writeIdle_cases a v s
  · omega
  · exact absurd ha (hne _ h0)
  · exact absurd ha (hne _ h3)
  · exact absurd ha (hne _ h4)
  · exact absurd ha (hne _ h5)
  · exact e

@[simp] theorem startCommand_cmdl (code : Byte) (s : State) : (startCommand code s).cmdl = code := by
  obtain ⟨k, ks, -, e⟩ | ⟨-, e⟩ := startCommand_cases code s <;> rw [e]

/-- Settles O6: each location by its own rule, the read after the write by the value the object holds then. -/
theorem writesKeepTheLowBits : Obligations.WritesKeepTheLowBits := by
  unfold Obligations.WritesKeepTheLowBits
  intro s v hb
  have hw (a : Location) : hostWrite a v s = writeIdle a v s := hostWrite_of_idle hb
  simp only [hw]
  refine ⟨fun a ha => ?_, rfl, rfl, rfl, startCommand_cmdl _ s, hostRead_of_idle hb, hostRead_of_idle hb,
    hostRead_of_idle hb, fun a ha h0 h3 h4 h5 => writeIdle_of_readOnly ha h0 h3 h4 h5, fun a ha => ?_⟩
  · rw [writeIdle_of_buf ha]
    refine ⟨(hostRead_of_idle (by exact hb)).trans ?_, fun b hne => Memory.read_write_of_ne s.mem _ hne, rfl⟩
    rw [readIdle_of_buffer (by omega), Memory.read_write_self]
  · rw [hostRead_of_idle hb, readIdle_of_empty s ha]

end Sys2Proof.Machine
end
section
/-! What the commands leave (spec 10_state.md R28, R31; 20_memory.md R62; 40_command_common.md R139): who writes `OBUF` and
`OLEN`, who changes `STATUS.HV` and `STATUS.KOPEN`. -/

namespace Sys2Proof.Machine

/-- R170, R173: the accept key is 28 bytes. -/
theorem finishKey_olen_toNat (s : State) : (finishKey s).olen.toNat = 28 := by simp

/-- R62: `n` bytes were put out, and no byte outside them was written. -/
def WritesObuf (n : Nat) (s t : State) : Prop :=
  t.olen.toNat = n ∧ ∀ a, a < 0x400 ∨ 0x400 + n ≤ a → t.mem.read a = s.mem.read a

theorem WritesObuf.succeed {n : Nat} {s t : State} (h : WritesObuf n s t) (code : Byte) :
    WritesObuf n s (Machine.succeed code t) := h

theorem writesObuf_finishKey (s : State) : WritesObuf 28 s (finishKey s) :=
  ⟨finishKey_olen_toNat s, fun _ => read_finishKey s⟩

theorem writesObuf_unmask (s : State) (key : List Byte) :
    WritesObuf s.len.toNat s (output (unmask (window s) key) s) :=
  ⟨by simp, fun _ ha => read_output_outside _ s (by simpa using ha)⟩

/-- R28: the completions that write `OBUF` and `OLEN`. -/
def PutsOut (i : Instr) (t : State) : Prop := (i = .accept ∨ i = .kfinal ∨ i = .unmask) ∧ t.status.err = false

/-- R112: DECODE and the rows of the two frame formats, which it reads, are none of the commands with another unit. -/
theorem ne_of_readsHeader {i : Instr} (h : i = .decode ∨ i.format ≠ .cmd8) :
    i ≠ .accept ∧ i ≠ .kinit ∧ i ≠ .kfinal ∧ i ≠ .unmask := by
  refine ⟨?_, ?_, ?_, ?_⟩ <;> rintro rfl <;> simp [Instr.format] at h

theorem not_putsOut_of_readsHeader {i : Instr} (h : i = .decode ∨ i.format ≠ .cmd8) (t : State) : ¬PutsOut i t := by
  obtain ⟨haccept, -, hkfinal, hunmask⟩ := ne_of_readsHeader h
  rintro ⟨hi | hi | hi, -⟩
  · exact haccept hi
  · exact hkfinal hi
  · exact hunmask hi

/-- R28, R62: an instruction puts out its bytes, or leaves `OLEN` and both buffers alone. -/
theorem exec_obuf_cases {i : Instr} {s t : State} (h : exec i s = .next t) :
    (PutsOut i t ∧ WritesObuf (if i = .unmask then s.len.toNat else 28) s t) ∨
      (¬PutsOut i t ∧ t.olen = s.olen ∧ SameBytes s t) := by
  obtain ⟨e, -, -, -, rfl⟩ | ⟨rfl, rfl⟩ | ⟨rfl, -, -, -, rfl⟩ | ⟨rfl, -, rfl⟩ | ⟨rfl, -, rfl⟩ | ⟨rfl, -, rfl⟩ |
    ⟨rfl, -, e, need, -, rfl⟩ | ⟨hi, hd, -, rfl⟩ | ⟨hi, op, rfl⟩ := exec_cases h
  · exact .inr ⟨nofun, rfl, fun _ => rfl⟩
  · exact .inr ⟨nofun, rfl, fun _ => rfl⟩
  · exact .inr ⟨nofun, rfl, fun _ => rfl⟩
  · exact .inl ⟨⟨by simp, rfl⟩, (writesObuf_finishKey s).succeed 0x04⟩
  · exact .inl ⟨⟨by simp, rfl⟩, (writesObuf_finishKey (absorbWindow { s with key := s.key.init })).succeed 0x01⟩
  · exact .inl ⟨⟨by simp, rfl⟩, (writesObuf_unmask s _).succeed 0x06⟩
  · exact .inr ⟨nofun, rfl, fun _ => rfl⟩
  · exact .inr ⟨not_putsOut_of_readsHeader (hi.imp_right (by simp [·])) _, rfl, fun _ => rfl⟩
  · exact .inr ⟨not_putsOut_of_readsHeader (.inr (by simp [hi])) _, rfl, fun _ => rfl⟩

/-- Settles O26: a completion that puts bytes out writes them and `OLEN`, every other leaves both buffers and `OLEN`. -/
theorem writersOfObuf : Obligations.WritersOfObuf := by
  unfold Obligations.WritersOfObuf
  intro i s t h
  obtain ⟨hputs, holen, hmem⟩ | ⟨hputs, hsame⟩ := exec_obuf_cases h
  · exact ⟨fun _ => ⟨holen, fun a ha => hmem a (holen ▸ ha)⟩, fun hno => absurd hputs hno⟩
  · exact ⟨fun hyes => absurd hyes hputs, fun _ => hsame⟩

/-! ### The condition flags -/

/-- R31: only DECODE and the header layouts change `HV`. -/
theorem exec_hv_of_not_header {i : Instr} {s t : State} (h : exec i s = .next t) (hf : i.format ≠ .frameHdr16)
    (hd : i ≠ .decode) : t.status.hv = s.status.hv := by
  obtain ⟨e, -, -, -, rfl⟩ | ⟨-, rfl⟩ | ⟨-, -, -, -, rfl⟩ | ⟨-, -, rfl⟩ | ⟨-, -, rfl⟩ | ⟨-, -, rfl⟩ |
    ⟨hi, -⟩ | ⟨hi, -⟩ | ⟨-, op, rfl⟩ := exec_cases h
  case inr.inr.inr.inr.inr.inr.inl => exact absurd hi hd
  case inr.inr.inr.inr.inr.inr.inr.inl => exact (hi.elim hd hf).elim
  all_goals simp

/-- R200, R212: `HV` after DECODE, by the error it reports. -/
theorem exec_decode_hv {s t : State} (h : exec .decode s = .next t) :
    (t.err.code = 5 ∧ t.status.hv = s.status.hv) ∨
      ((t.err.code = 1 ∨ t.err.code = 2 ∨ t.err.code = 3) ∧ t.status.hv = false) ∨
      (t.err.code = 0 ∧ t.status.hv = true) := by
  obtain ⟨-, e⟩ | ⟨e, -, he, hx⟩ | ⟨-, -, e⟩ := execDecode_cases s
  · obtain rfl := Host.Outcome.next.inj (e.symm.trans h)
    exact .inl ⟨rfl, rfl⟩
  · obtain rfl := Host.Outcome.next.inj (hx.symm.trans h)
    refine .inr (.inl ⟨?_, rfl⟩)
    obtain ⟨he, -⟩ | ⟨he, -⟩ | ⟨he, -⟩ := decodeFailure_of_error he <;> simp [he, CmdError.code]
  · obtain rfl := Host.Outcome.next.inj (e.symm.trans h)
    exact .inr (.inr ⟨rfl, rfl⟩)

/-- R31, R139: KINIT opens the key context, an ACCEPT or KFINAL without error closes it, nothing else changes `KOPEN`. -/
theorem exec_kopen_cases {i : Instr} {s t : State} (h : exec i s = .next t) :
    (i = .kinit ∧ t.status.kopen = true) ∨
      ((i = .kfinal ∨ i = .accept) ∧ t.status.err = false ∧ t.status.kopen = false) ∨
      (i ≠ .kinit ∧ (i = .kfinal ∨ i = .accept → t.status.err = true) ∧ t.status.kopen = s.status.kopen) := by
  obtain ⟨e, -, -, hi, rfl⟩ | ⟨rfl, rfl⟩ | ⟨rfl, -, -, -, rfl⟩ | ⟨rfl, -, rfl⟩ | ⟨rfl, -, rfl⟩ | ⟨rfl, -, rfl⟩ |
    ⟨rfl, -, e, need, -, rfl⟩ | ⟨hi, hd, -, rfl⟩ | ⟨hi, op, rfl⟩ := exec_cases h
  · exact .inr (.inr ⟨hi, fun _ => rfl, rfl⟩)
  · exact .inl ⟨rfl, rfl⟩
  · exact .inr (.inr ⟨nofun, nofun, rfl⟩)
  · exact .inr (.inl ⟨.inl rfl, rfl, by simp⟩)
  · exact .inr (.inl ⟨.inr rfl, rfl, by simp⟩)
  · exact .inr (.inr ⟨nofun, nofun, rfl⟩)
  · exact .inr (.inr ⟨nofun, nofun, rfl⟩)
  · obtain ⟨haccept, hkinit, hkfinal, -⟩ := ne_of_readsHeader (hi.imp_right (by simp [·]))
    exact .inr (.inr ⟨hkinit, fun hi => (hi.elim hkfinal haccept).elim, rfl⟩)
  · obtain ⟨haccept, hkinit, hkfinal, -⟩ := ne_of_readsHeader (i := i) (.inr (by simp [hi]))
    exact .inr (.inr ⟨hkinit, fun hi => (hi.elim hkfinal haccept).elim, rfl⟩)

/-- Settles O27: `HV` by whether the instruction reads a header, `KOPEN` by who opens and who closes the key context. -/
theorem conditionFlags : Obligations.ConditionFlags := by
  unfold Obligations.ConditionFlags
  intro i s t h
  refine ⟨exec_hv_of_not_header h, ?_, ?_⟩
  · rintro rfl
    obtain ⟨hc, hv⟩ | ⟨hc, hv⟩ | ⟨hc, hv⟩ := exec_decode_hv h
    · simp [hc, hv]
    · obtain hc | hc | hc := hc <;> simp [hc, hv]
    · simp [hc, hv]
  · obtain ⟨rfl, hopen⟩ | ⟨hi, herr, hopen⟩ | ⟨hi, herr, hopen⟩ := exec_kopen_cases h
    · exact ⟨fun _ => hopen, nofun, nofun, fun hne => absurd rfl hne⟩
    · refine ⟨?_, fun _ _ => hopen, ?_, fun _ h1 h2 => (hi.elim h1 h2).elim⟩
      · rintro rfl
        simp at hi
      · simp [herr]
    · exact ⟨fun hk => absurd hk hi, fun hk he => by simp [herr hk] at he, fun _ _ => hopen, fun _ _ _ => hopen⟩

end Sys2Proof.Machine
end

section
/-! The bytes of `BLK` without meaning (spec 10_state.md R35): what `absorb` and `finish` read of a key context. -/

namespace Sys2Proof.Machine

/-- R35: two key contexts with the same `H` and `MLEN` and the same bytes of `BLK` below the fill pointer. -/
structure KeyCtx.Agrees (k k' : KeyCtx) : Prop where
  h : k'.h = k.h
  mlen : k'.mlen = k.mlen
  blk : k'.blk.toList.take k.fill = k.blk.toList.take k.fill

/-- R35, R160: a byte absorbed moves the fill pointer by one, from 63 back to 0. -/
theorem absorbByte_fill (k : KeyCtx) (x : Byte) : (k.absorbByte x).fill = (k.fill + 1) % 64 := by
  have hone : (1 : BitVec 64).toNat = 1 := rfl
  simp only [KeyCtx.fill, absorbByte_mlen, BitVec.toNat_add, hone]
  omega

/-- R160: the byte absorbed stands after the bytes below the fill pointer. -/
theorem absorbByte_blk_take (k : KeyCtx) (x : Byte) :
    (k.absorbByte x).blk.toList.take (k.fill + 1) = k.blk.toList.take k.fill ++ [x] := by
  have hset : (k.absorbByte x).blk.toList = k.blk.toList.set k.fill x := Vector.toList_set (h := k.fill_lt)
  rw [hset, take_set_self _ _ _ (by simpa using k.fill_lt)]

theorem KeyCtx.Agrees.fill_eq {k k' : KeyCtx} (h : k.Agrees k') : k'.fill = k.fill :=
  congrArg (fun n : BitVec 64 => n.toNat % 64) h.mlen

theorem KeyCtx.Agrees.absorbByte_blk_take {k k' : KeyCtx} (h : k.Agrees k') (x : Byte) :
    (k'.absorbByte x).blk.toList.take (k.fill + 1) = (k.absorbByte x).blk.toList.take (k.fill + 1) := by
  rw [Machine.absorbByte_blk_take, ← h.fill_eq, Machine.absorbByte_blk_take, h.fill_eq, h.blk]

/-- R35, R160: where the byte absorbed completes a block, all of `BLK` has been written. -/
theorem KeyCtx.Agrees.absorbByte_blk {k k' : KeyCtx} (h : k.Agrees k') (x : Byte) (hfull : k.fill = 63) :
    (k'.absorbByte x).blk.toList = (k.absorbByte x).blk.toList := by
  have hall (v : Vector Byte 64) : v.toList.take (k.fill + 1) = v.toList := List.take_of_length_le (by simp [hfull])
  simpa only [hall] using h.absorbByte_blk_take x

theorem absorbByte_h (k : KeyCtx) (x : Byte) :
    (k.absorbByte x).h = if (k.absorbByte x).fill = 0 then compress k.h (k.absorbByte x).blk.toList else k.h := rfl

theorem KeyCtx.Agrees.absorbByte {k k' : KeyCtx} (h : k.Agrees k') (x : Byte) :
    (k.absorbByte x).Agrees (k'.absorbByte x) := by
  have hlt := k.fill_lt
  have hnext := absorbByte_fill k x
  have hnext' : (k'.absorbByte x).fill = (k.absorbByte x).fill := by rw [absorbByte_fill, absorbByte_fill, h.fill_eq]
  refine ⟨?_, by simp [h.mlen], ?_⟩
  · rw [absorbByte_h, absorbByte_h, hnext', h.h]
    split
    · next hz => rw [h.absorbByte_blk x (by omega)]
    · rfl
  · have hle : (k.absorbByte x).fill ≤ k.fill + 1 := by omega
    have := congrArg (List.take (k.absorbByte x).fill) (h.absorbByte_blk_take x)
    rwa [List.take_take, List.take_take, Nat.min_eq_left hle] at this

theorem KeyCtx.Agrees.absorb {k k' : KeyCtx} (h : k.Agrees k') (s : List Byte) : (k.absorb s).Agrees (k'.absorb s) := by
  induction s generalizing k k' with
  | nil => exact h
  | cons x s ih => exact ih (h.absorbByte x)

/-- R161: the digest depends on no byte of `BLK` without meaning. -/
theorem KeyCtx.Agrees.finish_h {k k' : KeyCtx} (h : k.Agrees k') (b b' : Vector Byte 64) :
    (k'.finish b').h = (k.finish b).h := by
  have hg := h.absorb guid
  rw [finish_h_eq, finish_h_eq, hg.h, hg.mlen, hg.fill_eq, hg.blk]

/-- Settles O38: contexts that agree below the fill pointer agree after every byte absorbed, and so in their digest. -/
theorem staleBlockBytesDoNotMatter : Obligations.StaleBlockBytesDoNotMatter := by
  unfold Obligations.StaleBlockBytesDoNotMatter
  intro k k' s b b' hh hmlen hblk
  have hs : (k.absorb s).Agrees (k'.absorb s) := KeyCtx.Agrees.absorb ⟨hh, hmlen, hblk⟩ s
  exact ⟨hs.finish_h b b', hs.mlen⟩

end Sys2Proof.Machine
end

section
/-! What the host reads while no command runs (spec 10_state.md R31, R32; 20_memory.md R68, R70), and that a read has no
side effect. -/

namespace Sys2Proof.Machine

/-! ### The packed registers -/

/-- R31: the four bits of `STATUS`, `BUSY` the lowest. -/
theorem Status.word_toNat (st : Status) :
    st.word.toNat = st.kopen.toNat * 8 + st.hv.toNat * 4 + st.err.toNat * 2 + st.busy.toNat := by
  obtain ⟨busy, err, hv, kopen⟩ := st
  revert busy err hv kopen
  decide

/-- The value of two fields side by side, the second the lower. -/
theorem toNat_append_eq_add {m n : Nat} (x : BitVec m) (y : BitVec n) :
    (x ++ y).toNat = x.toNat * 2 ^ n + y.toNat := by
  rw [BitVec.toNat_append, ← Nat.shiftLeft_add_eq_or_of_lt y.isLt, Nat.shiftLeft_eq]

/-- R32: the three fields of `ERR`, with `CODE` the lowest and four zeros above it. -/
theorem ErrReg.word_toNat (e : ErrReg) :
    e.word.toNat = e.cmd.toNat * 65536 + e.need.toNat * 256 + e.code.toNat := by
  simp only [ErrReg.word, toNat_append_eq_add, BitVec.ofNat_eq_ofNat, BitVec.toNat_ofNat]
  omega

/-! ### The address map -/

/-- R70: location `i` is `BUF[i]`. -/
theorem readIdle_bufAt (s : State) {i : Nat} (h : i < 1024) :
    readIdle (BitVec.ofNat 12 i) s = (readBuf s i).setWidth 64 := by
  have ha : (BitVec.ofNat 12 i).toNat = bufAt i := Nat.mod_eq_of_lt (by omega)
  rw [readIdle_of_buffer (by rw [ha, bufAt]; omega), ha, readBuf]

/-- R70: location `0x400 + i` is `OBUF[i]`. -/
theorem readIdle_obufAt (s : State) {i : Nat} (h : i < 1024) :
    readIdle (BitVec.ofNat 12 (0x400 + i)) s = (readObuf s i).setWidth 64 := by
  have ha : (BitVec.ofNat 12 (0x400 + i)).toNat = obufAt i := Nat.mod_eq_of_lt (by omega)
  rw [readIdle_of_buffer (by rw [ha, obufAt]; omega), ha, readObuf]

theorem readIdle_status_toNat (s : State) :
    (readIdle 0x801 s).toNat =
      s.status.kopen.toNat * 8 + s.status.hv.toNat * 4 + s.status.err.toNat * 2 + s.status.busy.toNat :=
  (BitVec.toNat_setWidth_of_le (by decide)).trans s.status.word_toNat

theorem readIdle_err_toNat (s : State) :
    (readIdle 0x802 s).toNat = s.err.cmd.toNat * 65536 + s.err.need.toNat * 256 + s.err.code.toNat :=
  (BitVec.toNat_setWidth_of_le (by decide)).trans s.err.word_toNat

/-- Settles O5: the buffers by the location of each byte, `STATUS` and `ERR` by their packing, every other register as
its location names it, and 0 at `CMD` and after the registers. -/
theorem readsFollowTheAddressMap : Obligations.ReadsFollowTheAddressMap := by
  unfold Obligations.ReadsFollowTheAddressMap
  intro s hb
  simp only [hostRead_of_idle hb]
  exact ⟨fun i hi => ⟨readIdle_bufAt s hi, readIdle_obufAt s hi⟩, readIdle_of_empty s (.inl rfl),
    readIdle_status_toNat s, readIdle_err_toNat s, rfl, rfl, rfl, rfl, rfl, rfl, rfl, rfl, rfl, rfl, rfl, rfl, rfl,
    fun a ha => readIdle_of_empty s (.inr ha)⟩

/-! ### No side effect -/

/-- R68: while no command runs a read draws no free value. -/
theorem readInto_of_idle (a : Location) {s : State} (hb : s.status.busy = false) :
    readInto a s = { s with rdata := hostRead a s } := by simp [readInto, readDraws, hb]

/-- Settles O9: the step is the host's read, which draws no free value while no command runs. -/
theorem readsHaveNoSideEffect : Obligations.ReadsHaveNoSideEffect := by
  unfold Obligations.ReadsHaveNoSideEffect
  intro s a rest hb hh
  rw [step_of_idle hb hh]
  exact congrArg _ (readInto_of_idle (s := { s with host := rest }) a hb)

end Sys2Proof.Machine
end

section
/-! What no command writes (spec 10_state.md R22, R23; 20_memory.md R61, R65): the operands and what is the host's, and the
frame of the Accept-Key unit. -/

namespace Sys2Proof.Machine

/-- R22, R23: every completion leaves `OFF`, `LEN`, the latched command and what is the host's. -/
theorem exec_sameHost {i : Instr} {s t : State} (h : exec i s = .next t) : SameHost s t := by
  obtain ⟨e, -, -, -, rfl⟩ | ⟨-, rfl⟩ | ⟨-, -, -, -, rfl⟩ | ⟨-, -, rfl⟩ | ⟨-, -, rfl⟩ | ⟨-, -, rfl⟩ |
    ⟨-, -, e, need, -, rfl⟩ | ⟨-, hd, -, rfl⟩ | ⟨-, op, rfl⟩ := exec_cases h <;> simp [SameHost]

/-- R61: what an instruction writes of the buffers lies in `OBUF`. -/
theorem exec_readBuf {i : Instr} {s t : State} (h : exec i s = .next t) {j : Nat} (hj : j < 1024) :
    readBuf t j = readBuf s j := by
  obtain ⟨-, -, hmem⟩ | ⟨-, -, hsame⟩ := exec_obuf_cases h
  · exact hmem _ (.inl hj)
  · exact hsame _

/-- Settles O25: `BUF` by where the outputs lie, the registers and the host's fields by every completion. -/
theorem noInstructionWritesTheOperands : Obligations.NoInstructionWritesTheOperands := by
  unfold Obligations.NoInstructionWritesTheOperands
  exact fun _ _ _ h => ⟨fun _ hj => exec_readBuf h hj, exec_sameHost h⟩

/-- R65: every command but DECODE leaves the header registers and `HV`. -/
theorem exec_sameHeader {i : Instr} {s t : State} (h : exec i s = .next t) (hf : i.format = .cmd8) (hd : i ≠ .decode) :
    SameHeader s t := by
  obtain ⟨e, -, -, -, rfl⟩ | ⟨-, rfl⟩ | ⟨-, -, -, -, rfl⟩ | ⟨-, -, rfl⟩ | ⟨-, -, rfl⟩ | ⟨-, -, rfl⟩ |
    ⟨hi, -⟩ | ⟨hi, -⟩ | ⟨hi, -⟩ := exec_cases h
  case inr.inr.inr.inr.inr.inr.inl => exact absurd hi hd
  case inr.inr.inr.inr.inr.inr.inr.inl => exact (hi.elim hd (by simp [hf])).elim
  case inr.inr.inr.inr.inr.inr.inr.inr => simp [hf] at hi
  all_goals simp [SameHeader]

/-- R28, R62: only ACCEPT, KFINAL and UNMASK put bytes out. -/
theorem exec_sameBytes_of_no_output {i : Instr} {s t : State} (h : exec i s = .next t)
    (hi : i ≠ .accept ∧ i ≠ .kfinal ∧ i ≠ .unmask) : SameBytes s t ∧ t.olen = s.olen := by
  obtain ⟨haccept, hkfinal, hunmask⟩ := hi
  obtain ⟨⟨hputs, -⟩, -⟩ | ⟨-, holen, hsame⟩ := exec_obuf_cases h
  · obtain hi | hi | hi := hputs
    · exact absurd hi haccept
    · exact absurd hi hkfinal
    · exact absurd hi hunmask
  · exact ⟨hsame, holen⟩

/-- R62: an instruction other than UNMASK writes no byte outside `OBUF[0:28]`. -/
theorem exec_read_outside_accept_key {i : Instr} {s t : State} (h : exec i s = .next t) (hi : i ≠ .unmask) {a : Nat}
    (ha : a < obufAt 0 ∨ obufAt 0 + 28 ≤ a) : t.mem.read a = s.mem.read a := by
  obtain ⟨-, -, hmem⟩ | ⟨-, -, hsame⟩ := exec_obuf_cases h
  · rw [if_neg hi] at hmem
    exact hmem a ha
  · exact hsame a

/-- Settles O35: the four are commands that read no header, and of them only ACCEPT and KFINAL put bytes out. -/
theorem acceptKeyFrame : Obligations.AcceptKeyFrame := by
  unfold Obligations.AcceptKeyFrame
  intro i s t hi h
  obtain ⟨hformat, hdecode, hunmask⟩ : i.format = .cmd8 ∧ i ≠ .decode ∧ i ≠ .unmask := by
    obtain rfl | rfl | rfl | rfl := hi <;> simp [Instr.format]
  refine ⟨exec_sameHeader h hformat hdecode, exec_sameHost h, fun hk => ?_,
    fun _ ha => exec_read_outside_accept_key h hunmask ha⟩
  exact exec_sameBytes_of_no_output h (by obtain rfl | rfl := hk <;> simp)

end Sys2Proof.Machine
end

section
/-! The decoder and the encoder (spec 30_encoding.md R90 to R104), one format after another: what a decoded value can be, and
what decoding an encoding gives. -/

namespace Sys2Proof.Machine

/-! ### Command codes -/

/-- R91, R92: what a code can be: one of the six commands, or `ILLEGAL`. -/
theorem decodeCommand_cases (c : Byte) :
    (c = 0x01 ∧ decodeCommand c = .accept) ∨ (c = 0x02 ∧ decodeCommand c = .kinit) ∨
    (c = 0x03 ∧ decodeCommand c = .kupdate) ∨ (c = 0x04 ∧ decodeCommand c = .kfinal) ∨
    (c = 0x05 ∧ decodeCommand c = .decode) ∨ (c = 0x06 ∧ decodeCommand c = .unmask) ∨
    ((c = 0x00 ∨ 7 ≤ c.toNat) ∧ decodeCommand c = .illegal c) := by
  by_cases hc : c = 0x00 ∨ 7 ≤ c.toNat
  · refine .inr (.inr (.inr (.inr (.inr (.inr ⟨hc, ?_⟩)))))
    unfold decodeCommand
    repeat rw [if_neg (by rintro rfl; exact absurd hc (by decide))]
  · obtain rfl | rfl | rfl | rfl | rfl | rfl :
        c = 0x01 ∨ c = 0x02 ∨ c = 0x03 ∨ c = 0x04 ∨ c = 0x05 ∨ c = 0x06 := by bv_omega
    all_goals decide

/-- R91, R92: every command is encoded by the code it is decoded from. -/
theorem decodeCommand_spec (c : Byte) :
    (decodeCommand c).wf = true ∧ (decodeCommand c).code = c ∧ encode (decodeCommand c) = [c] := by
  obtain ⟨rfl, h⟩ | ⟨rfl, h⟩ | ⟨rfl, h⟩ | ⟨rfl, h⟩ | ⟨rfl, h⟩ | ⟨rfl, h⟩ | ⟨hc, h⟩ := decodeCommand_cases c <;> rw [h]
  case inr.inr.inr.inr.inr.inr => exact ⟨by simpa [Instr.wf] using hc.imp_left (congrArg BitVec.toNat), rfl, rfl⟩
  all_goals exact ⟨rfl, rfl, rfl⟩

/-- R91, R92: a well-formed illegal code is none of the six. -/
theorem decodeCommand_of_illegal {c : Byte} (h : (Instr.illegal c).wf = true) : decodeCommand c = .illegal c := by
  obtain ⟨rfl, -⟩ | ⟨rfl, -⟩ | ⟨rfl, -⟩ | ⟨rfl, -⟩ | ⟨rfl, -⟩ | ⟨rfl, -⟩ | ⟨-, h'⟩ := decodeCommand_cases c
  case inr.inr.inr.inr.inr.inr => exact h'
  all_goals exact absurd h (by decide)

/-- R91, R92: a well-formed command is encoded by a code that decodes to it. -/
theorem decodeCommand_of_encode {i : Instr} (hf : i.format = .cmd8) (hw : i.wf = true) :
    ∃ c, encode i = [c] ∧ decodeCommand c = i := by
  cases i with
  | accept => exact ⟨0x01, rfl, rfl⟩
  | kinit => exact ⟨0x02, rfl, rfl⟩
  | kupdate => exact ⟨0x03, rfl, rfl⟩
  | kfinal => exact ⟨0x04, rfl, rfl⟩
  | decode => exact ⟨0x05, rfl, rfl⟩
  | unmask => exact ⟨0x06, rfl, rfl⟩
  | illegal c => exact ⟨c, rfl, decodeCommand_of_illegal hw⟩
  | frCont | frText | frBin | frClose | frPing | frPong | frRsvdData _ | frRsvdCtrl _ | hdr7 _ _ | hdr7m _ _ _
  | hdr16 _ _ | hdr16m _ _ _ | hdr64 _ _ | hdr64m _ _ _ => cases hf

/-! ### Frame opcodes -/

/-- R100: every frame opcode is encoded by the four bits it is decoded from. -/
theorem decodeOpcode_spec (op : BitVec 4) :
    (decodeOpcode op).wf = true ∧ (decodeOpcode op).format = .frameOpcode4 ∧
      encode (decodeOpcode op) = [op.setWidth 8] := by
  revert op
  decide

/-- R100: a well-formed frame opcode is encoded by four bits that decode to it. -/
theorem decodeOpcode_of_encode {i : Instr} (hf : i.format = .frameOpcode4) (hw : i.wf = true) :
    ∃ op : BitVec 4, encode i = [op.setWidth 8] ∧ decodeOpcode op = i := by
  cases i with
  | frRsvdData op => exact ⟨op, rfl, by revert op; decide⟩
  | frRsvdCtrl op => exact ⟨op, rfl, by revert op; decide⟩
  | frCont => exact ⟨0x0, rfl, rfl⟩
  | frText => exact ⟨0x1, rfl, rfl⟩
  | frBin => exact ⟨0x2, rfl, rfl⟩
  | frClose => exact ⟨0x8, rfl, rfl⟩
  | frPing => exact ⟨0x9, rfl, rfl⟩
  | frPong => exact ⟨0xA, rfl, rfl⟩
  | accept | kinit | kupdate | kfinal | decode | unmask | illegal _ | hdr7 _ _ | hdr7m _ _ _ | hdr16 _ _
  | hdr16m _ _ _ | hdr64 _ _ | hdr64m _ _ _ => cases hf

theorem setWidth_extractLsb'_opcode {b : Byte} (h : b.toNat < 16) : (b.extractLsb' 0 4).setWidth 8 = b := by
  apply BitVec.eq_of_toNat_eq
  simp
  omega

/-- R100: four bits in a byte are read as themselves. -/
theorem decode_opcode (op : BitVec 4) (rest : List Byte) :
    decode .frameOpcode4 (op.setWidth 8 :: rest) = .ok (decodeOpcode op, rest) := by
  have hlt : (op.setWidth 8).toNat < 16 := by simp; omega
  have hop : (op.setWidth 8).extractLsb' 0 4 = op := by revert op; decide
  rw [decode, if_pos hlt, hop]

/-! ### Frame headers -/

@[simp] theorem layoutOf_lengthByte {mask : Bool} {len : BitVec 7} (h : len.toNat ≤ 125) :
    layoutOf (lengthByte mask len) = if mask then .hdr7m else .hdr7 := by
  rw [layoutOf_eq, lengthOf_lengthByte, maskOf_lengthByte, if_pos h]

@[simp] theorem takeBE_bytesBE_toNat {w : Nat} (n : Nat) (v : BitVec w) (s : List Byte) (h : 2 ^ w = 256 ^ n) :
    takeBE n (bytesBE v.toNat n ++ s) = some (v.toNat, s) :=
  takeBE_bytesBE n v.toNat s (h ▸ v.isLt)

/-- R103: a header layout is read back from its bytes, whatever follows them. -/
theorem decodeHeaderBytes_encode {i : Instr} (hf : i.format = .frameHdr16) (hw : i.wf = true) (rest : List Byte) :
    decodeHeaderBytes (encode i ++ rest) = .ok (i, rest) := by
  cases i with
  | hdr7 lead len =>
    have hlen : len.toNat ≤ 125 := of_decide_eq_true hw
    simp [encode, decodeHeaderBytes, hlen]
  | hdr7m lead len key =>
    have hlen : len.toNat ≤ 125 := of_decide_eq_true hw
    simp [encode, decodeHeaderBytes, hlen]
  | hdr16 lead len => simp [encode, decodeHeaderBytes, layoutOf]
  | hdr16m lead len key => simp [encode, decodeHeaderBytes, layoutOf]
  | hdr64 lead len => simp [encode, decodeHeaderBytes, layoutOf]
  | hdr64m lead len key => simp [encode, decodeHeaderBytes, layoutOf]
  | accept | kinit | kupdate | kfinal | decode | unmask | illegal _ | frCont | frText | frBin | frClose | frPing
  | frPong | frRsvdData _ | frRsvdCtrl _ => cases hf

/-- R103: what byte 1 can select, by its value for the extended layouts and by its two fields for the short ones. -/
theorem layoutOf_cases (b : Byte) :
    ((lengthOf b).toNat ≤ 125 ∧ lengthByte false (lengthOf b) = b ∧ layoutOf b = .hdr7) ∨
    ((lengthOf b).toNat ≤ 125 ∧ lengthByte true (lengthOf b) = b ∧ layoutOf b = .hdr7m) ∨
    (b = 0x7E ∧ layoutOf b = .hdr16) ∨ (b = 0xFE ∧ layoutOf b = .hdr16m) ∨
    (b = 0x7F ∧ layoutOf b = .hdr64) ∨ (b = 0xFF ∧ layoutOf b = .hdr64m) := by
  revert b
  decide

/-- R9: a number read from `n` bytes fits a field of `8 * n` bits, and is written back as those bytes. -/
theorem bytesBE_of_takeBE {w n v : Nat} {s r : List Byte} (hw : 2 ^ w = 256 ^ n) (h : takeBE n s = some (v, r)) :
    bytesBE (BitVec.ofNat w v).toNat n ++ r = s := by
  obtain ⟨hv, hs⟩ := takeBE_eq_some h
  rwa [BitVec.toNat_ofNat, Nat.mod_eq_of_lt (hw ▸ hv)]

/-- R103: a header that is read is well-formed, and its encoding is the bytes it was read from. -/
theorem decodeHeaderBytes_eq_ok {bs rest : List Byte} {i : Instr} (h : decodeHeaderBytes bs = .ok (i, rest)) :
    i.wf = true ∧ i.format = .frameHdr16 ∧ encode i ++ rest = bs := by
  match bs with
  | [] | [_] => cases h
  | b0 :: b1 :: s =>
    obtain ⟨hlen, hb, hl⟩ | ⟨hlen, hb, hl⟩ | ⟨rfl, hl⟩ | ⟨rfl, hl⟩ | ⟨rfl, hl⟩ | ⟨rfl, hl⟩ := layoutOf_cases b1 <;>
      rw [decodeHeaderBytes, hl] at h <;> dsimp only at h
    · obtain ⟨rfl, rfl⟩ := h
      simp [Instr.wf, Instr.format, encode, hlen, hb]
    · split at h <;> cases h
      next hk =>
      exact ⟨decide_eq_true hlen, rfl, by simpa [encode, hb] using bytesBE_of_takeBE (w := 32) rfl hk⟩
    · split at h <;> cases h
      next hp => exact ⟨rfl, rfl, by simpa [encode] using bytesBE_of_takeBE (w := 16) rfl hp⟩
    · split at h
      · next hp =>
        split at h <;> cases h
        next hk =>
        obtain rfl := bytesBE_of_takeBE (w := 32) rfl hk
        exact ⟨rfl, rfl, by simpa [encode] using bytesBE_of_takeBE (w := 16) rfl hp⟩
      · cases h
    · split at h <;> cases h
      next hp => exact ⟨rfl, rfl, by simpa [encode] using bytesBE_of_takeBE (w := 64) rfl hp⟩
    · split at h
      · next hp =>
        split at h <;> cases h
        next hk =>
        obtain rfl := bytesBE_of_takeBE (w := 32) rfl hk
        exact ⟨rfl, rfl, by simpa [encode] using bytesBE_of_takeBE (w := 64) rfl hp⟩
      · cases h

/-- R104: the length is there, the key after it is not. -/
theorem truncated_after_length {n v : Nat} {s s' : List Byte} (hp : takeBE n s = some (v, s')) (hk : takeBE 4 s' = none) :
    n ≤ s.length ∧ s.length < n + 4 := by
  obtain ⟨-, rfl⟩ := takeBE_eq_some hp
  have := takeBE_eq_none.mp hk
  rw [List.length_append, bytesBE_length]
  omega

/-- R104, R204, R208: a header is refused where the extended length or the masking key is not wholly there. -/
theorem decodeHeaderBytes_eq_error {b0 b1 : Byte} {s : List Byte} {r : Reject}
    (h : decodeHeaderBytes (b0 :: b1 :: s) = .error r) :
    (r = .extendedLengthTruncated ∧ s.length < extBytes (lengthOf b1)) ∨
    (r = .maskingKeyTruncated ∧ maskOf b1 = true ∧ extBytes (lengthOf b1) ≤ s.length ∧
      s.length < extBytes (lengthOf b1) + 4) := by
  obtain ⟨hlen, hb, hl⟩ | ⟨hlen, hb, hl⟩ | ⟨rfl, hl⟩ | ⟨rfl, hl⟩ | ⟨rfl, hl⟩ | ⟨rfl, hl⟩ := layoutOf_cases b1 <;>
    rw [decodeHeaderBytes, hl] at h <;> dsimp only at h
  · cases h
  · split at h <;> cases h
    next hk =>
    have hx : extBytes (lengthOf b1) = 0 := if_pos hlen
    have hm : maskOf b1 = true := hb ▸ maskOf_lengthByte true _
    exact .inr ⟨rfl, hm, by omega, by rw [hx]; exact takeBE_eq_none.mp hk⟩
  · split at h <;> cases h
    next hp => exact .inl ⟨rfl, takeBE_eq_none.mp hp⟩
  · split at h
    · next hp =>
      split at h <;> cases h
      next hk => exact .inr ⟨rfl, rfl, truncated_after_length hp hk⟩
    · next hp =>
      cases h
      exact .inl ⟨rfl, takeBE_eq_none.mp hp⟩
  · split at h <;> cases h
    next hp => exact .inl ⟨rfl, takeBE_eq_none.mp hp⟩
  · split at h
    · next hp =>
      split at h <;> cases h
      next hk => exact .inr ⟨rfl, rfl, truncated_after_length hp hk⟩
    · next hp =>
      cases h
      exact .inl ⟨rfl, takeBE_eq_none.mp hp⟩

/-- R104: a well-formed header layout takes the bytes its byte 1 says. -/
theorem encode_header_length {i : Instr} (hf : i.format = .frameHdr16) (hw : i.wf = true) :
    ∃ b0 b1 s, encode i = b0 :: b1 :: s ∧ (encode i).length = headerBytes b1 := by
  have hlen : Laws.EncodeLen.Statement i := by
    cases i with
    | hdr7 lead len => exact Laws.EncodeLen.hdr7 lead len
    | hdr7m lead len key => exact Laws.EncodeLen.hdr7m lead len key
    | hdr16 lead len => exact Laws.EncodeLen.hdr16 lead len
    | hdr16m lead len key => exact Laws.EncodeLen.hdr16m lead len key
    | hdr64 lead len => exact Laws.EncodeLen.hdr64 lead len
    | hdr64m lead len key => exact Laws.EncodeLen.hdr64m lead len key
    | accept | kinit | kupdate | kfinal | decode | unmask | illegal _ | frCont | frText | frBin | frClose | frPing
    | frPong | frRsvdData _ | frRsvdCtrl _ => cases hf
  obtain ⟨b0, b1, s, he, hl, -⟩ := hlen.2 hf hw
  exact ⟨b0, b1, s, he, hl⟩

/-- R104: a header that is read takes the bytes its byte 1 says, all of them there. -/
theorem decodeHeaderBytes_length {b0 b1 : Byte} {s rest : List Byte} {i : Instr}
    (h : decodeHeaderBytes (b0 :: b1 :: s) = .ok (i, rest)) :
    headerBytes b1 ≤ (b0 :: b1 :: s).length ∧ (b0 :: b1 :: s).drop (headerBytes b1) = rest := by
  obtain ⟨hw, hf, he⟩ := decodeHeaderBytes_eq_ok h
  obtain ⟨_, b, _, hcons, hlen⟩ := encode_header_length hf hw
  obtain rfl : b = b1 := by
    rw [hcons] at he
    exact (List.cons.inj (List.cons.inj he).2).1
  rw [← hlen, ← he]
  exact ⟨by simp, List.drop_left⟩

/-! ### The obligations -/

/-- Settles O18: the encoding of what is read has the length byte 1 says, and a refusal asks for more. -/
theorem headerLengthFromByteOne : Obligations.HeaderLengthFromByteOne := by
  unfold Obligations.HeaderLengthFromByteOne
  intro b0 b1 s
  have hsize : headerBytes b1 = 2 + extBytes (lengthOf b1) + (if maskOf b1 then 4 else 0) := rfl
  rw [decode]
  cases hd : decodeHeaderBytes (b0 :: b1 :: s) with
  | ok p =>
    obtain ⟨hle, hdrop⟩ := decodeHeaderBytes_length hd
    exact ⟨fun _ => ⟨p.1, by rw [hdrop]⟩, fun hlt => by omega⟩
  | error r =>
    refine ⟨fun hle => ?_, fun _ => ⟨r, rfl⟩⟩
    obtain ⟨-, hx⟩ | ⟨-, hm, -, hk⟩ := decodeHeaderBytes_eq_error hd
    · simp only [List.length_cons] at hle
      omega
    · rw [hm, if_pos rfl] at hsize
      simp only [List.length_cons] at hle
      omega

/-- Settles O17: each code by what it can be. -/
theorem illegalCodes : Obligations.IllegalCodes := by
  unfold Obligations.IllegalCodes
  intro c
  obtain ⟨-, hcode, -⟩ := decodeCommand_spec c
  refine ⟨?_, hcode⟩
  obtain ⟨rfl, h⟩ | ⟨rfl, h⟩ | ⟨rfl, h⟩ | ⟨rfl, h⟩ | ⟨rfl, h⟩ | ⟨rfl, h⟩ | ⟨hc, h⟩ := decodeCommand_cases c <;> rw [h]
  case inr.inr.inr.inr.inr.inr => exact iff_of_true rfl hc
  all_goals decide

/-- Settles O15: a command by its code, a frame opcode by its four bits, a header layout by its fields. -/
theorem decodeOfEncode : Obligations.DecodeOfEncode := by
  unfold Obligations.DecodeOfEncode
  intro i rest hw
  cases hf : i.format with
  | cmd8 =>
    obtain ⟨c, he, hd⟩ := decodeCommand_of_encode hf hw
    rw [he, List.singleton_append, decode, hd]
  | frameHdr16 => exact decodeHeaderBytes_encode hf hw rest
  | frameOpcode4 =>
    obtain ⟨op, he, hd⟩ := decodeOpcode_of_encode hf hw
    rw [he, List.singleton_append, decode_opcode, hd]

/-- Settles O16: what each of the three decoders reads. -/
theorem encodeOfDecode : Obligations.EncodeOfDecode := by
  unfold Obligations.EncodeOfDecode
  intro f bs rest i h
  match f, bs with
  | .frameHdr16, _ => exact decodeHeaderBytes_eq_ok h
  | .cmd8, [] | .frameOpcode4, [] => cases h
  | .cmd8, c :: s =>
    cases h
    obtain ⟨hw, -, he⟩ := decodeCommand_spec c
    exact ⟨hw, decodeCommand_format c, by rw [he, List.singleton_append]⟩
  | .frameOpcode4, b :: s =>
    rw [decode] at h
    split at h <;> cases h
    next hb =>
    obtain ⟨hw, hf, he⟩ := decodeOpcode_spec (b.extractLsb' 0 4)
    exact ⟨hw, hf, by rw [he, setWidth_extractLsb'_opcode hb, List.singleton_append]⟩

/-- Settles O19: each word by the decoder of the format its width picks. -/
theorem tableWordsDecode : Obligations.TableWordsDecode := by
  unfold Obligations.TableWordsDecode
  decide

end Sys2Proof.Machine
end

section
/-! The header layouts and DECODE (spec 30_encoding.md R103; 42_frame_header_decode.md R211, R215): the header each layout
holds, that its row commits it, and that DECODE reads it from the layout's encoding. -/

namespace Sys2Proof.Machine

/-- R103, R209: the header a layout of the opcode table holds. -/
def layoutHeader : Instr → Option Header
  | .hdr7 lead len => some ⟨lead, false, len.toNat, none, 2⟩
  | .hdr7m lead len key => some ⟨lead, true, len.toNat, some key, 6⟩
  | .hdr16 lead len => some ⟨lead, false, len.toNat, none, 4⟩
  | .hdr16m lead len key => some ⟨lead, true, len.toNat, some key, 8⟩
  | .hdr64 lead len => some ⟨lead, false, len.toNat, none, 10⟩
  | .hdr64m lead len key => some ⟨lead, true, len.toNat, some key, 14⟩
  | _ => none

theorem exists_layoutHeader {i : Instr} (hf : i.format = .frameHdr16) : ∃ h, layoutHeader i = some h := by
  cases i with
  | hdr7 _ _ | hdr7m _ _ _ | hdr16 _ _ | hdr16m _ _ _ | hdr64 _ _ | hdr64m _ _ _ => exact ⟨_, rfl⟩
  | accept | kinit | kupdate | kfinal | decode | unmask | illegal _ | frCont | frText | frBin | frClose | frPing
  | frPong | frRsvdData _ | frRsvdCtrl _ => cases hf

/-- R211: a layout's row completes with its header committed. -/
theorem exec_layout {i : Instr} {h : Header} (hi : layoutHeader i = some h) (s : State) :
    exec i s = .next (succeed 0x05 (commitHeader h s)) := by
  cases i with
  | hdr7 _ _ | hdr7m _ _ _ | hdr16 _ _ | hdr16m _ _ _ | hdr64 _ _ | hdr64m _ _ _ => cases hi; rfl
  | accept | kinit | kupdate | kfinal | decode | unmask | illegal _ | frCont | frText | frBin | frClose | frPing
  | frPong | frRsvdData _ | frRsvdCtrl _ => cases hi

/-- R9: the `n` bytes of a number, read back from where they stand. -/
theorem be_slice_bytesBE {w : Nat} (n : Nat) (v : BitVec w) (hw : 2 ^ w = 256 ^ n) (p rest : List Byte) :
    be (slice (p ++ (bytesBE v.toNat n ++ rest)) p.length (p.length + n)) = v.toNat := by
  rw [slice, List.drop_left, Nat.add_sub_cancel_left, List.take_left' (bytesBE_length _ _)]
  exact be_bytesBE n _ (hw ▸ v.isLt)

/-- R203: the 16-bit extended length is its two bytes. -/
theorem bytesBE_two (len : BitVec 16) :
    ∃ hi lo : Byte, bytesBE len.toNat 2 = [hi, lo] ∧ hi.toNat * 256 + lo.toNat = len.toNat := by
  refine ⟨BitVec.ofNat 8 (len.toNat / 256), BitVec.ofNat 8 len.toNat, by simp [bytesBE, List.range_succ], ?_⟩
  simp only [BitVec.toNat_ofNat]
  omega

/-- R209: the header at the head of a layout's encoding is the layout's. -/
theorem headerOf_encode {i : Instr} {h : Header} (hi : layoutHeader i = some h) (hw : i.wf = true)
    (rest : List Byte) : headerOf (encode i ++ rest) = h := by
  cases i with
  | hdr7 lead len =>
    cases hi
    have hlen : len.toNat ≤ 125 := of_decide_eq_true hw
    simp [encode, headerOf, payloadOf, keyOf, headerBytes, extBytes, hlen]
  | hdr7m lead len key =>
    cases hi
    have hlen : len.toNat ≤ 125 := of_decide_eq_true hw
    have hkey : be (slice (lead.toByte :: lengthByte true len :: (bytesBE key.toNat 4 ++ rest)) 2 6) = key.toNat :=
      be_slice_bytesBE 4 key rfl [_, _] rest
    simp [encode, headerOf, payloadOf, keyOf, headerBytes, extBytes, hlen, hkey]
  | hdr16 lead len =>
    cases hi
    obtain ⟨b2, b3, hb, hlen⟩ := bytesBE_two len
    simp [encode, headerOf, payloadOf, keyOf, headerBytes, extBytes, maskOf, lengthOf, hb, hlen]
  | hdr16m lead len key =>
    cases hi
    obtain ⟨b2, b3, hb, hlen⟩ := bytesBE_two len
    have hkey : be (slice (lead.toByte :: 254#8 :: b2 :: b3 :: (bytesBE key.toNat 4 ++ rest)) 4 8) = key.toNat :=
      be_slice_bytesBE 4 key rfl [_, _, _, _] rest
    simp [encode, headerOf, payloadOf, keyOf, headerBytes, extBytes, maskOf, lengthOf, hb, hlen, hkey]
  | hdr64 lead len =>
    cases hi
    have hlen : be (slice (lead.toByte :: 127#8 :: (bytesBE len.toNat 8 ++ rest)) 2 10) = len.toNat :=
      be_slice_bytesBE 8 len rfl [_, _] rest
    simp [encode, headerOf, payloadOf, keyOf, headerBytes, extBytes, maskOf, lengthOf, hlen]
  | hdr64m lead len key =>
    cases hi
    have hlen : be (slice (lead.toByte :: 255#8 :: (bytesBE len.toNat 8 ++ (bytesBE key.toNat 4 ++ rest))) 2 10) =
        len.toNat := be_slice_bytesBE 8 len rfl [_, _] _
    have hkey : be (slice (lead.toByte :: 255#8 :: (bytesBE len.toNat 8 ++ (bytesBE key.toNat 4 ++ rest))) 10 14) =
        key.toNat := by
      simpa using be_slice_bytesBE 4 key rfl (lead.toByte :: 255#8 :: bytesBE len.toNat 8) rest
    simp [encode, headerOf, payloadOf, keyOf, headerBytes, extBytes, maskOf, lengthOf, hlen, hkey]
  | accept | kinit | kupdate | kfinal | decode | unmask | illegal _ | frCont | frText | frBin | frClose | frPing
  | frPong | frRsvdData _ | frRsvdCtrl _ => cases hi

/-- R205, R215: data as long as byte 1 says holds its header whole. -/
theorem decodeHeader_of_whole {data : List Byte} (h2 : 2 ≤ data.length)
    (h : headerBytes (data.getD 1 0) ≤ data.length) : decodeHeader data = .ok (headerOf data) := by
  have hsize : headerBytes (data.getD 1 0) =
    2 + extBytes (lengthOf (data.getD 1 0)) + (if maskOf (data.getD 1 0) then 4 else 0) := rfl
  obtain ⟨hlt, -⟩ | ⟨-, hlt, -⟩ | ⟨-, -, hlt, -⟩ | ⟨-, -, hok⟩ := decodeHeader_cases data
  · omega
  · omega
  · omega
  · exact hok

/-- R215: DECODE's function reads a layout's header from its encoding, whatever follows. -/
theorem decodeHeader_encode {i : Instr} {h : Header} (hi : layoutHeader i = some h) (hf : i.format = .frameHdr16)
    (hw : i.wf = true) (rest : List Byte) : decodeHeader (encode i ++ rest) = .ok h := by
  obtain ⟨b0, b1, s, he, hlen⟩ := encode_header_length hf hw
  rw [← headerOf_encode hi hw rest]
  refine decodeHeader_of_whole ?_ ?_
  · simp [he]
  · have hb1 : (encode i ++ rest).getD 1 0 = b1 := by rw [he]; rfl
    rw [hb1, ← hlen, List.length_append]
    omega

/-- R215: DECODE of a window in range commits the header its function reads there. -/
theorem execDecode_of_ok {s : State} {h : Header} (hr : inRange s = true) (hd : decodeHeader (window s) = .ok h) :
    exec .decode s = .next (succeed 0x05 (commitHeader h s)) := by
  rw [exec, execDecode, onWindow_of_inRange hr, hd]

/-- Settles O42: what the window holds is the encoding of the layout, and DECODE reads its header there. -/
theorem decodeRunsTheLayout : Obligations.DecodeRunsTheLayout := by
  unfold Obligations.DecodeRunsTheLayout
  intro s i rest hr hd
  obtain ⟨hw, hf, he⟩ := decodeHeaderBytes_eq_ok hd
  obtain ⟨h, hi⟩ := exists_layoutHeader hf
  rw [exec_layout hi, execDecode_of_ok ((inRange_iff s).mpr hr) (he ▸ decodeHeader_encode hi hf hw rest)]

/-- R211: a layout's row completes with its header in the registers and everything else as before. -/
theorem exec_layout_registers (i : Instr) {lead : Lead} {mask : Bool} {len size : Nat} {key : Option (BitVec 32)}
    {plen : BitVec 64} {mkey : BitVec 32} {hsize : BitVec 4} (hi : layoutHeader i = some ⟨lead, mask, len, key, size⟩)
    (hp : BitVec.ofNat 64 len = plen) (hk : key.getD 0 = mkey) (hs : BitVec.ofNat 4 size = hsize) (s : State) :
    ∃ t, exec i s = .next t ∧ Succeeded 0x05 t ∧ t.status.hv = true ∧ t.hflags = BitVec.ofBool mask ++ lead.toByte ∧
      t.plen = plen ∧ t.mkey = mkey ∧ t.hsize = hsize ∧
      SameBytes s t ∧ t.olen = s.olen ∧ SameKey s t ∧ SameHost s t := by
  refine ⟨_, exec_layout hi s, ⟨rfl, rfl, rfl⟩, rfl, rfl, hp, hk, hs, fun _ => rfl, rfl, ⟨rfl, rfl⟩, ?_⟩
  exact exec_sameHost (exec_layout hi s)

/-- Settles O47: each layout by the header it holds. -/
theorem headerLayoutsCompleteWithTheirRegisters : Obligations.HeaderLayoutsCompleteWithTheirRegisters := by
  unfold Obligations.HeaderLayoutsCompleteWithTheirRegisters
  intro s lead l7 l16 l64 key
  have h7 : BitVec.ofNat 64 l7.toNat = l7.setWidth 64 := BitVec.ofNat_toNat 64 l7
  have h16 : BitVec.ofNat 64 l16.toNat = l16.setWidth 64 := BitVec.ofNat_toNat 64 l16
  have h64 : BitVec.ofNat 64 l64.toNat = l64 := by simp
  exact ⟨exec_layout_registers (.hdr7 lead l7) rfl h7 rfl rfl s,
    exec_layout_registers (.hdr7m lead l7 key) rfl h7 rfl rfl s,
    exec_layout_registers (.hdr16 lead l16) rfl h16 rfl rfl s,
    exec_layout_registers (.hdr16m lead l16 key) rfl h16 rfl rfl s,
    exec_layout_registers (.hdr64 lead l64) rfl h64 rfl rfl s,
    exec_layout_registers (.hdr64m lead l64 key) rfl h64 rfl rfl s⟩

end Sys2Proof.Machine
end

section
/-! The frame opcodes (spec 30_encoding.md R96, R100, R101): the four bits each row stands for, that the row exposes them in
`HFLAGS.OPCODE`, and that DECODE has exposed them already. -/

namespace Sys2Proof.Machine

/-- R100: the four bits a frame opcode of the table stands for. -/
def frameOpcode : Instr → Option (BitVec 4)
  | .frCont => some 0x0
  | .frText => some 0x1
  | .frBin => some 0x2
  | .frClose => some 0x8
  | .frPing => some 0x9
  | .frPong => some 0xA
  | .frRsvdData op => some op
  | .frRsvdCtrl op => some op
  | _ => none

theorem frameOpcode_decodeOpcode (op : BitVec 4) : frameOpcode (decodeOpcode op) = some op := by
  revert op
  decide

/-- R100: an opcode's row exposes its four bits. -/
theorem exec_frameOpcode {i : Instr} {op : BitVec 4} (hi : frameOpcode i = some op) (s : State) :
    exec i s = .next (exposeOpcode op s) := by
  cases i with
  | frCont | frText | frBin | frClose | frPing | frPong | frRsvdData _ | frRsvdCtrl _ => cases hi; rfl
  | accept | kinit | kupdate | kfinal | decode | unmask | illegal _ | hdr7 _ _ | hdr7m _ _ _ | hdr16 _ _
  | hdr16m _ _ _ | hdr64 _ _ | hdr64m _ _ _ => cases hi

/-! ### The opcode field of `HFLAGS` -/

/-- R25: a bit of `HFLAGS` after its `OPCODE` field is written. -/
theorem getLsbD_withOpcode (f : BitVec 9) (op : BitVec 4) (b : Nat) :
    (withOpcode f op).getLsbD b = if b < 4 then op.getLsbD b else f.getLsbD b := by
  rw [withOpcode, BitVec.getLsbD_append]
  by_cases hb : b < 4
  · simp [hb]
  · rw [BitVec.getLsbD_extractLsb', show 4 + (b - 4) = b by omega]
    by_cases h9 : b < 9
    · simp [hb, show b - 4 < 5 by omega]
    · simp [hb, BitVec.getLsbD_of_ge f b (by omega)]

theorem hflagsOpcode_withOpcode (f : BitVec 9) (op : BitVec 4) : hflagsOpcode (withOpcode f op) = op := by
  ext b hb
  simp [hflagsOpcode, getLsbD_withOpcode, hb]

theorem withOpcode_hflagsOpcode (f : BitVec 9) : withOpcode f (hflagsOpcode f) = f := by
  apply BitVec.eq_of_getLsbD_eq
  intro b _
  rw [getLsbD_withOpcode]
  by_cases hb : b < 4 <;> simp [hflagsOpcode, hb]

/-- R96: the opcode of a header is the low four bits of its byte 0. -/
theorem hflagsOpcode_hflagsWord (mask : Bool) (b : Byte) :
    hflagsOpcode (hflagsWord mask (Lead.ofByte b)) = b.extractLsb' 0 4 := by
  ext i hi
  rw [hflagsOpcode, BitVec.getElem_extractLsb', hflagsWord, Lead.toByte_ofByte, BitVec.getLsbD_append]
  simp
  omega

/-- R100, R101: an opcode's row completes with its four bits in `HFLAGS.OPCODE` and everything else as before. -/
theorem exec_frameOpcode_registers (i : Instr) {op : BitVec 4} (hi : frameOpcode i = some op) (s : State) :
    ∃ t, exec i s = .next t ∧ Succeeded 0x05 t ∧ hflagsOpcode t.hflags = op ∧
      (∀ b, 4 ≤ b → t.hflags.getLsbD b = s.hflags.getLsbD b) ∧ t.plen = s.plen ∧ t.mkey = s.mkey ∧
      t.hsize = s.hsize ∧ t.status.hv = s.status.hv ∧ SameBytes s t ∧ t.olen = s.olen ∧ SameKey s t ∧ SameHost s t :=
  ⟨_, exec_frameOpcode hi s, ⟨rfl, rfl, rfl⟩, hflagsOpcode_withOpcode s.hflags op,
    fun b hb => (getLsbD_withOpcode s.hflags op b).trans (if_neg hb.not_gt), rfl, rfl, rfl, rfl,
    fun _ => rfl, rfl, ⟨rfl, rfl⟩, exec_sameHost (exec_frameOpcode hi s)⟩

/-- Settles O53: each row by the four bits it stands for. -/
theorem frameOpcodesAreExposed : Obligations.FrameOpcodesAreExposed := by
  unfold Obligations.FrameOpcodesAreExposed
  intro s
  exact ⟨exec_frameOpcode_registers .frCont rfl s, exec_frameOpcode_registers .frText rfl s,
    exec_frameOpcode_registers .frBin rfl s, exec_frameOpcode_registers .frClose rfl s,
    exec_frameOpcode_registers .frPing rfl s, exec_frameOpcode_registers .frPong rfl s, fun op =>
      ⟨exec_frameOpcode_registers (.frRsvdData op) rfl s, exec_frameOpcode_registers (.frRsvdCtrl op) rfl s⟩⟩

/-! ### After a DECODE -/

/-- R213, R215: a DECODE that completes without error has committed the header of a window of at least two bytes. -/
theorem exec_decode_of_no_error {s t : State} (h : exec .decode s = .next t) (he : t.status.err = false) :
    2 ≤ s.len.toNat ∧ t = succeed 0x05 (commitHeader (headerOf (window s)) s) := by
  obtain ⟨-, hx⟩ | ⟨e, -, -, hx⟩ | ⟨-, hd, hx⟩ := execDecode_cases s <;> rw [exec, hx] at h <;> cases h
  · cases he
  · cases he
  · refine ⟨?_, rfl⟩
    by_contra hlt
    rw [decodeHeader, if_pos (by rw [window_length]; omega)] at hd
    cases hd

/-- R100: after a completion with DECODE's code the row of the opcode that is exposed already changes nothing. -/
theorem exposeOpcode_of_exposed (s : State) :
    exposeOpcode (hflagsOpcode (succeed 0x05 s).hflags) (succeed 0x05 s) = succeed 0x05 s := by
  rw [exposeOpcode, withOpcode_hflagsOpcode]
  rfl

/-- Settles O54: byte 0 of the committed header is the window's first byte, and its opcode's row writes it again. -/
theorem decodeExposesTheOpcode : Obligations.DecodeExposesTheOpcode := by
  unfold Obligations.DecodeExposesTheOpcode
  intro s t h he
  obtain ⟨hlen, rfl⟩ := exec_decode_of_no_error h he
  refine ⟨?_, ?_⟩
  · rw [succeed_hflags, commitHeader_hflags, headerOf, hflagsOpcode_hflagsWord, window_getD s (by omega), Nat.add_zero]
  · rw [exec_frameOpcode (frameOpcode_decodeOpcode _), exposeOpcode_of_exposed]

end Sys2Proof.Machine
end

section
/-! Table words (log entries 7 to 9): the word placed for the next step is fetched as the instruction it decodes to. -/

namespace Sys2Proof.Machine

/-- R132: a command whose time has come is run. -/
theorem step_of_due {s : State} (hb : s.status.busy = true) (hr : s.remaining = 0) : step s = exec (fetch s) s := by
  obtain ⟨hidle, -⟩ | ⟨k, -, hk, -⟩ | ⟨-, -, hstep⟩ := step_cases s
  · simp [hb] at hidle
  · simp [hr] at hk
  · exact hstep

/-- R112: a table word is read by the decoder of the format its width picks. -/
theorem decodeTableWord_eq_some {nbits w : Nat} {i : Instr} (h : decodeTableWord nbits w = some i) :
    ∃ f rest, formatOfWidth nbits = some f ∧ decode f (bytesOfTableWord f w) = .ok (i, rest) := by
  unfold decodeTableWord at h
  split at h
  · cases h
  · next f hf =>
    split at h <;> cases h
    next rest hd => exact ⟨f, rest, hf, hd⟩

theorem inRange_loadWindow {bs : List Byte} (h : bs.length ≤ 1024) (s : State) : inRange (loadWindow bs s) = true := by
  rw [inRange_iff]
  simp [loadWindow]
  omega

/-- R133: the window over the bytes placed at the start of `BUF` is those bytes. -/
theorem window_loadWindow {bs : List Byte} (h : bs.length ≤ 1024) (s : State) : window (loadWindow bs s) = bs := by
  have hlen : (window (loadWindow bs s)).length = bs.length := by
    rw [window_length]
    simp [loadWindow]
    omega
  refine List.ext_getElem hlen fun i hi hb => ?_
  have hread := Memory.read_writeBytes_inside bs s.mem (bufAt 0) i hb
  simpa [window, loadWindow, readBuf, bufAt, hb] using hread

/-- R112, R132: what is fetched of a placed word is what its format's decoder reads from its bytes. -/
theorem fetch_placeWord {f : Format} {w : Nat} {i : Instr} {rest : List Byte}
    (h : decode f (bytesOfTableWord f w) = .ok (i, rest)) (s : State) : fetch (placeWord f w s) = i := by
  cases f with
  | cmd8 =>
    cases h
    rfl
  | frameHdr16 =>
    have hlen : (headerBytesOfWord w).length ≤ 1024 := by simp [headerBytesOfWord]
    have hr : inRange (placeWord .frameHdr16 w s) = true := inRange_loadWindow hlen s
    have hwin : window (placeWord .frameHdr16 w s) = headerBytesOfWord w := window_loadWindow hlen s
    show headerAtWindow _ = i
    rw [headerAtWindow, if_pos hr, hwin, show decode .frameHdr16 (headerBytesOfWord w) = _ from h]
  | frameOpcode4 =>
    have hlen : [BitVec.ofNat 8 w].length ≤ 1024 := by simp
    have hr : inRange (placeWord .frameOpcode4 w s) = true := inRange_loadWindow hlen s
    have hwin : window (placeWord .frameOpcode4 w s) = [BitVec.ofNat 8 w] := window_loadWindow hlen s
    rw [bytesOfTableWord, decode] at h
    split at h <;> cases h
    show opcodeAtWindow _ = _
    rw [opcodeAtWindow, if_pos hr, hwin]
    rfl

theorem placeWord_due (f : Format) (w : Nat) (s : State) :
    (placeWord f w s).status.busy = true ∧ (placeWord f w s).remaining = 0 := by
  cases f <;> exact ⟨rfl, rfl⟩

/-- Settles O11: the placed word is due, and it is fetched as what it decodes to. -/
theorem placedWordIsRun : Obligations.PlacedWordIsRun := by
  unfold Obligations.PlacedWordIsRun
  intro s nbits w i _ h
  obtain ⟨f, rest, hf, hd⟩ := decodeTableWord_eq_some h
  obtain ⟨hbusy, hdue⟩ := placeWord_due f w s
  have hplaced : s.withFetchWord nbits w = placeWord f w s := by rw [State.withFetchWord, hf]
  rw [hplaced, step_of_due hbusy hdue, fetch_placeWord hd]

end Sys2Proof.Machine
end

section
/-! The completion of a command (spec 40_command_common.md R135, R137, R142; 60_exceptions.md R261): what it writes into
`STATUS` and `ERR`, and which check each command reports. -/

namespace Sys2Proof.Machine

/-- R138: every instruction completes. -/
theorem exec_completes (i : Instr) (s : State) : ∃ t, exec i s = .next t := by
  cases i <;> exact ⟨_, rfl⟩

/-! ### What a completion writes -/

/-- R32, R137: what a completion of the command with this code leaves in `STATUS` and `ERR`. -/
structure CompletedWith (code : Byte) (t : State) : Prop where
  busy : t.status.busy = false
  cmd : t.err.cmd = code
  errBit : t.status.err = true ↔ t.err.code ≠ 0
  errCode : t.err.code.toNat ≤ 7
  errNeed : t.err.needFits

theorem succeed_completedWith (code : Byte) (s : State) : CompletedWith code (succeed code s) where
  busy := rfl
  cmd := rfl
  errBit := by simp
  errCode := by simp
  errNeed := by simp [ErrReg.needFits]

theorem raise_completedWith {e : CmdError} {need code : Byte}
    (hneed : ErrReg.needFits { code := e.code, need := need, cmd := code }) (s : State) :
    CompletedWith code (raise e need code s) where
  busy := rfl
  cmd := rfl
  errBit := iff_of_true rfl e.code_bounds.1
  errCode := e.code_bounds.2
  errNeed := hneed

/-- R112, R200: the rows of the two frame formats have DECODE's code. -/
theorem code_of_readsHeader {i : Instr} (h : i = .decode ∨ i.format ≠ .cmd8) : i.code = 0x05 := by
  cases i with
  | decode | hdr7 _ _ | hdr7m _ _ _ | hdr16 _ _ | hdr16m _ _ _ | hdr64 _ _ | hdr64m _ _ _ | frCont | frText | frBin
  | frClose | frPing | frPong | frRsvdData _ | frRsvdCtrl _ => rfl
  | accept | kinit | kupdate | kfinal | unmask | illegal _ => simp [Instr.format] at h

/-- R137: every instruction completes with its own code. -/
theorem exec_completedWith {i : Instr} {s t : State} (h : exec i s = .next t) : CompletedWith i.code t := by
  obtain ⟨e, he, -, -, rfl⟩ | ⟨rfl, rfl⟩ | ⟨rfl, -, -, -, rfl⟩ | ⟨rfl, -, rfl⟩ | ⟨rfl, -, rfl⟩ | ⟨rfl, -, rfl⟩ |
    ⟨rfl, -, e, need, hd, rfl⟩ | ⟨hi, hd, -, rfl⟩ | ⟨hi, op, rfl⟩ := exec_cases h
  · exact raise_completedWith (needFits_of_check _ he) s
  · exact succeed_completedWith _ _
  · exact succeed_completedWith _ _
  · exact succeed_completedWith _ _
  · exact succeed_completedWith _ _
  · exact succeed_completedWith _ _
  · exact raise_completedWith (needFits_of_decodeFailure _ hd) _
  · rw [code_of_readsHeader (hi.imp_right (by simp [·]))]
    exact succeed_completedWith _ _
  · rw [code_of_readsHeader (.inr (by simp [hi]))]
    exact succeed_completedWith _ _

/-- Settles O24: the code of each completion, of those of the frame formats DECODE's, and the `NEED` of each error. -/
theorem completionWritesErr : Obligations.CompletionWritesErr := by
  unfold Obligations.CompletionWritesErr
  intro i s t h
  obtain ⟨hbusy, hcmd, hbit, hcode, hneed⟩ := exec_completedWith h
  exact ⟨hbusy, hcmd, hbit, hcode, hneed⟩

/-! ### A check that fails -/

/-- R261: no two errors have the same code. -/
theorem CmdError.code_injective {e e' : CmdError} (h : e.code = e'.code) : e = e' := by
  revert h
  cases e <;> cases e' <;> decide

/-- R142, R270: an error raised before the unit runs changes `STATUS.ERR`, `BUSY` and `ERR`. -/
theorem raise_eq_failedWith (e : CmdError) (code : Byte) (s : State) : raise e 0 code s = failedWith e code s := rfl

theorem not_check_of_decodeFailure {e : CmdError} {need : Byte} (h : DecodeFailure e need) :
    ¬(e = .illegalCommand ∨ e = .rangeError ∨ e = .sequenceError ∨ e = .lengthOverflow) := by
  obtain ⟨rfl, -⟩ | ⟨rfl, -⟩ | ⟨rfl, -⟩ := h <;> simp

/-- R137, R142: how an instruction can complete: with a failed check, with a decode error, or without error. -/
theorem exec_error_cases {i : Instr} {s t : State} (h : exec i s = .next t) :
    (∃ e, t = failedWith e i.code s) ∨
      (∃ e need, DecodeFailure e need ∧ t.err.code = e.code) ∨ t.status.err = false := by
  obtain ⟨e, -, -, -, rfl⟩ | ⟨-, rfl⟩ | ⟨-, -, -, -, rfl⟩ | ⟨-, -, rfl⟩ | ⟨-, -, rfl⟩ | ⟨-, -, rfl⟩ |
    ⟨-, -, e, need, hd, rfl⟩ | ⟨-, hd, -, rfl⟩ | ⟨-, op, rfl⟩ := exec_cases h
  case inl => exact .inl ⟨e, raise_eq_failedWith e i.code s⟩
  case inr.inr.inr.inr.inr.inr.inl => exact .inr (.inl ⟨e, need, hd, rfl⟩)
  all_goals exact .inr (.inr rfl)

/-- Settles O22: an error other than a decode error is raised by a check, before the unit changes anything. -/
theorem failedCheckChangesNothing : Obligations.FailedCheckChangesNothing := by
  unfold Obligations.FailedCheckChangesNothing
  intro i s t e h herr hcode he
  obtain ⟨e', rfl⟩ | ⟨e', need, hd, hc⟩ | hno := exec_error_cases h
  · obtain rfl := CmdError.code_injective hcode
    rfl
  · obtain rfl := CmdError.code_injective (hc.symm.trans hcode)
    exact absurd he (not_check_of_decodeFailure hd)
  · simp [hno] at herr

/-! ### The order of the checks -/

/-- R134: the range check is the first of every command on the window. -/
theorem onWindow_of_out {code : Byte} {run : State → State} {s : State} (h : 1024 < s.off.toNat + s.len.toNat) :
    onWindow code run s = raise .rangeError 0 code s :=
  onWindow_of_not_inRange (Bool.eq_false_iff.mpr (mt (inRange_iff s).mp h.not_ge))

theorem onWindow_of_not_out {code : Byte} {run : State → State} {s : State} (h : ¬1024 < s.off.toNat + s.len.toNat) :
    onWindow code run s = run s :=
  onWindow_of_inRange ((inRange_iff s).mpr (not_lt.mp h))

/-- R135, R269: a command on the window with no other check reports `RangeError` or nothing. -/
theorem onWindow_succeed_err_code (code code' : Byte) (f : State → State) (s : State) :
    (1024 < s.off.toNat + s.len.toNat → (onWindow code (fun s => succeed code' (f s)) s).err.code = 5) ∧
      (¬1024 < s.off.toNat + s.len.toNat → (onWindow code (fun s => succeed code' (f s)) s).err.code = 0) :=
  ⟨fun h => by rw [onWindow_of_out h]; rfl, fun h => by rw [onWindow_of_not_out h]; rfl⟩

/-- R172: KUPDATE checks the window, then the key context, then the length of the message. -/
theorem exec_kupdate_err_code {s t : State} (h : exec .kupdate s = .next t) :
    (1024 < s.off.toNat + s.len.toNat → t.err.code = 5) ∧
    (¬1024 < s.off.toNat + s.len.toNat → s.status.kopen = false → t.err.code = 6) ∧
    (¬1024 < s.off.toNat + s.len.toNat → s.status.kopen = true →
      2 ^ 61 - 37 < s.key.mlen.toNat + s.len.toNat → t.err.code = 7) ∧
    (¬1024 < s.off.toNat + s.len.toNat → s.status.kopen = true →
      s.key.mlen.toNat + s.len.toNat ≤ 2 ^ 61 - 37 → t.err.code = 0) := by
  obtain rfl := Host.Outcome.next.inj h
  refine ⟨fun hout => ?_, fun hin hopen => ?_, fun hin hopen hlen => ?_, fun hin hopen hlen => ?_⟩
  · rw [onWindow_of_out hout]
    rfl
  · rw [onWindow_of_not_out hin, hopen]
    rfl
  · rw [onWindow_of_not_out hin, if_pos hopen, if_neg hlen.not_ge]
    rfl
  · rw [onWindow_of_not_out hin, if_pos hopen, if_pos hlen]
    rfl

/-- R173: KFINAL checks the key context alone. -/
theorem exec_kfinal_err_code {s t : State} (h : exec .kfinal s = .next t) :
    (s.status.kopen = false → t.err.code = 6) ∧ (s.status.kopen = true → t.err.code = 0) := by
  obtain rfl := Host.Outcome.next.inj h
  exact ⟨fun hopen => by rw [hopen]; rfl, fun hopen => by rw [hopen]; rfl⟩

/-- R213: the checks of a window in range, by its length and byte 1: the first two bytes, the extended length, the
masking key. -/
theorem exec_decode_err_code_of_not_out {s t : State} (h : exec .decode s = .next t)
    (hin : ¬1024 < s.off.toNat + s.len.toNat) :
    (s.len.toNat < 2 ∧ t.err.code = 1) ∨
    (2 ≤ s.len.toNat ∧ s.len.toNat < 2 + extBytes (lengthOf (readBuf s (s.off.toNat + 1))) ∧ t.err.code = 2) ∨
    (2 + extBytes (lengthOf (readBuf s (s.off.toNat + 1))) ≤ s.len.toNat ∧
      s.len.toNat < headerBytes (readBuf s (s.off.toNat + 1)) ∧ t.err.code = 3) ∨
    (headerBytes (readBuf s (s.off.toNat + 1)) ≤ s.len.toNat ∧ t.err.code = 0) := by
  obtain rfl := Host.Outcome.next.inj h
  rw [onWindow_of_not_out hin]
  have hb1 (h2 : 2 ≤ (window s).length) : readBuf s (s.off.toNat + 1) = (window s).getD 1 0 :=
    (window_getD s (by rw [window_length] at h2; omega)).symm
  obtain ⟨hlt, hd⟩ | ⟨h2, hlt, hd⟩ | ⟨h2, hle, hlt, -, hd⟩ | ⟨h2, hle, hd⟩ := decodeHeader_cases (window s) <;> rw [hd]
  · exact .inl ⟨by rwa [window_length] at hlt, rfl⟩
  all_goals rw [← hb1 h2, window_length] at *
  · exact .inr (.inl ⟨h2, hlt, rfl⟩)
  · exact .inr (.inr (.inl ⟨hle, hlt, rfl⟩))
  · exact .inr (.inr (.inr ⟨hle, rfl⟩))

theorem exec_decode_err_code_of_out {s t : State} (h : exec .decode s = .next t)
    (hout : 1024 < s.off.toNat + s.len.toNat) : t.err.code = 5 := by
  obtain rfl := Host.Outcome.next.inj h
  rw [onWindow_of_out hout]
  rfl

/-- R135, R213: DECODE checks the window, then each part of the header in the order it is read. -/
theorem exec_decode_err_code {s t : State} (h : exec .decode s = .next t) :
    let n := s.len.toNat
    let b1 := readBuf s (s.off.toNat + 1)
    let out : Prop := 1024 < s.off.toNat + n
    (out → t.err.code = 5) ∧
    (¬out → n < 2 → t.err.code = 1) ∧
    (¬out → 2 ≤ n → n < 2 + extBytes (lengthOf b1) → t.err.code = 2) ∧
    (¬out → 2 ≤ n → 2 + extBytes (lengthOf b1) ≤ n → n < headerBytes b1 → t.err.code = 3) ∧
    (¬out → 2 ≤ n → headerBytes b1 ≤ n → t.err.code = 0) := by
  dsimp only
  by_cases hout : 1024 < s.off.toNat + s.len.toNat
  · have hin {p : Prop} (hin : ¬1024 < s.off.toNat + s.len.toNat) : p := absurd hout hin
    exact ⟨exec_decode_err_code_of_out h, hin, hin, hin, hin⟩
  have hsize : headerBytes (readBuf s (s.off.toNat + 1)) = 2 + extBytes (lengthOf (readBuf s (s.off.toNat + 1))) +
    (if maskOf (readBuf s (s.off.toNat + 1)) then 4 else 0) := rfl
  refine ⟨fun h => absurd h hout, ?_⟩
  obtain ⟨hlt, hc⟩ | ⟨hle, hlt, hc⟩ | ⟨hle, hlt, hc⟩ | ⟨hle, hc⟩ := exec_decode_err_code_of_not_out h hout
  · exact ⟨fun _ _ => hc, fun _ _ => by omega, fun _ _ => by omega, fun _ _ => by omega⟩
  · exact ⟨fun _ _ => by omega, fun _ _ _ => hc, fun _ _ => by omega, fun _ _ => by omega⟩
  · exact ⟨fun _ _ => by omega, fun _ _ => by omega, fun _ _ _ _ => hc, fun _ _ => by omega⟩
  · exact ⟨fun _ _ => by omega, fun _ _ => by omega, fun _ _ => by omega, fun _ _ _ => hc⟩

/-- Settles O23: each command by its own checks. -/
theorem orderOfTheChecks : Obligations.OrderOfTheChecks := by
  unfold Obligations.OrderOfTheChecks
  intro s n b1 out
  refine ⟨fun t h => ?_, fun t h => ?_, fun t h => exec_kupdate_err_code h, fun t h => exec_kfinal_err_code h,
    fun t h => exec_decode_err_code h, fun t h => ?_, fun c t h => ?_⟩ <;> obtain rfl := Host.Outcome.next.inj h
  · exact onWindow_succeed_err_code 0x01 0x01 _ s
  · rfl
  · exact onWindow_succeed_err_code 0x06 0x06 _ s
  · rfl

end Sys2Proof.Machine
end

section
/-! A running command (spec 40_command_common.md R130 to R138): how it starts, what the host can do while it runs, that it
completes, and that its latency is not seen by a host that waits. -/

namespace Sys2Proof.Machine

/-! ### The start -/

/-- R130: the start of a command sets `CMDL` and `BUSY`, and of the model's own fields its format and its latency. -/
theorem startCommand_eq (code : Byte) (s : State) :
    ∃ k ks n, startCommand code s =
      { s with cmdl := code, format := .cmd8, status := { s.status with busy := true }, remaining := k,
               latencies := ks, draws := n } := by
  obtain ⟨k, ks, -, e⟩ | ⟨hnil, e⟩ := startCommand_cases code s
  · exact ⟨k, ks, s.draws, e⟩
  · exact ⟨_, s.latencies, _, e⟩

/-- R130: a write to `CMD` starts the command of the low byte. -/
theorem hostWrite_cmd {v : PortWord} {s : State} (hb : s.status.busy = false) :
    hostWrite 0x800 v s = startCommand (v.setWidth 8) s :=
  hostWrite_of_idle hb

@[simp] theorem startCommand_status (code : Byte) (s : State) :
    (startCommand code s).status = { s.status with busy := true } := by
  obtain ⟨k, ks, n, e⟩ := startCommand_eq code s
  rw [e]

@[simp] theorem startCommand_format (code : Byte) (s : State) : (startCommand code s).format = .cmd8 := by
  obtain ⟨k, ks, n, e⟩ := startCommand_eq code s
  rw [e]

/-- R132: the command that starts is the one of its code. -/
theorem fetch_startCommand (code : Byte) (s : State) : fetch (startCommand code s) = decodeCommand code := by
  rw [fetch_of_cmd8 (startCommand_format code s), startCommand_cmdl]

/-- Settles O7: the start of the command of the low byte, field by field. -/
theorem writeToCmdStartsACommand : Obligations.WriteToCmdStartsACommand := by
  unfold Obligations.WriteToCmdStartsACommand
  intro s v hb
  have hfetch := fetch_startCommand (v.setWidth 8) s
  obtain ⟨k, ks, n, e⟩ := startCommand_eq (v.setWidth 8) s
  rw [hostWrite_cmd hb]
  rw [e] at hfetch ⊢
  exact ⟨rfl, rfl, rfl, rfl, rfl, rfl, rfl, rfl, rfl, rfl, rfl, rfl, rfl, rfl, rfl, hfetch⟩

/-! ### Steps -/

/-- R136: while the command runs the host takes the step, which leaves one fewer of the latency. -/
theorem step_of_running {s : State} {k : Nat} (hb : s.status.busy = true) (hr : s.remaining = k + 1) :
    step s = .next (hostStep { s with remaining := k }) := by simp [step, hb, hr]

/-- R103, R132: the instruction fetched in the format of the headers is the layout read at the window. -/
theorem fetch_of_frameHdr16 {s : State} {i : Instr} {r : List Byte} (hf : s.format = .frameHdr16)
    (hr : inRange s = true) (hd : decode .frameHdr16 (window s) = .ok (i, r)) : fetch s = i := by
  simp [fetch, hf, headerAtWindow, hr, hd]

/-- R100, R132: the instruction fetched in the format of the opcodes is that of the four low bits of the window's first
byte. -/
theorem fetch_of_frameOpcode4 {s : State} {b : Byte} {r : List Byte} (hf : s.format = .frameOpcode4)
    (hr : inRange s = true) (hw : window s = b :: r) : fetch s = decodeOpcode (b.extractLsb' 0 4) := by
  simp [fetch, hf, opcodeAtWindow, hr, hw, Lead.ofByte]

/-- Settles O10: the step of a due command by what is fetched in each format, the host's step otherwise. -/
theorem stepRunsTheDecodedInstruction : Obligations.StepRunsTheDecodedInstruction := by
  unfold Obligations.StepRunsTheDecodedInstruction
  intro s
  refine ⟨fun i r hb hr hf hd => ?_, fun i r hb hr hf hin hd => ?_, fun b r hb hr hf hin hw => ?_,
    fun k => step_of_running, step_of_not_busy⟩
  · obtain ⟨rfl, -⟩ := hd
    rw [step_of_due hb hr, fetch_of_cmd8 hf]
  · rw [step_of_due hb hr, fetch_of_frameHdr16 hf hin hd]
  · rw [step_of_due hb hr, fetch_of_frameOpcode4 hf hin hw]

/-- R71, R138: every step gives a next state. -/
theorem step_completes (s : State) : ∃ t, step s = .next t := by
  obtain ⟨-, e⟩ | ⟨k, -, -, e⟩ | ⟨-, -, e⟩ := step_cases s
  · exact ⟨_, e⟩
  · exact ⟨_, e⟩
  · rw [e]
    exact exec_completes (fetch s) s

/-- Settles O12: by induction on the length of the run, since every step gives a next state. -/
theorem everyRunGoesOn : Obligations.EveryRunGoesOn := by
  unfold Obligations.EveryRunGoesOn
  intro n
  induction n with
  | zero => exact fun s => ⟨s, rfl⟩
  | succ n ih =>
    intro s
    obtain ⟨t, h⟩ := step_completes s
    obtain ⟨u, hu⟩ := ih t
    exact ⟨u, (run_next h).trans hu⟩

/-! ### The host while a command runs -/

/-- R131, R301: while a command runs the host can reset WSB, or change only what is its own (and draw a free value). -/
theorem hostStep_of_busy {s : State} (hb : s.status.busy = true) :
    (s.host.head? = some .reset ∧ (hostStep s).status.busy = false) ∨
      (s.host.head? ≠ some .reset ∧
        ∃ v n h c, hostStep s = { s with rdata := v, draws := n, host := h, conn := c }) := by
  cases hh : s.host with
  | nil =>
    refine .inr ⟨nofun, s.rdata, s.draws, s.host, s.conn, ?_⟩
    rw [hostStep_of_host_nil hh]
  | cons op rest =>
    rw [hostStep_of_host_cons hh]
    obtain ⟨a, v, rfl, e⟩ | ⟨rfl, e⟩ | ⟨hne, v, n, h, c, e⟩ := performOp_cases op { s with host := rest } <;> rw [e]
    · rw [hostWrite_of_busy (s := { s with host := rest }) hb]
      exact .inr ⟨nofun, s.rdata, s.draws, rest, s.conn, rfl⟩
    · exact .inl ⟨rfl, rfl⟩
    · exact .inr ⟨by simpa using hne, v, n, h, c, rfl⟩

/-- R131: `STATUS` as it is read while a command runs. -/
theorem hostRead_status_of_busy {s : State} (hb : s.status.busy = true) :
    (hostRead 0x801 s).toNat = s.status.kopen.toNat * 8 + s.status.hv.toNat * 4 + s.status.err.toNat * 2 + 1 := by
  have hread : hostRead 0x801 s = s.status.word.setWidth 64 := by simp [hostRead, hb]
  rw [hread, BitVec.toNat_setWidth_of_le (by decide), Status.word_toNat, hb]
  rfl

/-- Settles O8: the start keeps the three other bits of `STATUS`, and while the command runs the host changes only what is
its own. -/
theorem busyPort : Obligations.BusyPort := by
  unfold Obligations.BusyPort
  refine ⟨fun u v hb => ?_, fun s hb => ?_⟩
  · rw [hostWrite_cmd hb, hostRead_status_of_busy (by simp), startCommand_status]
  refine ⟨fun a v => hostWrite_of_busy hb, hostRead_status_of_busy hb, fun a => ⟨_, _, rfl⟩,
    fun k op rest hr hh hne => ?_⟩
  refine ⟨_, step_of_running hb hr, ?_⟩
  obtain ⟨hreset, -⟩ | ⟨-, v, n, h, c, e⟩ := hostStep_of_busy (s := { s with remaining := k }) hb
  · simp [hh, hne] at hreset
  · rw [e]
    exact ⟨rfl, rfl, rfl, rfl⟩

/-- R138: a command with `k` steps of the host left completes within `k + 1` steps, or is abandoned by a reset. -/
theorem run_clears_busy (k : Nat) {s : State} (hb : s.status.busy = true) (hr : s.remaining = k) :
    ∃ n t, n ≤ k + 1 ∧ Host.Core.run core n s = .next t ∧ t.status.busy = false := by
  induction k generalizing s with
  | zero =>
    obtain ⟨t, h⟩ := exec_completes (fetch s) s
    exact ⟨1, t, le_rfl, run_next ((step_of_due hb hr).trans h), (exec_completedWith h).busy⟩
  | succ k ih =>
    have hstep := step_of_running hb hr
    obtain ⟨-, hclear⟩ | ⟨-, v, n, h, c, e⟩ := hostStep_of_busy (s := { s with remaining := k }) hb
    · exact ⟨1, _, by omega, run_next hstep, hclear⟩
    · rw [e] at hstep
      obtain ⟨m, t, hm, hrun, hclear⟩ :=
        ih (s := { s with remaining := k, rdata := v, draws := n, host := h, conn := c }) hb rfl
      exact ⟨m + 1, t, by omega, (run_next hstep).trans hrun, hclear⟩

/-- Settles O13: by induction on the steps of the host that are left. -/
theorem everyCommandCompletes : Obligations.EveryCommandCompletes := by
  unfold Obligations.EveryCommandCompletes
  exact fun s hb => run_clears_busy s.remaining hb rfl

end Sys2Proof.Machine
end

section
/-! The latency of a command (spec 40_command_common.md R136; 30_encoding.md R111): no command reads the host's queue or the
value of its last read, so that a host that waits sees one atomic step. -/

namespace Sys2Proof.Machine

/-- The state with another queue of the host and another value of its last read. -/
def State.withHost (h : List HostOp) (v : PortWord) (s : State) : State := { s with host := h, rdata := v }

/-- An operation that neither reads nor writes the host's queue and the value of its last read. -/
def IgnoresHost (f : State → State) : Prop := ∀ h v s, f (s.withHost h v) = (f s).withHost h v

theorem IgnoresHost.comp {f g : State → State} (hf : IgnoresHost f) (hg : IgnoresHost g) : IgnoresHost (f ∘ g) :=
  fun h v s => (congrArg f (hg h v s)).trans (hf h v (g s))

theorem ignoresHost_ite {p : State → Prop} [DecidablePred p] (hp : ∀ h v s, p (s.withHost h v) ↔ p s)
    {f g : State → State} (hf : IgnoresHost f) (hg : IgnoresHost g) : IgnoresHost fun s => if p s then f s else g s := by
  intro h v s
  dsimp only
  by_cases hs : p s
  · rw [if_pos hs, if_pos ((hp h v s).mpr hs), hf]
  · rw [if_neg hs, if_neg (mt (hp h v s).mp hs), hg]

theorem ignoresHost_raise (e : CmdError) (need code : Byte) : IgnoresHost (raise e need code) := fun _ _ _ => rfl

/-- R137: a completion without error writes nothing that is the host's. -/
theorem ignoresHost_succeed_comp (code : Byte) {f : State → State} (hf : IgnoresHost f) :
    IgnoresHost fun s => succeed code (f s) := fun h v s => congrArg (succeed code) (hf h v s)

theorem ignoresHost_onWindow (code : Byte) {run : State → State} (hrun : IgnoresHost run) :
    IgnoresHost (onWindow code run) :=
  ignoresHost_ite (fun _ _ _ => Iff.rfl) hrun (ignoresHost_raise _ _ _)

theorem ignoresHost_finishKey : IgnoresHost finishKey := by
  intro h v s
  simp only [finishKey, output, State.withHost]

/-- R136: an instruction is an operation that ignores what is the host's. -/
theorem exec_ignoresHost (i : Instr) : ∃ f, IgnoresHost f ∧ ∀ s, exec i s = .next (f s) := by
  cases i with
  | accept =>
    refine ⟨_, ignoresHost_onWindow 0x01 (ignoresHost_succeed_comp 0x01 ?_), fun _ => rfl⟩
    exact ignoresHost_finishKey.comp (g := fun s => absorbWindow { s with key := s.key.init }) fun _ _ _ => rfl
  | kinit => exact ⟨_, ignoresHost_succeed_comp 0x02 fun _ _ _ => rfl, fun _ => rfl⟩
  | kupdate =>
    refine ⟨_, ignoresHost_onWindow 0x03 (ignoresHost_ite (fun _ _ _ => Iff.rfl) (ignoresHost_ite
      (fun _ _ _ => Iff.rfl) ?_ (ignoresHost_raise _ _ _)) (ignoresHost_raise _ _ _)), fun _ => rfl⟩
    exact ignoresHost_succeed_comp 0x03 fun _ _ _ => rfl
  | kfinal =>
    refine ⟨_, ignoresHost_ite (fun _ _ _ => Iff.rfl) ?_ (ignoresHost_raise _ _ _), fun _ => rfl⟩
    exact ignoresHost_succeed_comp 0x04 ignoresHost_finishKey
  | decode =>
    refine ⟨_, ignoresHost_onWindow 0x05 fun h v s => ?_, fun _ => rfl⟩
    have hwin : window (s.withHost h v) = window s := rfl
    rw [hwin]
    cases decodeHeader (window s) <;> rfl
  | unmask => exact ⟨_, ignoresHost_onWindow 0x06 (ignoresHost_succeed_comp 0x06 fun _ _ _ => rfl), fun _ => rfl⟩
  | illegal code => exact ⟨_, ignoresHost_raise .illegalCommand 0 code, fun _ => rfl⟩
  | hdr7 _ _ | hdr7m _ _ _ | hdr16 _ _ | hdr16m _ _ _ | hdr64 _ _ | hdr64m _ _ _ | frCont | frText | frBin | frClose
  | frPing | frPong | frRsvdData _ | frRsvdCtrl _ =>
    exact ⟨_, ignoresHost_succeed_comp 0x05 fun _ _ _ => rfl, fun _ => rfl⟩

theorem exec_withHost {i : Instr} {s u : State} (hx : exec i s = .next u) (h : List HostOp) (v : PortWord) :
    exec i (s.withHost h v) = .next (u.withHost h v) := by
  obtain ⟨f, hf, he⟩ := exec_ignoresHost i
  obtain rfl := Host.Outcome.next.inj ((he s).symm.trans hx)
  rw [he, hf]

/-! ### The host's `WR CMD, v` and `WAIT` -/

theorem ignoresHost_startCommand (code : Byte) : IgnoresHost (startCommand code) := by
  intro h v s
  simp only [startCommand, drawLatency, State.withHost]
  cases s.latencies <;> rfl

/-- R130: the host's `WR CMD, v` starts the command, with the rest of the host's queue still to come. -/
theorem step_of_write_cmd {s : State} {v : PortWord} {rest : List HostOp} (hb : s.status.busy = false)
    (hh : s.host = .write 0x800 v :: rest) :
    step s = .next ((startCommand (v.setWidth 8) s).withHost rest s.rdata) := by
  rw [step_of_write hb hh, ← ignoresHost_startCommand]
  rfl

/-- R111: while the command runs a `WAIT` stays at the head of the host's queue. -/
theorem step_of_wait_running {s : State} {k : Nat} {rest : List HostOp} (hb : s.status.busy = true)
    (hr : s.remaining = k + 1) (hh : s.host = .wait :: rest) :
    step s = .next { s with remaining := k, rdata := s.status.word.setWidth 64 } := by
  rw [step_of_running hb hr, hostStep_of_host_cons (s := { s with remaining := k }) hh]
  simp [performOp, hb, hh]

/-- R111: a `WAIT` with no command running reads `STATUS` once. -/
theorem step_of_wait_idle {s : State} {rest : List HostOp} (hb : s.status.busy = false) (hh : s.host = .wait :: rest) :
    step s = .next { s with host := rest, rdata := s.status.word.setWidth 64 } := by
  rw [step_of_idle hb hh]
  simp [performOp, hb]

/-- R136: a host that waits sees the latency pass, and nothing but the value of its last read changes. -/
theorem run_of_wait_running (k : Nat) {s : State} {rest : List HostOp} (hb : s.status.busy = true)
    (hr : s.remaining = k) (hh : s.host = .wait :: rest) :
    ∃ v, ∀ m, Host.Core.run core (k + m) s = Host.Core.run core m { s with remaining := 0, rdata := v } := by
  induction k generalizing s with
  | zero => exact ⟨s.rdata, fun m => by rw [Nat.zero_add, ← hr]⟩
  | succ k ih =>
    obtain ⟨v, hv⟩ := ih (s := { s with remaining := k, rdata := s.status.word.setWidth 64 }) hb rfl hh
    refine ⟨v, fun m => ?_⟩
    rw [Nat.add_right_comm, run_next (step_of_wait_running hb hr hh), hv]

/-- R137: the command that is due completes as it would with any other queue of the host. -/
theorem step_of_due_withHost {s u : State} {i : Instr} (hb : s.status.busy = true) (hr : s.remaining = 0)
    (hf : s.format = .cmd8) (hi : decodeCommand s.cmdl = i) (hu : exec i s = .next u) (h : List HostOp) (v : PortWord) :
    step (s.withHost h v) = .next (u.withHost h v) := by
  have hfetch : fetch (s.withHost h v) = i := (fetch_of_cmd8 (s := s.withHost h v) hf).trans hi
  rw [step_of_due (s := s.withHost h v) hb hr, hfetch, exec_withHost hu]

/-- Settles O14: the write starts the command, the latency passes at the `WAIT`, the command completes whatever the host's
queue is, and the `WAIT` reads the final `STATUS`. -/
theorem latencyIsInvisible : Obligations.LatencyIsInvisible := by
  unfold Obligations.LatencyIsInvisible
  intro s v rest hb hh b
  have hstart : b = startCommand (v.setWidth 8) s := hostWrite_cmd hb
  have hbusy : b.status.busy = true := by simp [hstart]
  have hcode : decodeCommand b.cmdl = decodeCommand (v.setWidth 8) := by rw [hstart, startCommand_cmdl]
  have hformat : b.format = .cmd8 := by rw [hstart, startCommand_format]
  obtain ⟨u, hu⟩ := exec_completes (decodeCommand (v.setWidth 8)) { b with host := rest, remaining := 0 }
  refine ⟨u, hu, ?_⟩
  have hwrite := step_of_write_cmd hb hh
  obtain ⟨w, hwait⟩ :=
    run_of_wait_running b.remaining (s := b.withHost (.wait :: rest) s.rdata) (rest := rest) hbusy rfl rfl
  have hdue := step_of_due_withHost (s := { b with host := rest, remaining := 0 }) hbusy rfl hformat hcode hu
    (.wait :: rest) w
  have hread := step_of_wait_idle (s := u.withHost (.wait :: rest) w) (rest := rest) (exec_completedWith hu).busy rfl
  have hhost : u.host = rest := by
    obtain ⟨-, -, -, -, -, -, hhost, -⟩ := exec_sameHost hu
    exact hhost
  calc Host.Core.run core (b.remaining + 3) s
      = Host.Core.run core (b.remaining + 2) (b.withHost (.wait :: rest) s.rdata) := by
        rw [hstart]
        exact run_next hwrite
    _ = Host.Core.run core 2 (State.withHost (.wait :: rest) w { b with host := rest, remaining := 0 }) := hwait 2
    _ = Host.Core.run core 1 (u.withHost (.wait :: rest) w) := run_next hdue
    _ = .next { u with host := rest, rdata := u.status.word.setWidth 64 } := run_next hread
    _ = .next { u with rdata := u.status.word.setWidth 64 } := by rw [← hhost]

end Sys2Proof.Machine
end

section
/-! The key context byte by byte (spec 41_accept_key.md R160): what one byte absorbed writes, and that `absorb` may be cut
anywhere. -/

namespace Sys2Proof.Machine

/-- R160: the byte absorbed stands at the fill pointer, every other byte of `BLK` is as before. -/
theorem absorbByte_blk_getElem (k : KeyCtx) (x : Byte) (j : Fin 64) :
    (k.absorbByte x).blk[j] = if j.val = k.fill then x else k.blk[j] := by
  have hset : (k.absorbByte x).blk = k.blk.set k.fill x k.fill_lt := rfl
  rw [hset, Fin.getElem_fin, Vector.getElem_set]
  simp only [eq_comm, Fin.getElem_fin]

/-- R160: absorbing a concatenation is absorbing its parts, one after the other. -/
theorem absorb_append (k : KeyCtx) (s t : List Byte) : k.absorb (s ++ t) = (k.absorb s).absorb t :=
  List.foldl_append

/-- Settles O31: one byte by what it writes, a sequence by the fold over its bytes, the invariant by `absorb_holds`. -/
theorem absorbRule : Obligations.AbsorbRule := by
  unfold Obligations.AbsorbRule
  refine ⟨absorb_nil, fun k x s => ?_, absorb_append, fun k m s h hl => absorb_holds h s hl⟩
  exact ⟨rfl, rfl, absorbByte_blk_getElem k x, absorbByte_h k x⟩

end Sys2Proof.Machine
end

section
/-! The Accept-Key unit on the paths that complete without error (spec 41_accept_key.md R150, R170 to R174). -/

namespace Sys2Proof.Machine

/-! ### What each command does -/

/-- R137: a completion without error. -/
theorem succeed_succeeded (code : Byte) (s : State) : Succeeded code (succeed code s) := ⟨rfl, rfl, rfl⟩

/-- R171: the state with a fresh key context, which is open or closed as before. -/
def freshKey (s : State) : State := { s with key := s.key.init }

theorem exec_kinit (s : State) :
    exec .kinit s = .next (succeed 0x02 { freshKey s with status := { s.status with kopen := true } }) := rfl

/-- R172: KUPDATE past its three checks. -/
theorem exec_kupdate_of_fits {s : State} (hr : s.off.toNat + s.len.toNat ≤ 1024) (ho : s.status.kopen = true)
    (hm : s.key.mlen.toNat + s.len.toNat ≤ Config.keyMax) :
    exec .kupdate s = .next (succeed 0x03 (absorbWindow s)) := by
  simp only [exec, execKupdate, onWindow_of_inRange ((inRange_iff s).mpr hr), if_pos ho, if_pos hm]

/-- R172: a KUPDATE without error has passed its checks. -/
theorem exec_kupdate_of_no_error {s t : State} (h : exec .kupdate s = .next t) (he : t.status.err = false) :
    s.key.mlen.toNat + s.len.toNat ≤ Config.keyMax ∧ t = succeed 0x03 (absorbWindow s) := by
  obtain ⟨e, -, -, -, rfl⟩ | ⟨hi, -⟩ | ⟨-, -, -, hm, rfl⟩ | ⟨hi, -⟩ | ⟨hi, -⟩ | ⟨hi, -⟩ | ⟨hi, -⟩ | ⟨hi, -⟩ | ⟨hi, -⟩ :=
    exec_cases h
  case inl => simp at he
  case inr.inr.inl => exact ⟨hm, rfl⟩
  all_goals simp [Instr.format] at hi

/-- R173: KFINAL with an open context. -/
theorem exec_kfinal_of_open {s : State} (ho : s.status.kopen = true) :
    exec .kfinal s = .next (succeed 0x04 (finishKey s)) := by
  simp only [exec, execKfinal, if_pos ho]

/-- R170: ACCEPT past its check. -/
theorem exec_accept_of_inRange {s : State} (hr : s.off.toNat + s.len.toNat ≤ 1024) :
    exec .accept s = .next (succeed 0x01 (finishKey (absorbWindow (freshKey s)))) := by
  simp only [exec, execAccept, onWindow_of_inRange ((inRange_iff s).mpr hr), freshKey]

/-- Settles O29: a fresh context by definition, the rest by the frame of the unit. -/
theorem kinitOpensAFreshContext : Obligations.KinitOpensAFreshContext := by
  unfold Obligations.KinitOpensAFreshContext
  intro s
  obtain ⟨hheader, hhost, hbytes, -⟩ := acceptKeyFrame .kinit s _ (by simp) (exec_kinit s)
  obtain ⟨hmem, holen⟩ := hbytes (.inl rfl)
  exact ⟨_, exec_kinit s, succeed_succeeded _ _, rfl, rfl, rfl, rfl, hmem, holen, hheader, hhost⟩

/-- Settles O30: the three checks pass, `MLEN` does not wrap, an empty window has no byte, the rest is the unit's frame. -/
theorem kupdateAbsorbsTheWindow : Obligations.KupdateAbsorbsTheWindow := by
  unfold Obligations.KupdateAbsorbsTheWindow
  intro s hr ho hm
  have hx := exec_kupdate_of_fits hr ho hm
  obtain ⟨hheader, hhost, hbytes, -⟩ := acceptKeyFrame .kupdate s _ (by simp) hx
  obtain ⟨hmem, holen⟩ := hbytes (.inr rfl)
  have hempty (hl : s.len = 0) : s.key.absorb (window s) = s.key := by
    rw [List.eq_nil_of_length_eq_zero (l := window s) (by simp [hl]), absorb_nil]
  exact ⟨_, hx, succeed_succeeded _ _, rfl, absorbWindow_mlen_toNat hm, ho, hempty, hmem, holen, hheader, hhost⟩

/-! ### The accept key -/

/-- R150, R161: what finishing a context that holds the message `m` leaves. -/
theorem finishKey_of_holds {s : State} {m : List Byte} (h : s.key.Holds m) (hl : m.length ≤ Config.keyMax) :
    (finishKey s).key.h = sha1 (m ++ guid) ∧ (finishKey s).key.mlen.toNat = m.length + 36 ∧
      ∀ i, i < 28 → readObuf (finishKey s) i = (acceptKey m).getD i 0 := by
  obtain ⟨hh, hmlen⟩ := finish_of_holds h (blkOf (Config.finishBlk s.draws))
    (lt_of_le_of_lt (Nat.add_le_add_right hl 36) (by decide))
  rw [← finishKey_key] at hh hmlen
  exact ⟨hh, hmlen, fun i hi => by rw [readObuf_finishKey s hi, hh, acceptKey]⟩

/-- R173: `finish()` absorbs the 36 bytes of the GUID. -/
theorem finishKey_mlen (s : State) : (finishKey s).key.mlen = s.key.mlen + 36 := by
  rw [finishKey_key, finish_mlen, absorb_mlen, guid_length]
  rfl

theorem finishKey_olen_eq (s : State) : (finishKey s).olen = 28 := by simp

/-- Settles O33: KFINAL is `finish()`, and a context that holds a message gives that message's accept key. -/
theorem kfinalGivesTheAcceptKey : Obligations.KfinalGivesTheAcceptKey := by
  unfold Obligations.KfinalGivesTheAcceptKey
  intro s ho
  refine ⟨_, exec_kfinal_of_open ho, succeed_succeeded _ _, by simp, ?_⟩
  simp only [succeed_olen, succeed_key, readObuf_succeed]
  exact ⟨finishKey_olen_eq s, finishKey_mlen s, fun _ => readObuf_finishKey s, fun _ => finishKey_of_holds⟩

/-- R158: a window is never too long for a fresh context. -/
theorem State.len_le_keyMax (s : State) : s.len.toNat ≤ Config.keyMax := s.len.isLt.le.trans (by decide)

/-- R170, R171: after the window is absorbed a fresh context holds the window. -/
theorem absorbWindow_freshKey_holds (s : State) : (absorbWindow (freshKey s)).key.Holds (window s) := by
  have hlen : (window s).length < 2 ^ 16 := by simpa using s.len.isLt
  exact absorb_holds (init_holds s.key) (window s) (by simp; omega)

/-- Settles O34: ACCEPT finishes a fresh context that has absorbed the window. -/
theorem acceptGivesTheAcceptKey : Obligations.AcceptGivesTheAcceptKey := by
  unfold Obligations.AcceptGivesTheAcceptKey
  intro s hr
  have hlen : (window s).length ≤ Config.keyMax := by rw [window_length]; exact s.len_le_keyMax
  obtain ⟨hh, hmlen, hobuf⟩ := finishKey_of_holds (absorbWindow_freshKey_holds s) hlen
  rw [window_length] at hmlen
  refine ⟨_, exec_accept_of_inRange hr, succeed_succeeded _ _, by simp, ?_⟩
  simp only [succeed_olen, succeed_key, readObuf_succeed]
  exact ⟨finishKey_olen_eq _, hmlen, hh, hobuf⟩

/-! ### ACCEPT and the streaming form -/

/-- R161: `finish()` reads neither `STATUS` nor `ERR`, and of the two it writes `STATUS.KOPEN` alone. -/
theorem finishKey_with_completion (s : State) (busy err kopen : Bool) (e : ErrReg) :
    finishKey { s with status := { s.status with busy := busy, err := err, kopen := kopen }, err := e } =
      { finishKey s with status := { (finishKey s).status with busy := busy, err := err }, err := e } := by
  simp only [finishKey, output]

/-- Settles O36: both forms finish a fresh context that has absorbed the window, and differ before it in `STATUS` and `ERR`
alone, which the completion writes. -/
theorem acceptEqualsStreaming : Obligations.AcceptEqualsStreaming := by
  unfold Obligations.AcceptEqualsStreaming
  intro s hr
  have hfits : (freshKey s).key.mlen.toNat + s.len.toNat ≤ Config.keyMax :=
    (Nat.zero_add s.len.toNat).trans_le s.len_le_keyMax
  refine ⟨_, _, _, _, exec_kinit s, exec_kupdate_of_fits hr rfl hfits, exec_kfinal_of_open rfl,
    exec_accept_of_inRange hr, ?_⟩
  have hfinish := finishKey_with_completion (absorbWindow (freshKey s)) false false true
    { code := 0, need := 0, cmd := 0x03 }
  refine .trans ?_ (congrArg (fun t => { succeed 0x04 t with err := { code := 0, need := 0, cmd := 0x01 } }) hfinish.symm)
  generalize finishKey (absorbWindow (freshKey s)) = t
  rfl

/-- R174: a context that has taken the pieces is open and holds the pieces joined. -/
theorem Streamed.holds {ps : List (List Byte)} {s : State} (h : Streamed ps s) :
    s.status.kopen = true ∧ ps.flatten.length ≤ Config.keyMax ∧ s.key.Holds ps.flatten := by
  induction h with
  | opened s t h =>
    obtain rfl := Host.Outcome.next.inj ((exec_kinit s).symm.trans h)
    exact ⟨rfl, Nat.zero_le _, init_holds s.key⟩
  | fed ps s u t _ hk h hok ih =>
    obtain ⟨hopen, -, hholds⟩ := ih
    obtain ⟨hkey, hkopen⟩ := hk
    obtain ⟨hmax, rfl⟩ := exec_kupdate_of_no_error h hok
    rw [← hkey] at hholds
    have hlen : (ps.flatten ++ window u).length ≤ Config.keyMax := by
      rw [List.length_append, window_length, ← hholds.1]
      exact hmax
    rw [List.flatten_append, List.flatten_singleton]
    refine ⟨hkopen.trans hopen, hlen, absorb_holds hholds (window u) ?_⟩
    rw [← List.length_append]
    exact lt_of_le_of_lt hlen (by decide)

/-- Settles O37: by induction on the history the context holds the pieces joined, and KFINAL gives its accept key. -/
theorem splitDoesNotMatter : Obligations.SplitDoesNotMatter := by
  unfold Obligations.SplitDoesNotMatter
  intro ps s u hs hk
  obtain ⟨hopen, hlen, hholds⟩ := hs.holds
  obtain ⟨hkey, hkopen⟩ := hk
  obtain ⟨-, -, hobuf⟩ := finishKey_of_holds (s := u) (hkey ▸ hholds) hlen
  refine ⟨_, exec_kfinal_of_open (hkopen.trans hopen), by simp, ?_⟩
  simpa only [readObuf_succeed] using hobuf

end Sys2Proof.Machine
end

section
/-! The padding of SHA-1 (spec 41_accept_key.md R153). -/

namespace Sys2Proof.Machine

/-- R153: no smaller number of zeros fills the last block. -/
theorem padZeros_least {T z : Nat} (h : z < padZeros T) : (T + 1 + z) % 64 ≠ 56 := by
  unfold padZeros at h
  omega

/-- R153: the number of zeros as the rule gives it, the remainder of an integer. -/
theorem padZeros_eq_emod (T : Nat) : (padZeros T : Int) = (55 - (T : Int)) % 64 := by
  unfold padZeros
  omega

/-- R153: the padded message by how much of its last block the message fills. -/
theorem pad_length (m : List Byte) :
    (pad m).length = 64 * (m.length / 64 + if m.length % 64 ≤ 55 then 1 else 2) := by
  have hpad : (pad m).length = m.length + (9 + padZeros m.length) := by simp [pad]
  rw [hpad]
  unfold padZeros
  split <;> omega

theorem pad_eq (m : List Byte) :
    pad m = m ++ [0x80] ++ List.replicate (padZeros m.length) 0x00 ++ bytesBE (8 * m.length) 8 := by
  simp [pad, padTail]

/-- R153: where the message leaves no room for the length, the last block holds zeros and the length alone. -/
theorem pad_drop_of_56 (m : List Byte) (h : m.length % 64 = 56) :
    (pad m).drop (64 * (m.length / 64 + 1)) = List.replicate 56 0x00 ++ bytesBE (8 * m.length) 8 := by
  have hz : padZeros m.length = 7 + 56 := by rw [padZeros, h]
  rw [pad_eq, hz, List.replicate_add, ← List.append_assoc, List.append_assoc]
  exact List.drop_left' (by simp; omega)

/-- R153: after whole blocks the padding starts a block of its own. -/
theorem pad_drop_of_whole (m : List Byte) (h : m.length % 64 = 0) :
    (pad m).drop (64 * (m.length / 64)) = padTail m.length :=
  List.drop_left' (by omega)

/-- Settles O39: `padZeros` is the number of zeros, and the corner cases are where its value is 0, 63 or 55. -/
theorem paddingRule : Obligations.PaddingRule := by
  unfold Obligations.PaddingRule
  intro m
  obtain ⟨hfill, -⟩ := padZeros_spec m.length
  have hlen := pad_length m
  refine ⟨padZeros m.length, pad_eq m, hfill, fun _ => padZeros_least, padZeros_eq_emod _, pad_length_mod m,
    fun h => ?_, fun h => ?_, fun h => ?_, fun h => ⟨?_, pad_drop_of_56 m h⟩, fun h => ?_⟩
  · rwa [if_pos h] at hlen
  · rwa [if_neg (by omega)] at hlen
  · rw [padZeros, h]
  · rw [padZeros, h]
  · rw [pad_drop_of_whole m h, padTail, List.head?_cons]

end Sys2Proof.Machine
end

section
/-! The shape of an accept key (spec 41_accept_key.md R165 to R167): 27 characters of the alphabet and one pad. -/

namespace Sys2Proof.Machine

/-- R165: a character of the alphabet is printable and is not the pad. -/
theorem b64Char_printable {v : Nat} (h : v < 64) :
    b64Char v ≠ b64Pad ∧ 0x21 ≤ (b64Char v).toNat ∧ (b64Char v).toNat ≤ 0x7E := by
  have hall : ∀ v : Fin 64, b64Char v ≠ b64Pad ∧ 0x21 ≤ (b64Char v).toNat ∧ (b64Char v).toNat ≤ 0x7E := by decide
  exact hall ⟨v, h⟩

/-- R166: the four alphabet values of three bytes. -/
def groupValues (b0 b1 b2 : Byte) : List Nat :=
  let x := b0.toNat * 65536 + b1.toNat * 256 + b2.toNat
  [x / 2 ^ 18 % 64, x / 2 ^ 12 % 64, x / 2 ^ 6 % 64, x % 64]

/-- R166: the three alphabet values of the last two bytes, the last with two zero bits. -/
def lastValues (b0 b1 : Byte) : List Nat :=
  let y := b0.toNat * 256 + b1.toNat
  [y / 2 ^ 10 % 64, y / 2 ^ 4 % 64, y % 16 * 4]

/-- R166: the 24 alphabet values of the first 18 bytes. -/
def firstValues (D : List Byte) : List Nat :=
  (List.range 6).flatMap fun g => groupValues (D.getD (3 * g) 0) (D.getD (3 * g + 1) 0) (D.getD (3 * g + 2) 0)

/-- R166: the 27 alphabet values of a digest. -/
def digestValues (D : List Byte) : List Nat := firstValues D ++ lastValues (D.getD 18 0) (D.getD 19 0)

theorem base64_20_eq (D : List Byte) : base64_20 D = (digestValues D).map b64Char ++ [b64Pad] := rfl

theorem digestValues_length (D : List Byte) : (digestValues D).length = 27 := rfl

theorem groupValues_lt (b0 b1 b2 : Byte) : ∀ v ∈ groupValues b0 b1 b2, v < 64 := by
  simp only [groupValues, List.mem_cons, List.not_mem_nil, or_false]
  omega

theorem lastValues_lt (b0 b1 : Byte) : ∀ v ∈ lastValues b0 b1, v < 64 := by
  simp only [lastValues, List.mem_cons, List.not_mem_nil, or_false]
  omega

theorem digestValues_lt (D : List Byte) : ∀ v ∈ digestValues D, v < 64 := by
  intro v hv
  obtain hfirst | hlast := List.mem_append.mp hv
  · obtain ⟨g, -, hg⟩ := List.mem_flatMap.mp hfirst
    exact groupValues_lt _ _ _ v hg
  · exact lastValues_lt _ _ v hlast

/-- R166: before the pad, each character is that of its alphabet value. -/
theorem base64_20_getD (D : List Byte) {i : Nat} (h : i < 27) :
    (base64_20 D).getD i 0 = b64Char ((digestValues D).getD i 0) := by
  have hi : i < (digestValues D).length := by rwa [digestValues_length]
  have hi' : i < ((digestValues D).map b64Char).length := by rwa [List.length_map]
  rw [base64_20_eq, List.getD_append _ _ _ _ hi', List.getD_eq_getElem _ _ hi', List.getElem_map,
    List.getD_eq_getElem _ _ hi]

/-- Settles O40: 27 alphabet values below 64, the last of them four times the low four bits, and the pad. -/
theorem acceptKeyShape : Obligations.AcceptKeyShape := by
  unfold Obligations.AcceptKeyShape
  intro token
  unfold acceptKey
  generalize digestBytes (sha1 (token ++ guid)) = D
  refine ⟨base64_20_length D, rfl, fun i hi => ?_, ?_, fun c hc => ?_⟩
  · rw [base64_20_getD D hi, List.getD_eq_getElem _ _ (by rwa [digestValues_length])]
    exact (b64Char_printable (digestValues_lt D _ (List.getElem_mem _))).1
  · refine ⟨((D.getD 18 0).toNat * 256 + (D.getD 19 0).toNat) % 16, Nat.mod_lt _ (by decide), ?_⟩
    rw [base64_20_getD D (by decide), Nat.mul_comm]
    rfl
  · rw [base64_20_eq] at hc
    obtain hchar | hpad := List.mem_append.mp hc
    · obtain ⟨v, hv, rfl⟩ := List.mem_map.mp hchar
      exact (b64Char_printable (digestValues_lt D v hv)).2
    · rw [List.mem_singleton.mp hpad]
      decide

end Sys2Proof.Machine
end

section
/-! The outcomes of `decodeHeader` (spec 42_frame_header_decode.md R205, R213): one equation by the length of the data and
byte 1, and from it the table of R213 and the size of a header. -/

namespace Sys2Proof.Machine

/-- R104, R205: the size of a header from the two fields of its byte 1. -/
theorem headerBytes_eq {b : Byte} {mask : Bool} {x : Nat} (hm : maskOf b = mask) (hx : extBytes (lengthOf b) = x) :
    headerBytes b = 2 + x + (if mask then 4 else 0) := by rw [← hm, ← hx]; rfl

theorem add_extBytes_le_headerBytes (b : Byte) : 2 + extBytes (lengthOf b) ≤ headerBytes b := Nat.le_add_right _ _

/-- R213, R215: `decodeHeader` checks the first two bytes, the extended length and the masking key, in this order. -/
theorem decodeHeader_eq (data : List Byte) :
    decodeHeader data =
      if data.length < 2 then .error ⟨.frameTooShort, 2⟩
      else if data.length < 2 + extBytes (lengthOf (data.getD 1 0)) then
        .error ⟨.extendedLengthTruncated, 2 + extBytes (lengthOf (data.getD 1 0))⟩
      else if data.length < headerBytes (data.getD 1 0) then .error ⟨.maskingKeyTruncated, headerBytes (data.getD 1 0)⟩
      else .ok (headerOf data) := by
  have hle := add_extBytes_le_headerBytes (data.getD 1 0)
  obtain ⟨hshort, hd⟩ | ⟨h2, hlt, hd⟩ | ⟨h2, hext, hlt, -, hd⟩ | ⟨h2, hwhole, hd⟩ := decodeHeader_cases data <;> rw [hd]
  · rw [if_pos hshort]
  · rw [if_neg h2.not_gt, if_pos hlt]
  · rw [if_neg h2.not_gt, if_neg hext.not_gt, if_pos hlt]
  · rw [if_neg h2.not_gt, if_neg (hle.trans hwhole).not_gt, if_neg hwhole.not_gt]

/-- R205, R209: a header is decoded exactly where it is wholly there. -/
theorem decodeHeader_eq_ok_iff {data : List Byte} {h : Header} :
    decodeHeader data = .ok h ↔ headerBytes (data.getD 1 0) ≤ data.length ∧ headerOf data = h := by
  constructor
  · intro hd
    obtain ⟨-, he⟩ | ⟨-, -, he⟩ | ⟨-, -, -, -, he⟩ | ⟨-, hle, he⟩ := decodeHeader_cases data <;>
      cases he.symm.trans hd
    exact ⟨hle, rfl⟩
  · rintro ⟨hle, rfl⟩
    have hsize := add_extBytes_le_headerBytes (data.getD 1 0)
    exact decodeHeader_of_whole (by omega) hle

/-- Settles O45: a decoded header is the one the data holds, and its size is that of its byte 1. -/
theorem headerSizeFormula : Obligations.HeaderSizeFormula := by
  unfold Obligations.HeaderSizeFormula
  intro data
  refine ⟨fun h hd => ?_, fun _ => ?_⟩
  · obtain ⟨-, rfl⟩ := decodeHeader_eq_ok_iff.mp hd
    exact ⟨rfl, headerBytes_cases (data.getD 1 0)⟩
  · simp [decodeHeader_eq_ok_iff]

section
variable {data : List Byte} {x : Nat}

/-- R201: the first line of the table. -/
theorem decodeHeader_of_short (h : data.length < 2) : decodeHeader data = .error ⟨.frameTooShort, 2⟩ := by
  rw [decodeHeader_eq, if_pos h]

/-- R204: the line of the table in which the extended length is cut off. -/
theorem decodeHeader_of_length_truncated (hx : extBytes (lengthOf (data.getD 1 0)) = x) (h2 : 2 ≤ data.length)
    (hlt : data.length < 2 + x) : decodeHeader data = .error ⟨.extendedLengthTruncated, 2 + x⟩ := by
  rw [decodeHeader_eq, hx, if_neg h2.not_gt, if_pos hlt]

/-- R213: the line of a layout without a key. -/
theorem decodeHeader_of_unmasked (hx : extBytes (lengthOf (data.getD 1 0)) = x) (hle : 2 + x ≤ data.length)
    (hm : maskOf (data.getD 1 0) = false) : ∃ h, decodeHeader data = .ok h ∧ h.headerSize = 2 + x :=
  have hsize : headerBytes (data.getD 1 0) = 2 + x := headerBytes_eq hm hx
  ⟨headerOf data, decodeHeader_eq_ok_iff.mpr ⟨hsize ▸ hle, rfl⟩, hsize⟩

/-- R208, R213: the line of a layout with a key, whose last four bytes may be cut off. -/
theorem decodeHeader_of_masked (hx : extBytes (lengthOf (data.getD 1 0)) = x) (hle : 2 + x ≤ data.length)
    (hm : maskOf (data.getD 1 0) = true) :
    (data.length < 2 + x + 4 → decodeHeader data = .error ⟨.maskingKeyTruncated, 2 + x + 4⟩) ∧
      (2 + x + 4 ≤ data.length → ∃ h, decodeHeader data = .ok h ∧ h.headerSize = 2 + x + 4) := by
  have hsize : headerBytes (data.getD 1 0) = 2 + x + 4 := headerBytes_eq hm hx
  refine ⟨fun hlt => ?_, fun hwhole => ⟨headerOf data, decodeHeader_eq_ok_iff.mpr ⟨hsize ▸ hwhole, rfl⟩, hsize⟩⟩
  rw [decodeHeader_eq, hx, hsize, if_neg (by omega), if_neg hle.not_gt, if_pos hlt]

end

/-- Settles O44: the three lines of each width of the extended length, 0, 2 and 8 bytes. -/
theorem outcomeTable : Obligations.OutcomeTable := by
  unfold Obligations.OutcomeTable
  intro data n m L err ok
  have h0 (h : L ≤ 125) : extBytes (lengthOf (data.getD 1 0)) = 0 := if_pos h
  have h2 (h : L = 126) : extBytes (lengthOf (data.getD 1 0)) = 2 := by
    rw [extBytes, if_neg (by omega), if_pos h]
  have h8 (h : L = 127) : extBytes (lengthOf (data.getD 1 0)) = 8 := by
    rw [extBytes, if_neg (by omega), if_neg (by omega)]
  exact ⟨decodeHeader_of_short,
    fun hn hm hL => decodeHeader_of_unmasked (h0 hL) hn hm,
    fun hn hm hL => decodeHeader_of_masked (h0 hL) hn hm,
    fun hn hL hlt => decodeHeader_of_length_truncated (h2 hL) hn hlt,
    fun hn hL hm => decodeHeader_of_unmasked (h2 hL) hn hm,
    fun hn hL hm => decodeHeader_of_masked (h2 hL) hn hm,
    fun hn hL hlt => decodeHeader_of_length_truncated (h8 hL) hn hlt,
    fun hn hL hm => decodeHeader_of_unmasked (h8 hL) hn hm,
    fun hn hL hm => decodeHeader_of_masked (h8 hL) hn hm⟩

end Sys2Proof.Machine
end

section
/-! DECODE (spec 42_frame_header_decode.md R200, R211, R212): its frame, the registers after a header and after a decode
error, and that it reads the first 14 bytes of its window alone. -/

namespace Sys2Proof.Machine

/-! ### The frame -/

/-- R65: DECODE leaves the key context alone. -/
theorem exec_decode_sameKey {s t : State} (h : exec .decode s = .next t) : SameKey s t := by
  obtain ⟨-, hx⟩ | ⟨e, -, -, hx⟩ | ⟨-, -, hx⟩ := execDecode_cases s <;> cases hx.symm.trans h <;> exact ⟨rfl, rfl⟩

/-- Settles O48: DECODE puts nothing out, and writes neither the key context nor what is the host's. -/
theorem decodeFrame : Obligations.DecodeFrame := by
  unfold Obligations.DecodeFrame
  intro s t h
  obtain ⟨hbytes, holen⟩ := exec_sameBytes_of_no_output h (by simp)
  exact ⟨hbytes, holen, exec_decode_sameKey h, exec_sameHost h⟩

/-! ### A header in the window -/

/-- R133: byte `i` of the window. -/
def windowByte (s : State) (i : Nat) : Byte := readBuf s (s.off.toNat + i)

theorem getD_window (s : State) {i : Nat} (h : i < s.len.toNat) : (window s).getD i 0 = windowByte s i :=
  window_getD s h

/-- R9, R133: a part of the window, byte by byte. -/
theorem slice_window (s : State) (a : Nat) {n : Nat} (h : a + n ≤ s.len.toNat) :
    slice (window s) a (a + n) = (List.range n).map fun i => windowByte s (a + i) := by
  apply List.ext_getElem
  · simp [slice]
    omega
  · intro i _ _
    simp [slice, window, windowByte]

/-- R24, R208: a masking key packed big-endian is its four bytes one after another. -/
theorem ofNat_be_four (k0 k1 k2 k3 : Byte) : BitVec.ofNat 32 (be [k0, k1, k2, k3]) = k0 ++ k1 ++ k2 ++ k3 := by
  apply BitVec.eq_of_toNat_eq
  simp only [toNat_append_eq_add, BitVec.toNat_ofNat, be, List.foldl_cons, List.foldl_nil]
  omega

/-- R98: the payload length by the three cases of the length field. -/
theorem payloadOf_window {s : State} (h2 : 2 ≤ s.len.toNat)
    (h : 2 + extBytes (lengthOf (windowByte s 1)) ≤ s.len.toNat) :
    payloadOf (window s) =
      if (lengthOf (windowByte s 1)).toNat ≤ 125 then (lengthOf (windowByte s 1)).toNat
      else if (lengthOf (windowByte s 1)).toNat = 126 then (windowByte s 2).toNat * 256 + (windowByte s 3).toNat
      else be ((List.range 8).map fun i => windowByte s (2 + i)) := by
  rw [payloadOf, getD_window s h2]
  obtain ⟨hL, hx⟩ | ⟨hL, hx⟩ | ⟨hL, hx⟩ := extBytes_cases (lengthOf (windowByte s 1)) <;> rw [hx] at h
  · rw [if_pos hL, if_pos hL]
  · rw [getD_window s (by omega), getD_window s (by omega)]
    simp [hL]
  · rw [slice_window s 2 h]
    simp [hL]

/-- R208: the masking key is the four bytes after the length, or there is none. -/
theorem keyOf_window {s : State} (h2 : 2 ≤ s.len.toNat) (h : headerBytes (windowByte s 1) ≤ s.len.toNat) :
    (keyOf (window s)).getD 0 =
      let hs := 2 + extBytes (lengthOf (windowByte s 1))
      if maskOf (windowByte s 1) then
        windowByte s hs ++ windowByte s (hs + 1) ++ windowByte s (hs + 2) ++ windowByte s (hs + 3)
      else 0 := by
  rw [keyOf, getD_window s h2]
  dsimp only
  cases hm : maskOf (windowByte s 1) with
  | false => rfl
  | true =>
    rw [headerBytes_eq hm rfl, if_pos rfl] at h
    rw [if_pos rfl, if_pos rfl, slice_window s _ h]
    exact ofNat_be_four _ _ _ _

theorem headerBytes_le (b : Byte) : headerBytes b ≤ 14 := by
  have := headerBytes_cases b
  omega

/-- Settles O41: DECODE commits the header its window holds, whose fields are the window's bytes. -/
theorem decodeWritesTheHeader : Obligations.DecodeWritesTheHeader := by
  unfold Obligations.DecodeWritesTheHeader
  intro s hr h2 d L hs hle
  have hb1 : (window s).getD 1 0 = d 1 := getD_window s h2
  have hx : exec .decode s = .next (succeed 0x05 (commitHeader (headerOf (window s)) s)) :=
    execDecode_of_ok ((inRange_iff s).mpr hr) (decodeHeader_eq_ok_iff.mpr ⟨by rwa [hb1, window_length], rfl⟩)
  obtain ⟨-, -, hpl⟩ := payloadOf_lt (window s)
  refine ⟨_, hx, succeed_succeeded _ _, rfl, ?_, ?_, ?_, ?_, decodeFrame s _ hx⟩
  · rw [succeed_hflags, commitHeader_hflags, headerOf, hflagsWord, Lead.toByte_ofByte, hb1, getD_window s (by omega)]
    rfl
  · rw [succeed_hsize, commitHeader_hsize, headerOf, hb1, BitVec.toNat_ofNat]
    exact Nat.mod_eq_of_lt (Nat.lt_succ_of_le ((headerBytes_le (d 1)).trans (by decide)))
  · rw [succeed_plen, commitHeader_plen, BitVec.toNat_ofNat, headerOf, Nat.mod_eq_of_lt hpl]
    exact payloadOf_window h2 ((add_extBytes_le_headerBytes (d 1)).trans hle)
  · exact keyOf_window h2 hle

/-! ### No header in the window -/

/-- R212: DECODE of a window in range clears the header registers and reports the error its function answers. -/
theorem execDecode_of_error {s : State} {e : HeaderError} (hr : inRange s = true)
    (hd : decodeHeader (window s) = .error e) :
    exec .decode s = .next (raise e.error (BitVec.ofNat 8 e.need) 0x05 (clearHeader s)) := by
  rw [exec, execDecode, onWindow_of_inRange hr, hd]

/-- R201, R204, R208: what the decoder of the table's rows refuses, DECODE's function answers with the same error. -/
theorem decodeHeader_of_reject {data : List Byte} {r : Reject} (h : decodeHeaderBytes data = .error r) :
    ∃ e, decodeHeader data = .error e ∧
      ((r = .frameTooShort ∧ e = ⟨.frameTooShort, 2⟩) ∨
        (r = .extendedLengthTruncated ∧ 2 ≤ data.length ∧ 0 < extBytes (lengthOf (data.getD 1 0)) ∧
          e = ⟨.extendedLengthTruncated, 2 + extBytes (lengthOf (data.getD 1 0))⟩) ∨
        (r = .maskingKeyTruncated ∧ 2 ≤ data.length ∧ e = ⟨.maskingKeyTruncated, headerBytes (data.getD 1 0)⟩)) := by
  match data with
  | [] | [_] =>
    cases h
    exact ⟨_, rfl, .inl ⟨rfl, rfl⟩⟩
  | b0 :: b1 :: s =>
    have h2 : 2 ≤ (b0 :: b1 :: s).length := Nat.le_add_left 2 s.length
    obtain ⟨rfl, hlt⟩ | ⟨rfl, hm, hle, hlt⟩ := decodeHeaderBytes_eq_error h
    · refine ⟨_, decodeHeader_of_length_truncated rfl h2 ?_, .inr (.inl ⟨rfl, h2, Nat.zero_lt_of_lt hlt, rfl⟩)⟩
      simp only [List.length_cons, List.getD_cons_succ, List.getD_cons_zero]
      omega
    · have hsize : headerBytes b1 = 2 + extBytes (lengthOf b1) + 4 := headerBytes_eq hm rfl
      obtain ⟨hkey, -⟩ := decodeHeader_of_masked (data := b0 :: b1 :: s) rfl (by simp; omega) hm
      exact ⟨_, hkey (by simp; omega), .inr (.inr ⟨rfl, h2, by simp [hsize]⟩)⟩

/-- R204: the window an extended length asks for. -/
theorem need_of_extBytes {L : BitVec 7} (h : 0 < extBytes L) :
    BitVec.ofNat 8 (2 + extBytes L) = if L.toNat = 126 then 4 else 10 := by
  obtain ⟨-, hx⟩ | ⟨hL, hx⟩ | ⟨hL, hx⟩ := extBytes_cases L
  · omega
  · rw [hx, if_pos hL]
    rfl
  · rw [hx, if_neg (by omega)]
    rfl

/-- Settles O43: each refusal by the error DECODE's function answers. -/
theorem decodeErrorClearsTheHeader : Obligations.DecodeErrorClearsTheHeader := by
  unfold Obligations.DecodeErrorClearsTheHeader
  intro s r hr hd
  obtain ⟨e, he, hcase⟩ := decodeHeader_of_reject hd
  have hx := execDecode_of_error ((inRange_iff s).mpr hr) he
  have hb1 (h2 : 2 ≤ (window s).length) : (window s).getD 1 0 = readBuf s (s.off.toNat + 1) :=
    getD_window s (by rwa [window_length] at h2)
  refine ⟨_, hx, rfl, rfl, rfl, rfl, rfl, rfl, rfl, rfl, ?_⟩
  obtain ⟨rfl, rfl⟩ | ⟨rfl, h2, hpos, rfl⟩ | ⟨rfl, h2, rfl⟩ := hcase
  · exact ⟨fun _ => ⟨rfl, rfl⟩, nofun, nofun, .inl rfl, decodeFrame s _ hx⟩
  · refine ⟨nofun, fun _ => ⟨rfl, ?_⟩, nofun, .inr (.inl rfl), decodeFrame s _ hx⟩
    rw [← hb1 h2]
    exact need_of_extBytes hpos
  · refine ⟨nofun, nofun, fun _ => ⟨rfl, ?_⟩, .inr (.inr rfl), decodeFrame s _ hx⟩
    rw [← hb1 h2, raise_err, BitVec.toNat_ofNat]
    exact Nat.mod_eq_of_lt (Nat.lt_of_le_of_lt (headerBytes_le _) (by decide))

/-! ### The first 14 bytes -/

section
variable {d d' : List Byte}

theorem getD_of_take_eq {n i : Nat} (h : d'.take n = d.take n) (hi : i < n) : d'.getD i 0 = d.getD i 0 := by
  have hget (l : List Byte) : (l.take n).getD i 0 = l.getD i 0 := by simp [List.getD, hi]
  rw [← hget, h, hget]

theorem slice_of_take_eq {n b : Nat} (a : Nat) (h : d'.take n = d.take n) (hb : b ≤ n) : slice d' a b = slice d a b := by
  have hslice (l : List Byte) : slice (l.take n) a b = slice l a b := by
    rw [slice, slice, List.drop_take, List.take_take, Nat.min_eq_left (Nat.sub_le_sub_right hb a)]
  rw [← hslice, h, hslice]

/-- R205: no header reaches beyond the first 14 bytes. -/
theorem headerOf_of_take_eq (h : d'.take 14 = d.take 14) : headerOf d' = headerOf d := by
  have hext (L : BitVec 7) : 2 + extBytes L + 4 ≤ 14 := by
    have := extBytes_cases L
    omega
  have hget {i : Nat} (hi : i < 14) : d'.getD i 0 = d.getD i 0 := getD_of_take_eq h hi
  have h0 := hget (i := 0) (by decide)
  have h1 := hget (i := 1) (by decide)
  have hpay : payloadOf d' = payloadOf d := by
    rw [payloadOf, payloadOf, h1, hget (i := 2) (by decide), hget (i := 3) (by decide), slice_of_take_eq 2 h (by decide)]
  have hkey : keyOf d' = keyOf d := by
    simp only [keyOf, h1, slice_of_take_eq _ h (hext _)]
  rw [headerOf, headerOf, h0, h1, hpay, hkey]

/-- R213, R215: `decodeHeader` depends on the first 14 bytes of the data and on its length. -/
theorem decodeHeader_of_take_eq (hl : d'.length = d.length) (h : d'.take 14 = d.take 14) :
    decodeHeader d' = decodeHeader d := by
  rw [decodeHeader_eq, decodeHeader_eq, hl, getD_of_take_eq h (by decide), headerOf_of_take_eq h]

end

/-- R133: the head of the window depends on `OFF`, `LEN` and the bytes of `BUF` in it alone. -/
theorem take_window_congr {s s' : State} {n : Nat} (ho : s'.off = s.off) (hl : s'.len = s.len)
    (hb : ∀ i, i < n → i < s.len.toNat → readBuf s' (s.off.toNat + i) = readBuf s (s.off.toNat + i)) :
    (window s').take n = (window s).take n := by
  rw [window, window, ho, hl, ← List.map_take, ← List.map_take, List.take_range]
  refine List.map_congr_left fun i hi => ?_
  obtain ⟨hn, hlen⟩ := Nat.lt_min.mp (List.mem_range.mp hi)
  exact hb i hn hlen

/-- Settles O46: two windows whose first 14 bytes agree give one answer of `decodeHeader`, and the registers follow it. -/
theorem decodeReadsFourteenBytes : Obligations.DecodeReadsFourteenBytes := by
  unfold Obligations.DecodeReadsFourteenBytes
  intro s s' t t' hr ho hl hb h h'
  have hin : inRange s = true := (inRange_iff s).mpr hr
  have hin' : inRange s' = true := (inRange_iff s').mpr (by rwa [ho, hl])
  have hd : decodeHeader (window s') = decodeHeader (window s) :=
    decodeHeader_of_take_eq (by rw [window_length, window_length, hl]) (take_window_congr ho hl hb)
  cases he : decodeHeader (window s) with
  | ok hdr =>
    cases (execDecode_of_ok hin he).symm.trans h
    cases (execDecode_of_ok hin' (hd.trans he)).symm.trans h'
    exact ⟨⟨rfl, rfl, rfl, rfl, rfl⟩, rfl, rfl⟩
  | error e =>
    cases (execDecode_of_error hin he).symm.trans h
    cases (execDecode_of_error hin' (hd.trans he)).symm.trans h'
    exact ⟨⟨rfl, rfl, rfl, rfl, rfl⟩, rfl, rfl⟩

end Sys2Proof.Machine
end

section
/-! The payload unmasker (spec 43_payload_unmask.md R230 to R233): the bytes of `unmask` and its laws, and what UNMASK leaves
in `OBUF`. -/

namespace Sys2Proof.Machine

/-! ### The function -/

@[simp] theorem getElem_unmask (d k : List Byte) (i : Nat) (h : i < (unmask d k).length) :
    (unmask d k)[i] = d[i]'(unmask_length d k ▸ h) ^^^ k.getD (i % 4) 0 := List.getElem_mapIdx

/-- R231: the output byte by byte. -/
theorem getD_unmask {d : List Byte} (k : List Byte) {i : Nat} (h : i < d.length) :
    (unmask d k).getD i 0 = d.getD i 0 ^^^ k.getD (i % 4) 0 := by
  simp [h]

/-- R232: a byte XORed twice with one key byte comes back. -/
theorem unmask_unmask (d k : List Byte) : unmask (unmask d k) k = d :=
  List.ext_getElem (by simp) fun i _ _ => by
    rw [getElem_unmask, getElem_unmask, BitVec.xor_assoc, BitVec.xor_self, BitVec.xor_zero]

/-- R233 (b), (c): a cut splits the output when the second key goes on where the first one stopped. -/
theorem unmask_append (d₁ d₂ : List Byte) {k k' : List Byte}
    (h : ∀ i, k'.getD (i % 4) 0 = k.getD ((i + d₁.length) % 4) 0) :
    unmask (d₁ ++ d₂) k = unmask d₁ k ++ unmask d₂ k' := by
  simp only [unmask, List.mapIdx_append, h]

/-- R233 (c): `rot(k, j)`. -/
def rotateKey (k : List Byte) (j : Nat) : List Byte :=
  [k.getD (j % 4) 0, k.getD ((1 + j) % 4) 0, k.getD ((2 + j) % 4) 0, k.getD ((3 + j) % 4) 0]

theorem getD_rotateKey (k : List Byte) (j i : Nat) : (rotateKey k (j % 4)).getD (i % 4) 0 = k.getD ((i + j) % 4) 0 := by
  rw [← Nat.mod_add_mod i, ← Nat.add_mod_mod _ j]
  have h : i % 4 < 4 := Nat.mod_lt i (by decide)
  generalize i % 4 = r at h ⊢
  match r, h with
  | 0, _ => rw [Nat.zero_add]; rfl
  | 1, _ | 2, _ | 3, _ => rfl

theorem getD_zeroKey (n : Nat) : [(0 : Byte), 0, 0, 0].getD n 0 = 0#8 := by
  match n with
  | 0 | 1 | 2 | 3 | _ + 4 => rfl

/-- R233 (d): a XOR with 0 changes no byte. -/
theorem unmask_zero (d : List Byte) : unmask d [0, 0, 0, 0] = d :=
  List.ext_getElem (by simp) fun i _ _ => by rw [getElem_unmask, getD_zeroKey, BitVec.xor_zero]

/-- Settles O52: (b) and (c) from one law of a cut, (d) and (e) from the bytes of the output. -/
theorem unmaskLaws : Obligations.UnmaskLaws := by
  unfold Obligations.UnmaskLaws
  intro k _ rot
  refine ⟨fun d => unmask_length d k, fun d₁ d₂ hd => ?_, fun d₁ d₂ => ?_, unmask_zero, fun d d' k' i hi hi' hd hk => ?_⟩
  · exact unmask_append d₁ d₂ fun i => by rw [← Nat.add_mod_mod, hd, Nat.add_zero]
  · exact unmask_append d₁ d₂ (getD_rotateKey k d₁.length)
  · rw [getD_unmask k' hi', getD_unmask k hi, hd, hk]

/-! ### The command -/

/-- R230: UNMASK past its check. -/
theorem exec_unmask_of_inRange {s : State} (hr : s.off.toNat + s.len.toNat ≤ 1024) :
    exec .unmask s = .next (succeed 0x06 (output (unmask (window s) (keyBytes s)) s)) := by
  rw [exec, execUnmask, onWindow_of_inRange ((inRange_iff s).mpr hr)]

/-- R230: `key[0]` is the most significant byte of `MKEY`. -/
theorem getD_keyBytes (s : State) {j : Nat} (h : j < 4) :
    (keyBytes s).getD j 0 = s.mkey.extractLsb' (24 - 8 * j) 8 := by
  apply BitVec.eq_of_toNat_eq
  have hexp : 24 - 8 * j = 8 * (4 - 1 - j) := by omega
  simp [keyBytes, bytesBE, List.getD, h, Nat.shiftRight_eq_div_pow, hexp, pow_mul]

/-- R230: UNMASK in range puts out the window XOR the key. -/
theorem readObuf_exec_unmask {s t : State} (hr : s.off.toNat + s.len.toNat ≤ 1024) (h : exec .unmask s = .next t) {i : Nat}
    (hi : i < s.len.toNat) :
    readObuf t i = readBuf s (s.off.toNat + i) ^^^ s.mkey.extractLsb' (24 - 8 * (i % 4)) 8 := by
  cases (exec_unmask_of_inRange hr).symm.trans h
  rw [readObuf_succeed, readObuf_output _ s (by simpa using hi), getD_unmask _ (by simpa using hi), window_getD s hi,
    getD_keyBytes s (Nat.mod_lt i (by decide))]

/-- Settles O50: the bytes put out by those of `unmask`, the rest by what the output and a completion leave. -/
theorem unmaskXorsTheWindow : Obligations.UnmaskXorsTheWindow := by
  unfold Obligations.UnmaskXorsTheWindow
  intro s hr
  have hx := exec_unmask_of_inRange hr
  obtain ⟨holen, hmem⟩ := writesObuf_unmask s (keyBytes s)
  exact ⟨_, hx, succeed_succeeded _ _, fun _ => readObuf_exec_unmask hr hx, BitVec.eq_of_toNat_eq holen, hmem,
    exec_sameHeader hx rfl (by simp), ⟨rfl, rfl⟩, exec_sameHost hx⟩

/-- Settles O51: the second UNMASK XORs each byte with the key byte it was XORed with before. -/
theorem unmaskTwiceIsTheIdentity : Obligations.UnmaskTwiceIsTheIdentity := by
  unfold Obligations.UnmaskTwiceIsTheIdentity
  refine ⟨unmask_unmask, fun s t u v hs hst hkey hlen hu hcopy huv i hi => ?_⟩
  have hi' : i < u.len.toNat := hlen ▸ hi
  rw [readObuf_exec_unmask hu huv hi', hcopy i hi', hkey, readObuf_exec_unmask hs hst hi, BitVec.xor_assoc, BitVec.xor_self,
    BitVec.xor_zero]

end Sys2Proof.Machine
end

section
/-! What the host of a streaming iteration does with each value it reads (spec 44_host_sequences.md R243, R245), and that
UNMASK after the DECODE of an unmasked frame copies (R244). -/

namespace Sys2Proof.Machine

/-! ### The decisions -/

/-- R243: with no command running the host decides by the value of the location it reads. -/
theorem step_of_readFor {s : State} {use : HostUse} {rest : List HostOp} (hb : s.status.busy = false)
    (hh : s.host = .readFor use :: rest) :
    step s = .next (HostProgram.goOn use (readIdle use.location s)
      { s with host := rest, rdata := readIdle use.location s }) := by
  have hread : hostRead use.location { s with host := rest } = readIdle use.location s :=
    hostRead_of_idle (s := { s with host := rest }) hb
  rw [step_of_idle hb hh, performOp, readInto_of_idle (s := { s with host := rest }) _ hb, hread]

/-- R31: bit 1 of `STATUS` as the host reads it is `ERR`. -/
theorem getLsbD_readIdle_status (s : State) : (readIdle 0x801 s).getLsbD 1 = s.status.err := by
  have hread : readIdle 0x801 s = s.status.word.setWidth 64 := rfl
  rw [hread]
  generalize s.status = st
  obtain ⟨busy, err, hv, kopen⟩ := st
  revert busy err hv kopen
  decide

section
variable {s : State} {n : Nat} {rest : List HostOp} (hb : s.status.busy = false)
include hb

/-- R243: after a decode error the host closes the connection. -/
theorem step_of_status_with_error (hh : s.host = .readFor (.status n) :: rest) (he : s.status.err = true) :
    step s = .next { s with
      host := [], rdata := s.status.word.setWidth 64, conn := { s.conn with closed := some .decodeError } } := by
  rw [step_of_readFor hb hh, HostProgram.goOn, HostUse.location, getLsbD_readIdle_status, if_pos he]
  rfl

/-- R243: after a DECODE without error the host goes on to `HSIZE`. -/
theorem step_of_status_without_error (hh : s.host = .readFor (.status n) :: rest) (he : s.status.err = false) :
    step s = .next { s with host := .readFor (.hsize n) :: rest, rdata := s.status.word.setWidth 64 } := by
  rw [step_of_readFor hb hh, HostProgram.goOn, HostUse.location, getLsbD_readIdle_status, he]
  rfl

/-- R243: `hs` is the `HSIZE` read. -/
theorem step_of_hsize (hh : s.host = .readFor (.hsize n) :: rest) :
    step s = .next { s with host := .readFor (.plen n s.hsize.toNat) :: rest, rdata := s.hsize.setWidth 64 } := by
  have hsize : (readIdle 0x808 s).toNat = s.hsize.toNat := 
    BitVec.toNat_setWidth_of_le (b := s.hsize) (show 4 ≤ 64 by decide)
  rw [step_of_readFor hb hh, HostProgram.goOn, HostUse.location, hsize]
  rfl

/-- R245: a frame that is not wholly in the bytes read closes the connection. -/
theorem step_of_plen_exceeds {hs : Nat} (hh : s.host = .readFor (.plen n hs) :: rest) (h : n < hs + s.plen.toNat) :
    step s = .next { s with
      host := [], rdata := s.plen, conn := { s.conn with closed := some .frameExceedsBuffer } } := by
  have hfits : HostProgram.frameFits hs (readIdle 0x807 s).toNat n = false := decide_eq_false h.not_ge
  rw [step_of_readFor hb hh, HostProgram.goOn, HostUse.location, hfits]
  rfl

/-- R243: a frame wholly in the bytes read has its payload unmasked. -/
theorem step_of_plen_fits {hs : Nat} (hh : s.host = .readFor (.plen n hs) :: rest) (h : hs + s.plen.toNat ≤ n) :
    step s = .next { s with
      host := HostProgram.unmaskPayload hs s.plen.toNat ++ rest, rdata := s.plen,
      conn := { s.conn with messages := [] :: s.conn.messages } } := by
  have hfits : HostProgram.frameFits hs (readIdle 0x807 s).toNat n = true := decide_eq_true h
  rw [step_of_readFor hb hh, HostProgram.goOn, HostUse.location, hfits]
  rfl

end

/-- Settles O57: each value read by what the host decides with it. -/
theorem streamingDecisions : Obligations.StreamingDecisions := by
  unfold Obligations.StreamingDecisions
  exact fun s n hs rest hb =>
    ⟨fun hh => ⟨step_of_status_with_error hb hh, step_of_status_without_error hb hh⟩, step_of_hsize hb,
      fun hh => ⟨step_of_plen_exceeds hb hh, step_of_plen_fits hb hh⟩⟩

/-! ### An unmasked frame -/

/-- R211: the DECODE of an unmasked frame leaves no key in `MKEY`. -/
theorem exec_decode_mkey_of_unmasked {s t : State} (h : exec .decode s = .next t) (he : t.status.err = false)
    (hm : hflagsMask t.hflags = false) : t.mkey = 0 := by
  obtain ⟨-, hx⟩ | ⟨e, -, -, hx⟩ | ⟨-, -, hx⟩ := execDecode_cases s <;> cases hx.symm.trans h
  · simp at he
  · simp at he
  · obtain ⟨-, -, hkey, -⟩ := headerOf_fits (window s)
    rw [succeed_hflags, commitHeader_hflags, hflagsMask_hflagsWord] at hm
    rw [succeed_mkey, commitHeader_mkey, hkey hm]
    rfl

/-- Settles O49: the key of an unmasked frame is 0, and a XOR with 0 changes no byte. -/
theorem unmaskedFrameIsCopied : Obligations.UnmaskedFrameIsCopied := by
  unfold Obligations.UnmaskedFrameIsCopied
  intro s t u h he hm hkey hr
  have hx := exec_unmask_of_inRange hr
  refine ⟨_, hx, fun i hi => ?_⟩
  rw [readObuf_exec_unmask hr hx hi, hkey, exec_decode_mkey_of_unmasked h he hm]
  simp

end Sys2Proof.Machine
end

section
/-! The streaming iteration as a run (spec 44_host_sequences.md R243 to R245): down to the first `RD STATUS`, and from there to
`CLOSED` or to the message content delivered. -/

namespace Sys2Proof.Machine

/-! ### A command of the host -/

/-- R111, R130: the command of a code due, its latency passed, with `rest` as the host's queue after it. -/
def State.dueThen (code : Byte) (ks : List Nat) (n : Nat) (rest : List HostOp) (s : State) : State :=
  { s with cmdl := code, format := .cmd8, status := { s.status with busy := true }, remaining := 0, latencies := ks,
           draws := n, host := rest }

/-- R111, R136: a command mnemonic runs the command on the registers and buffers as they stand. -/
theorem reaches_command (code : Byte) (rest : List HostOp) {s : State} (hb : s.status.busy = false)
    (hh : s.host = HostProgram.command code ++ rest) :
    ∃ ks n u v, exec (decodeCommand code) (s.dueThen code ks n rest) = .next u ∧ Reaches s (u.withHost rest v) := by
  obtain ⟨u, hu, hrun⟩ := latencyIsInvisible s (code.setWidth 64) rest hb hh
  obtain ⟨k, ks, n, e⟩ := startCommand_eq code s
  have hcode : (code.setWidth 64).setWidth 8 = code := by simp
  rw [hostWrite_cmd hb, hcode, e] at hu
  obtain ⟨-, -, -, -, -, -, hhost, -⟩ := exec_sameHost hu
  have hhost : u.host = rest := hhost
  refine ⟨ks, n, u, u.status.word.setWidth 64, hu, _, hrun.trans ?_⟩
  rw [State.withHost, ← hhost]

/-! ### Down to `RD STATUS` -/

/-- R243: what holds when the host of a streaming iteration that began in `s` is about to read `STATUS`. -/
structure AtStatus (s : State) (bytes : List Byte) (rest : List HostOp) (t : State) : Prop where
  busy : t.status.busy = false
  host : t.host = .readFor (.status bytes.length) :: rest
  conn : t.conn = s.conn
  off : t.off = 0
  len : t.len.toNat = bytes.length
  buf : ∀ i, i < bytes.length → readBuf t i = bytes.getD i 0
  obuf : ∀ i, i < 1024 → readObuf t i = readObuf s i
  olen : t.olen = s.olen
  key : SameKey s t

/-- R200, R243: DECODE of the bytes loaded leaves all but the header registers, `STATUS` and `ERR`. -/
theorem atStatus_of_decode {s u : State} {bytes : List Byte} {rest q : List HostOp} {ks : List Nat} {n : Nat}
    (hle : bytes.length ≤ 1024) (hx : exec .decode ((loadWindow bytes s).dueThen 0x05 ks n q) = .next u) (v : PortWord) :
    AtStatus s bytes rest (u.withHost (.readFor (.status bytes.length) :: rest) v) := by
  obtain ⟨hbytes, holen, hkey, hoff, hlen, -, -, -, -, -, -, hconn⟩ := decodeFrame _ _ hx
  have hl : (BitVec.ofNat 16 bytes.length).toNat = bytes.length := Nat.mod_eq_of_lt (by omega)
  refine ⟨(exec_completedWith hx).busy, rfl, hconn, hoff, (congrArg BitVec.toNat hlen).trans hl, fun i hi => ?_,
    fun i _ => ?_, holen, hkey⟩
  · have hread := Memory.read_writeBytes_inside bytes s.mem (bufAt 0) i hi
    rw [bufAt, Nat.zero_add] at hread
    exact (hbytes i).trans hread
  · refine (hbytes (obufAt i)).trans (Memory.read_writeBytes_outside bytes s.mem (bufAt 0) (obufAt i) (.inr ?_))
    simp only [bufAt, obufAt]
    omega

/-- R243: the bytes read are loaded and decoded, and the host is about to read `STATUS`. -/
theorem reaches_status {s : State} {bytes : List Byte} {rest : List HostOp} (h : StreamsFrom s bytes rest) :
    ∃ b u v, inRange b = true ∧ window b = bytes ∧ exec .decode b = .next u ∧
      AtStatus s bytes rest (u.withHost (.readFor (.status bytes.length) :: rest) v) ∧
      Reaches s (u.withHost (.readFor (.status bytes.length) :: rest) v) := by
  obtain ⟨hb, hh, -, hle⟩ := h
  simp only [HostProgram.streamIteration, List.append_assoc] at hh
  have hload := reaches_load bytes 0 _ hb hh (by omega)
  have hwin := hload.trans (reaches_win 0 bytes.length _ (by exact hb) rfl)
  obtain ⟨ks, n, u, v, hx, hcommand⟩ := reaches_command 0x05 (.readFor (.status bytes.length) :: rest)
    (s := { loadWindow bytes s with
      host := HostProgram.command 0x05 ++ .readFor (.status bytes.length) :: rest }) hb rfl
  exact ⟨(loadWindow bytes s).dueThen 0x05 ks n (.readFor (.status bytes.length) :: rest), u, v,
    inRange_loadWindow hle s, window_loadWindow hle s, hx, atStatus_of_decode hle hx v, hwin.trans hcommand⟩

/-! ### To `CLOSED` -/

/-- R243, R245: a host that closes the connection after DECODE has closed it without an UNMASK. -/
theorem AtStatus.closedWithout {s t : State} {bytes : List Byte} {rest : List HostOp} (h : AtStatus s bytes rest t)
    (e : HostError) (v : PortWord) :
    ClosedWithout e bytes.length s { t with host := [], rdata := v, conn := { t.conn with closed := some e } } :=
  ⟨h.busy, rfl, by rw [h.conn], h.off, h.len, h.obuf, h.olen, h.key⟩

/-- Settles O58: DECODE reports the error, and the host closes the connection at `RD STATUS`. -/
theorem streamingStopsOnADecodeError : Obligations.StreamingStopsOnADecodeError := by
  unfold Obligations.StreamingStopsOnADecodeError
  intro s bytes rest e hs he
  obtain ⟨b, u, v, hr, hw, hx, hat, hreach⟩ := reaches_status hs
  cases (execDecode_of_error hr (hw ▸ he)).symm.trans hx
  obtain ⟨k, hrun⟩ := hreach.trans (.head (step_of_status_with_error hat.busy hat.host rfl) (.refl _))
  exact ⟨k, _, hrun, hat.closedWithout .decodeError _, rfl, rfl, rfl, rfl, rfl, rfl, rfl⟩

/-! ### A whole header -/

/-- R211: the header registers hold `h`. -/
structure HoldsHeader (h : Header) (t : State) : Prop where
  hv : t.status.hv = true
  hflags : t.hflags = hflagsWord h.mask h.lead
  plen : t.plen.toNat = h.payloadLength
  mkey : t.mkey = h.key.getD 0
  hsize : t.hsize.toNat = h.headerSize

/-- R211: a header of one of the six sizes fits its registers. -/
theorem commitHeader_holdsHeader {h : Header} (hf : h.Fits) (s : State) : HoldsHeader h (commitHeader h s) := by
  obtain ⟨-, hsize, -, hplen⟩ := hf
  exact ⟨rfl, rfl, Nat.mod_eq_of_lt (by omega), rfl, Nat.mod_eq_of_lt (by omega)⟩

/-- R209: what `decodeHeader` answers is a header of one of the six sizes. -/
theorem Header.fits_of_decode {bytes : List Byte} {h : Header} (hd : decodeHeader bytes = .ok h) : h.Fits := by
  obtain ⟨-, rfl⟩ := decodeHeader_eq_ok_iff.mp hd
  exact headerOf_fits bytes

/-- R243: after a DECODE without error the host reads `HSIZE` and then `PLEN`. -/
theorem reaches_plen_of_status {n : Nat} {rest : List HostOp} {s : State} (hb : s.status.busy = false)
    (hh : s.host = .readFor (.status n) :: rest) (he : s.status.err = false) :
    ∃ v, Reaches s (s.withHost (.readFor (.plen n s.hsize.toNat) :: rest) v) := by
  have hstatus := step_of_status_without_error hb hh he
  have hsize := step_of_hsize (s := s.withHost (.readFor (.hsize n) :: rest) (s.status.word.setWidth 64)) hb rfl
  exact ⟨_, .head hstatus (.head hsize (.refl _))⟩

/-- R211, R243: over a whole header the host comes to read `PLEN`, with the header in its registers. -/
theorem reaches_plen {s : State} {bytes : List Byte} {rest : List HostOp} {h : Header} (hs : StreamsFrom s bytes rest)
    (hd : decodeHeader bytes = .ok h) :
    ∃ t v, AtStatus s bytes rest t ∧ Succeeded 0x05 t ∧ HoldsHeader h t ∧
      Reaches s (t.withHost (.readFor (.plen bytes.length h.headerSize) :: rest) v) := by
  obtain ⟨b, u, v, hr, hw, hx, hat, hreach⟩ := reaches_status hs
  obtain rfl := Host.Outcome.next.inj ((execDecode_of_ok hr (hw ▸ hd)).symm.trans hx)
  obtain ⟨hv, hflags, hplen, hmkey, hsize⟩ := commitHeader_holdsHeader (Header.fits_of_decode hd) b
  obtain ⟨w, hplenRead⟩ := reaches_plen_of_status hat.busy hat.host rfl
  exact ⟨_, w, hat, succeed_succeeded 0x05 (commitHeader h b), ⟨hv, hflags, hplen, hmkey, hsize⟩,
    hreach.trans (hsize ▸ hplenRead)⟩

/-- Settles O59: the header is whole, and the host closes the connection at `RD PLEN`. -/
theorem streamingRejectsAFrameThatExceeds : Obligations.StreamingRejectsAFrameThatExceeds := by
  unfold Obligations.StreamingRejectsAFrameThatExceeds
  intro s bytes rest h hs hd hexceeds
  obtain ⟨t, v, hat, hsucc, ⟨hv, hflags, hplen, hmkey, hsize⟩, hreach⟩ := reaches_plen hs hd
  obtain ⟨k, hrun⟩ := hreach.trans (.head (step_of_plen_exceeds hat.busy rfl (hplen ▸ hexceeds)) (.refl _))
  exact ⟨k, _, hrun, hat.closedWithout .frameExceedsBuffer _, hsucc, hv, hflags, hplen, hmkey, hsize⟩

/-! ### The payload -/

/-- R111: the window after `WIN off, len`. -/
def State.withWindow (off len : Nat) (s : State) : State := { s with off := BitVec.ofNat 16 off, len := BitVec.ofNat 16 len }

theorem withWindow_toNat {off len : Nat} (h : off + len ≤ 1024) (s : State) :
    (s.withWindow off len).off.toNat = off ∧ (s.withWindow off len).len.toNat = len :=
  ⟨Nat.mod_eq_of_lt (by omega), Nat.mod_eq_of_lt (by omega)⟩

/-- R133: a window inside bytes that `BUF` starts with is a slice of them. -/
theorem window_withWindow {s : State} {bytes : List Byte} {off len : Nat} (h : off + len ≤ bytes.length)
    (hle : bytes.length ≤ 1024) (hbuf : ∀ i, i < bytes.length → readBuf s i = bytes.getD i 0) :
    window (s.withWindow off len) = slice bytes off (off + len) := by
  obtain ⟨hoff, hlen⟩ := withWindow_toNat (h.trans hle) s
  refine List.ext_getElem (by simp [slice, hlen]; omega) fun i hi _ => ?_
  rw [window_length, hlen] at hi
  rw [← List.getD_eq_getElem (window _) 0, window_getD _ (hlen.symm ▸ hi), hoff]
  have hlt : off + i < bytes.length := by omega
  refine (hbuf (off + i) hlt).trans ?_
  simp [slice, hlt]

/-- R111, R230: `WIN off, len` and UNMASK, with `q` as the host's queue after them. -/
theorem reaches_unmask {off len : Nat} {q : List HostOp} {s : State} (hb : s.status.busy = false)
    (hh : s.host = HostProgram.win off len ++ (HostProgram.command 0x06 ++ q)) (hle : off + len ≤ 1024) :
    ∃ ks n v, Reaches s ((succeed 0x06 (output (unmask (window (s.withWindow off len)) (keyBytes s))
      ((s.withWindow off len).dueThen 0x06 ks n q))).withHost q v) := by
  obtain ⟨hoff, hlen⟩ := withWindow_toNat hle s
  obtain ⟨ks, n, u, v, hx, hcommand⟩ := reaches_command 0x06 q
    (s := { s.withWindow off len with host := HostProgram.command 0x06 ++ q }) hb rfl
  have hunmask := exec_unmask_of_inRange (s := (s.withWindow off len).dueThen 0x06 ks n q)
    (hoff.symm ▸ hlen.symm ▸ hle)
  obtain rfl := Host.Outcome.next.inj (hunmask.symm.trans hx)
  exact ⟨ks, n, v, (reaches_win off len _ hb hh).trans hcommand⟩

/-- R243: `READ 0, pl` of the `pl` bytes that a command put out makes them the newest message. -/
theorem reaches_message {bs : List Byte} {code : Byte} {rest : List HostOp} {s : State} {ms : List (List Byte)}
    (hm : s.conn.messages = [] :: ms) (hle : bs.length ≤ 1024) (v : PortWord) :
    ∃ w, Reaches
      ((succeed code (output bs s)).withHost (((List.range bs.length).map fun i => .readFor (.content i)) ++ rest) v)
      { succeed code (output bs s) with host := rest, rdata := w, conn := { s.conn with messages := bs :: ms } } := by
  have hread : (List.range bs.length).map (readObuf (output bs s)) = bs :=
    List.ext_getElem (by simp) fun i _ hi => by simp [readObuf_output bs s hi, hi]
  rw [List.range_eq_range'] at hread ⊢
  obtain ⟨w, hcontent⟩ := reaches_content bs.length 0 rest
    (s := (succeed code (output bs s)).withHost (((List.range' 0 bs.length).map fun i => .readFor (.content i)) ++ rest) v)
    (readObuf (output bs s)) (fun _ => rfl) rfl hm rfl (by omega)
  rw [List.nil_append, hread] at hcontent
  exact ⟨w, hcontent⟩

/-- R243: what the host does after its check delivers what UNMASK of the payload puts out. -/
theorem reaches_unmaskPayload {off len : Nat} {rest : List HostOp} {s : State} {ms : List (List Byte)} {out : List Byte}
    (hb : s.status.busy = false) (hm : s.conn.messages = [] :: ms)
    (hh : s.host = HostProgram.unmaskPayload off len ++ rest) (hle : off + len ≤ 1024)
    (hout : unmask (window (s.withWindow off len)) (keyBytes s) = out) :
    ∃ ks n q v, Reaches s { succeed 0x06 (output out ((s.withWindow off len).dueThen 0x06 ks n q)) with
      host := rest, rdata := v, conn := { s.conn with messages := out :: ms } } := by
  obtain rfl : out.length = len := by rw [← hout, unmask_length, window_length, (withWindow_toNat hle s).2]
  have hbytes : out.length ≤ 1024 := by omega
  rw [HostProgram.unmaskPayload, List.append_assoc, List.append_assoc] at hh
  obtain ⟨ks, n, v, hunmask⟩ := reaches_unmask hb hh hle
  rw [hout] at hunmask
  obtain ⟨w, hread⟩ := reaches_message (s := (s.withWindow off out.length).dueThen 0x06 ks n _) hm hbytes v
  exact ⟨ks, n, _, w, hunmask.trans hread⟩

/-- R243, R245: a frame that passes the host's check has its payload unmasked and delivered. -/
theorem reaches_delivery {n off : Nat} {rest : List HostOp} {s : State} {out : List Byte} (hb : s.status.busy = false)
    (hh : s.host = .readFor (.plen n off) :: rest) (hfits : off + s.plen.toNat ≤ n) (hn : n ≤ 1024)
    (hout : unmask (window (s.withWindow off s.plen.toNat)) (keyBytes s) = out) :
    ∃ ks m q v, Reaches s { succeed 0x06 (output out ((s.withWindow off s.plen.toNat).dueThen 0x06 ks m q)) with
      host := rest, rdata := v, conn := { s.conn with messages := out :: s.conn.messages } } := by
  obtain ⟨ks, m, q, v, hdeliver⟩ := reaches_unmaskPayload (s := { s with
    host := HostProgram.unmaskPayload off s.plen.toNat ++ rest, rdata := s.plen,
    conn := { s.conn with messages := [] :: s.conn.messages } }) hb rfl rfl (hfits.trans hn) hout
  exact ⟨ks, m, q, v, .head (step_of_plen_fits hb hh hfits) hdeliver⟩

/-- R244: the key of a header without a mask is 0, which leaves the payload as it is. -/
theorem Header.Fits.unmask_key {h : Header} (hf : h.Fits) (payload : List Byte) :
    unmask payload (bytesBE (h.key.getD 0).toNat 4) =
      if h.mask then unmask payload (bytesBE (h.key.getD 0).toNat 4) else payload := by
  obtain ⟨-, -, hkey, -⟩ := hf
  cases hm : h.mask with
  | true => rfl
  | false =>
    rw [hkey hm]
    exact unmask_zero payload

/-- Settles O60: the window of the UNMASK is the payload, its key that of the frame, and what it puts out is read as the
message content. -/
theorem streamingDeliversThePayload : Obligations.StreamingDeliversThePayload := by
  unfold Obligations.StreamingDeliversThePayload
  intro s bytes rest h hs hd hfits payload content
  obtain ⟨t, v, hat, -, ⟨hv, -, hplen, hmkey, -⟩, hreach⟩ := reaches_plen hs hd
  obtain ⟨-, -, -, hle⟩ := hs
  have hfits' : h.headerSize + t.plen.toNat ≤ bytes.length := hplen.symm ▸ hfits
  obtain ⟨hoff, hlen⟩ := withWindow_toNat (hfits'.trans hle) t
  have hout : unmask (window (t.withWindow h.headerSize t.plen.toNat)) (keyBytes t) = content := by
    rw [window_withWindow hfits' hle hat.buf, keyBytes, hplen, hmkey]
    exact (Header.fits_of_decode hd).unmask_key payload
  have hcontent : content.length = t.plen.toNat := by rw [← hout, unmask_length, window_length, hlen]
  obtain ⟨ks, n, q, w, hdeliver⟩ := reaches_delivery
    (s := t.withHost (.readFor (.plen bytes.length h.headerSize) :: rest) v) hat.busy rfl hfits' hle hout
  obtain ⟨k, hrun⟩ := hreach.trans hdeliver
  refine ⟨k, _, hrun, rfl, ?_, succeed_succeeded _ _, hv, hoff, hlen.trans hplen,
    congrArg (BitVec.ofNat 16) hcontent, fun i hi => ?_,
    fun i hi => ?_, hat.key⟩
  · rw [← hat.conn]
    rfl
  · exact readObuf_output content _ (hcontent.symm ▸ hplen.symm ▸ hi)
  · exact (readBuf_output content _ (hi.trans_le hle)).trans (hat.buf i hi)

end Sys2Proof.Machine
end

section
/-! The command errors (spec 60_exceptions.md): the code that is no command (R265), the window that leaves the buffer (R266),
and that no other command than DECODE fails on its data (R269). -/

namespace Sys2Proof.Machine

/-! ### The range check -/

/-- R134: the four commands that have a window. -/
def ReadsWindow (i : Instr) : Prop := i = .accept ∨ i = .kupdate ∨ i = .decode ∨ i = .unmask

/-- R134, R142: a command that has a window runs its unit behind the range check. -/
theorem ReadsWindow.exec_eq_onWindow {i : Instr} (hi : ReadsWindow i) :
    ∃ run, ∀ s, exec i s = .next (onWindow i.code run s) := by
  obtain rfl | rfl | rfl | rfl := hi <;> exact ⟨_, fun _ => rfl⟩

theorem exec_kupdate_err_code_of_not_out {s t : State} (h : exec .kupdate s = .next t)
    (hin : ¬1024 < s.off.toNat + s.len.toNat) : t.err.code = 6 ∨ t.err.code = 7 ∨ t.err.code = 0 := by
  obtain ⟨-, hclosed, hlong, hfits⟩ := exec_kupdate_err_code h
  cases ho : s.status.kopen with
  | false => exact .inl (hclosed hin ho)
  | true =>
    obtain hl | hl := lt_or_ge (2 ^ 61 - 37) (s.key.mlen.toNat + s.len.toNat)
    · exact .inr (.inl (hlong hin ho hl))
    · exact .inr (.inr (hfits hin ho hl))

/-- R266: with its window in the buffer a command reports no error or another one. -/
theorem ReadsWindow.err_code_ne_rangeError {i : Instr} (hi : ReadsWindow i) {s t : State} (h : exec i s = .next t)
    (hin : ¬1024 < s.off.toNat + s.len.toNat) : t.err.code ≠ CmdError.rangeError.code := by
  obtain ⟨haccept, -, -, -, -, hunmask, -⟩ := orderOfTheChecks s
  obtain rfl | rfl | rfl | rfl := hi
  · rw [(haccept t h).2 hin]
    decide
  · obtain hc | hc | hc := exec_kupdate_err_code_of_not_out h hin <;> rw [hc] <;> decide
  · obtain ⟨-, hc⟩ | ⟨-, -, hc⟩ | ⟨-, -, hc⟩ | ⟨-, hc⟩ := exec_decode_err_code_of_not_out h hin <;> rw [hc] <;> decide
  · rw [(hunmask t h).2 hin]
    decide

/-- Settles O21: the range check comes before the unit, and no unit raises `RangeError`. -/
theorem rangeErrorFails : Obligations.RangeErrorFails := by
  unfold Obligations.RangeErrorFails
  intro i s hi
  refine ⟨fun hout => ?_, fun t h hin => ReadsWindow.err_code_ne_rangeError hi h hin.not_gt⟩
  obtain ⟨run, hrun⟩ := ReadsWindow.exec_eq_onWindow hi
  rw [hrun, onWindow_of_out hout, raise_eq_failedWith]

/-! ### No failure on data -/

/-- R137, R261: two states report the same error, or both none. -/
def SameError (s t : State) : Prop := t.err = s.err ∧ t.status.err = s.status.err

theorem sameError_succeed {code : Byte} {s s' : State} : SameError (succeed code s) (succeed code s') := ⟨rfl, rfl⟩

theorem sameError_raise {e : CmdError} {need code : Byte} {s s' : State} :
    SameError (raise e need code s) (raise e need code s') := ⟨rfl, rfl⟩

/-- Two states that pass or fail a check together report the same error after it when each branch does. -/
theorem sameError_ite {p p' : Prop} [Decidable p] [Decidable p'] {a a' b b' : State} (hp : p' ↔ p)
    (ha : SameError a a') (hb : SameError b b') : SameError (if p then a else b) (if p' then a' else b') := by
  by_cases h : p
  · rwa [if_pos h, if_pos (hp.mpr h)]
  · rwa [if_neg h, if_neg (mt hp.mp h)]

/-- R134: the range check reads `OFF` and `LEN` alone. -/
theorem sameError_onWindow {code : Byte} {run : State → State} {s s' : State} (hoff : s'.off = s.off)
    (hlen : s'.len = s.len) (hrun : SameError (run s) (run s')) :
    SameError (onWindow code run s) (onWindow code run s') :=
  sameError_ite (by rw [inRange_iff, inRange_iff, hoff, hlen]) hrun sameError_raise

/-- Settles O28: the checks of the five commands read `OFF`, `LEN`, `KOPEN` and `MLEN` alone, and what comes after them
raises no error. -/
theorem noFailureOnData : Obligations.NoFailureOnData := by
  unfold Obligations.NoFailureOnData
  intro i s s' t t' hi hoff hlen hopen hmlen h h'
  have hkopen : s'.status.kopen = true ↔ s.status.kopen = true := by rw [hopen]
  obtain rfl | rfl | rfl | rfl | rfl := hi <;> obtain rfl := Host.Outcome.next.inj h <;>
    obtain rfl := Host.Outcome.next.inj h'
  · exact sameError_onWindow hoff hlen sameError_succeed
  · exact sameError_succeed
  · exact sameError_onWindow hoff hlen (sameError_ite hkopen
      (sameError_ite (by rw [hmlen, hlen]) sameError_succeed sameError_raise)
      sameError_raise)
  · exact sameError_ite hkopen sameError_succeed sameError_raise
  · exact sameError_onWindow hoff hlen sameError_succeed

/-! ### A code that is no command -/

theorem exec_illegal (c : Byte) (s : State) : exec (.illegal c) s = .next (failedWith .illegalCommand c s) := rfl

/-- Settles O20: the code decodes to `ILLEGAL`, which raises the error and does nothing else. -/
theorem illegalCommandFails : Obligations.IllegalCommandFails := by
  unfold Obligations.IllegalCommandFails
  intro c s hc
  obtain ⟨hillegal, -⟩ := illegalCodes c
  exact ⟨by rw [hillegal.mpr hc, exec_illegal], exec_illegal c s⟩

end Sys2Proof.Machine
end

section
/-! Reset (spec 70_reset_and_hazards.md): the reset input, with and without a running command (R300, R301), and the commands
run first after it (R306). -/

namespace Sys2Proof.Machine

/-! ### The reset input -/

/-- R300, R301: at the head of the queue the reset input is the host's step, whether a command runs or not; what is left of
the latency is dropped. -/
theorem step_of_reset {s : State} {rest : List HostOp} (hh : s.host = .reset :: rest)
    (hr : s.status.busy = true → s.remaining ≠ 0) : step s = .next (applyReset { s with host := rest }) := by
  cases hb : s.status.busy with
  | false =>
    rw [step_of_idle hb hh]
    rfl
  | true =>
    obtain ⟨k, hk⟩ := Nat.exists_eq_succ_of_ne_zero (hr hb)
    rw [step_of_running hb hk, hostStep_of_host_cons (s := { s with remaining := k }) hh]
    rfl

/-- Settles O2: the step applies the reset input, which is the reset state with free contents, all locations listed. -/
theorem resetInputGivesResetState : Obligations.ResetInputGivesResetState := by
  unfold Obligations.ResetInputGivesResetState
  exact fun s rest hh hr => ⟨_, _, Memory.wf_tabulate (Config.resetByte s.draws) le_rfl, step_of_reset hh hr⟩

/-! ### The first commands after reset -/

/-- R45, R134: the window reset leaves starts at 0 and is empty, so it is in the buffer. -/
theorem resetWith_range (mem : Memory) (blk : Vector Byte 64) :
    (State.resetWith mem blk).off.toNat + (State.resetWith mem blk).len.toNat ≤ 1024 := Nat.zero_le _

/-- R45, R133: with `LEN` 0 there is no byte in the window. -/
@[simp] theorem window_resetWith (mem : Memory) (blk : Vector Byte 64) : window (State.resetWith mem blk) = [] := rfl

/-- R172: KUPDATE with its window in the buffer and no open context. -/
theorem exec_kupdate_of_closed {s : State} (hr : s.off.toNat + s.len.toNat ≤ 1024) (ho : s.status.kopen = false) :
    exec .kupdate s = .next (failedWith .sequenceError 0x03 s) := by
  rw [exec, execKupdate, onWindow_of_inRange ((inRange_iff s).mpr hr), if_neg (by simp [ho]), raise_eq_failedWith]

/-- R173: KFINAL with no open context. -/
theorem exec_kfinal_of_closed {s : State} (ho : s.status.kopen = false) :
    exec .kfinal s = .next (failedWith .sequenceError 0x04 s) := by
  rw [exec, execKfinal, if_neg (by simp [ho]), raise_eq_failedWith]

/-- R201, R212: DECODE of a window in the buffer that is shorter than two bytes. -/
theorem exec_decode_of_short {s : State} (hr : s.off.toNat + s.len.toNat ≤ 1024) (h : s.len.toNat < 2) :
    exec .decode s = .next (raise .frameTooShort 2 0x05 (clearHeader s)) :=
  execDecode_of_error ((inRange_iff s).mpr hr) (decodeHeader_of_short (by rwa [window_length]))

/-- Settles O4: the window is in the buffer and empty, and no context is open; each command by what it does then. -/
theorem firstCommandsAfterReset : Obligations.FirstCommandsAfterReset := by
  unfold Obligations.FirstCommandsAfterReset
  intro mem blk s
  have hr : s.off.toNat + s.len.toNat ≤ 1024 := resetWith_range mem blk
  obtain ⟨u, hunmask, hu, -, holen, -⟩ := unmaskXorsTheWindow s hr
  obtain ⟨a, haccept, ha, -, -, -, -, hkey⟩ := acceptGivesTheAcceptKey s hr
  rw [window_resetWith] at hkey
  exact ⟨⟨_, exec_decode_of_short hr Nat.zero_lt_two, rfl, rfl⟩, ⟨u, hunmask, hu, holen⟩, ⟨a, haccept, ha, hkey⟩,
    ⟨_, exec_kinit s, succeed_succeeded _ _⟩, ⟨_, exec_kupdate_of_closed hr rfl, rfl, rfl⟩,
    _, exec_kfinal_of_closed rfl, rfl, rfl⟩

end Sys2Proof.Machine
end
